-- ==== Sys2Proof/Word.lean ====
section
/-! DEFINITION. The words FWCORE moves: 32-bit command words, 64-bit registers, and binary64 patterns.
20_memory.md R61: every register is exactly 64 bits and moves whole. -/

namespace Sys2Proof

/-- A byte, where a host carries a word as bytes (20_memory.md R62). -/
abbrev Byte := BitVec 8

/-- A command word (30_encoding.md R80). -/
abbrev Word32 := BitVec 32

/-- The 64 bits of a register; read as an i64 through `BitVec.toInt` (00_scope.md R10, R12 `toi`). -/
abbrev Word64 := BitVec 64

/-- An IEEE 754 binary64 pattern (00_scope.md R10); `tof` of R12 is the identity on the pattern. -/
abbrev F64 := BitVec 64

end Sys2Proof
end

