-- ==== Sys2Proof/Config.lean ====
section
/-! DEFINITION. What the spec leaves OPEN (00_scope.md R8) and the free values (93_implementation_defined.md
part 1, treatment `any value`). Every constant here is opaque: no proof can see what it is. -/

namespace Sys2Proof

/-- The place a free value is written to. Two places never share a key, so that two free values of one
command are unrelated. -/
inductive Site where
  /-- The numbered register of this number (10_state.md R26 to R36). -/
  | reg (number : Nat)
  /-- Result register `RESk`. -/
  | res (k : Nat)
  /-- A column (30_encoding.md R89) of the voice row at an index. -/
  | row (index column : Nat)
  /-- The increment that the note-on in queue entry `entry` computes (46_voice_loop.md R284). -/
  | noteDt (entry : Nat)
  /-- The operand of the `k`-th sine of an oscillator command. -/
  | oscSine (k : Nat)
  /-- The operand of the `k`-th sine that renders the voice at an index. -/
  | voiceSine (index k : Nat)
  /-- Part `part` of queue entry `index` before anything wrote it. -/
  | entry (index part : Nat)
  deriving DecidableEq, Repr

namespace Config

/-- OPEN: decides `VT_CAP` (00_scope.md R8). -/
opaque vtCapChoice : Nat

/-- OPEN: decides `EQ_CAP` (00_scope.md R8). -/
opaque eqCapChoice : Nat

/-- `VT_CAP`, any integer in 1 to 65535 (00_scope.md R8, D11). -/
def vtCap : Nat := vtCapChoice % 65535 + 1

/-- `EQ_CAP`, any integer in 1 to 65535 (00_scope.md R8, D11). -/
def eqCap : Nat := eqCapChoice % 65535 + 1

/-- OPEN: `NUM.sin`, a total function of its operand alone (00_scope.md R8, R10, D2). -/
opaque sin : F64 → F64

/-- OPEN: `NUM.exp2`, a total function of its operand alone (00_scope.md R8, R10, D2). -/
opaque exp2 : F64 → F64

/-- OPEN: `GREY_LS_B0` (00_scope.md R8, D30). -/
opaque greyLsB0 : F64
/-- OPEN: `GREY_LS_B1`. -/
opaque greyLsB1 : F64
/-- OPEN: `GREY_LS_B2`. -/
opaque greyLsB2 : F64
/-- OPEN: `GREY_LS_A1`. -/
opaque greyLsA1 : F64
/-- OPEN: `GREY_LS_A2`. -/
opaque greyLsA2 : F64
/-- OPEN: `GREY_PK_B0`. -/
opaque greyPkB0 : F64
/-- OPEN: `GREY_PK_B1`. -/
opaque greyPkB1 : F64
/-- OPEN: `GREY_PK_B2`. -/
opaque greyPkB2 : F64
/-- OPEN: `GREY_PK_A1`. -/
opaque greyPkA1 : F64
/-- OPEN: `GREY_PK_A2`. -/
opaque greyPkA2 : F64

/-- The free values: what command number `n` leaves at a place whose value the spec does not fix
(44_voice_table.md R241, 93_implementation_defined.md U6 and U18). -/
opaque freeBits : Nat → Site → BitVec 64

/-- What row and entry storage holds before anything has written it (93_implementation_defined.md U7). -/
opaque powerOnBits : Site → BitVec 64

end Config
end Sys2Proof
end

