-- ==== Sys2Proof/Syntax.lean ====
section
/-! DEFINITION. The command set FWCORE-CMD1: one constructor per row of the opcode table
(30_encoding.md R86 to R89), and the names that selectors stand for. -/

namespace Sys2Proof

/-- The fourteen waveforms (30_encoding.md R87). -/
inductive Wave where
  | sine | tri | square | saw | ramp | rect | trap | trappw | tripulse
  | hwrsine | fwrsine | circle | hammond | stair
  deriving DecidableEq, Repr

/-- The seven noise colours (30_encoding.md R88). -/
inductive Colour where
  | white | pink | brown | blue | violet | grey | black
  deriving DecidableEq, Repr

/-- The three columns of a voice row (30_encoding.md R89). -/
inductive Column where
  | note | phase | dt
  deriving DecidableEq, Repr

/-- One constructor per row of the opcode table. A selector that the table leaves to the word is a field
of 4 bits, the register number of `RDREG` and `WRREG` a field of 16 bits (30_encoding.md R82). -/
inductive Instr where
  | nop
  | reset
  | rdreg (imm : BitVec 16)
  | wrreg (imm : BitVec 16)
  | oscSync
  | oscSetfreq
  | oscSetinc
  | oscSetpw
  | oscSetwave (sel : BitVec 4)
  | oscInc
  | oscRun
  | oscSine
  | oscTri
  | oscSquare
  | oscSaw
  | oscRamp
  | oscRect
  | oscTrap
  | oscTrappw
  | oscTripulse
  | oscHwrsine
  | oscFwrsine
  | oscCircle
  | oscHammond
  | oscStair
  | envSetatk
  | envSetdec
  | envSetrel
  | envSetsus
  | envAttack
  | envRelease
  | envStep
  | nzInit
  | nzLcg
  | nzWhite
  | nzPink
  | nzBrown
  | nzBlue
  | nzViolet
  | nzGrey
  | nzBlack
  | nzSetrc
  | nzSetdens
  | vtGet
  | vtAppend
  | vtInsert
  | vtRemove
  | vtFirst
  | vtLast
  | vtNext
  | vtFind (sel : BitVec 4)
  | vtClear
  | vtRdf (sel : BitVec 4)
  | vtWrf (sel : BitVec 4)
  | eqRewind
  | eqPush
  | eqPop
  | synTick
  deriving DecidableEq, Repr

end Sys2Proof
end

