-- ==== Sys2Proof/WellFormed.lean ====
section
/-! DEFINITION. Which terms of `Instr` are commands: a selector field holds a value the opcode table allows
(30_encoding.md R86). A register number is not checked here: R90 leaves it to execution. -/

namespace Sys2Proof

/-- The selector values of 30_encoding.md R86. -/
def Instr.WellFormed : Instr → Bool
  | .oscSetwave sel => decide (sel.toNat ≤ 13)
  | .vtFind sel => decide (sel.toNat ≤ 2)
  | .vtRdf sel => decide (sel.toNat ≤ 2)
  | .vtWrf sel => decide (sel.toNat ≤ 2)
  | .nop | .reset | .rdreg _ | .wrreg _ => true
  | .oscSync | .oscSetfreq | .oscSetinc | .oscSetpw | .oscInc | .oscRun => true
  | .oscSine | .oscTri | .oscSquare | .oscSaw | .oscRamp | .oscRect | .oscTrap => true
  | .oscTrappw | .oscTripulse | .oscHwrsine | .oscFwrsine | .oscCircle | .oscHammond | .oscStair => true
  | .envSetatk | .envSetdec | .envSetrel | .envSetsus | .envAttack | .envRelease | .envStep => true
  | .nzInit | .nzLcg | .nzWhite | .nzPink | .nzBrown | .nzBlue | .nzViolet | .nzGrey | .nzBlack => true
  | .nzSetrc | .nzSetdens => true
  | .vtGet | .vtAppend | .vtInsert | .vtRemove | .vtFirst | .vtLast | .vtNext | .vtClear => true
  | .eqRewind | .eqPush | .eqPop | .synTick => true

end Sys2Proof
end

