-- ==== Sys2Proof/Decode.lean ====
section
/-! DEFINITION. Command words to commands and back (30_encoding.md R80 to R91). The decoder is total: it
rejects a word by the test of R90 that fails first. The encoder is written from the same opcode map. -/

namespace Sys2Proof

/-- Why a word is no command: the four tests of 30_encoding.md R90, in their order, and, for the byte entry
only, too few bytes for a word. -/
inductive DecodeReject where
  /-- R90 (a): `OPC` is not assigned. -/
  | opc
  /-- R90 (b): `RSV` is not 0. -/
  | rsv
  /-- R90 (c): `SEL` is not legal for the `OPC`. -/
  | sel
  /-- R90 (d): `IMM` is not 0 outside `RDREG` and `WRREG`. -/
  | imm
  /-- Fewer than four bytes were carried. -/
  | short
  deriving DecidableEq, Repr

/-- `OPC`, bits 31:24 (30_encoding.md R80). -/
def opcOf (w : Word32) : BitVec 8 := w.extractLsb' 24 8

/-- `RSV`, bits 23:20. -/
def rsvOf (w : Word32) : BitVec 4 := w.extractLsb' 20 4

/-- `SEL`, bits 19:16. -/
def selOf (w : Word32) : BitVec 4 := w.extractLsb' 16 4

/-- `IMM`, bits 15:0. -/
def immOf (w : Word32) : BitVec 16 := w.extractLsb' 0 16

/-- The word of four fields, most significant first (30_encoding.md R80). -/
def packWord (opc : BitVec 8) (rsv sel : BitVec 4) (imm : BitVec 16) : Word32 :=
  (opc ++ (rsv ++ (sel ++ imm))).cast rfl

/-- A command that admits only `SEL` = 0. -/
def onlySel0 (sel : BitVec 4) (i : Instr) : Option Instr := if sel = 0#4 then some i else none

/-- A command whose `SEL` is an operand with a greatest legal value. -/
def selUpTo (bound : Nat) (sel : BitVec 4) (i : Instr) : Option Instr :=
  if sel.toNat ≤ bound then some i else none

/-- `OPC` 0x17: one command per waveform code (30_encoding.md R87). -/
def waveCommand (sel : BitVec 4) : Option Instr :=
  match sel.toNat with
  | 0 => some .oscSine
  | 1 => some .oscTri
  | 2 => some .oscSquare
  | 3 => some .oscSaw
  | 4 => some .oscRamp
  | 5 => some .oscRect
  | 6 => some .oscTrap
  | 7 => some .oscTrappw
  | 8 => some .oscTripulse
  | 9 => some .oscHwrsine
  | 10 => some .oscFwrsine
  | 11 => some .oscCircle
  | 12 => some .oscHammond
  | 13 => some .oscStair
  | _ => none

/-- `OPC` 0x32: one command per colour code (30_encoding.md R88). -/
def colourCommand (sel : BitVec 4) : Option Instr :=
  match sel.toNat with
  | 1 => some .nzWhite
  | 2 => some .nzPink
  | 3 => some .nzBrown
  | 4 => some .nzBlue
  | 5 => some .nzViolet
  | 6 => some .nzGrey
  | 7 => some .nzBlack
  | _ => none

/-- The opcode map of 30_encoding.md R86. The outer `none` is an unassigned `OPC`, the inner one a `SEL`
that the `OPC` does not admit. -/
def commandOf (opc : BitVec 8) (sel : BitVec 4) (imm : BitVec 16) : Option (Option Instr) :=
  match opc.toNat with
  | 0x00 => some (onlySel0 sel .nop)
  | 0x01 => some (onlySel0 sel .reset)
  | 0x02 => some (onlySel0 sel (.rdreg imm))
  | 0x03 => some (onlySel0 sel (.wrreg imm))
  | 0x10 => some (onlySel0 sel .oscSync)
  | 0x11 => some (onlySel0 sel .oscSetfreq)
  | 0x12 => some (onlySel0 sel .oscSetinc)
  | 0x13 => some (onlySel0 sel .oscSetpw)
  | 0x14 => some (selUpTo 13 sel (.oscSetwave sel))
  | 0x15 => some (onlySel0 sel .oscInc)
  | 0x16 => some (onlySel0 sel .oscRun)
  | 0x17 => some (waveCommand sel)
  | 0x20 => some (onlySel0 sel .envSetatk)
  | 0x21 => some (onlySel0 sel .envSetdec)
  | 0x22 => some (onlySel0 sel .envSetrel)
  | 0x23 => some (onlySel0 sel .envSetsus)
  | 0x24 => some (onlySel0 sel .envAttack)
  | 0x25 => some (onlySel0 sel .envRelease)
  | 0x26 => some (onlySel0 sel .envStep)
  | 0x30 => some (onlySel0 sel .nzInit)
  | 0x31 => some (onlySel0 sel .nzLcg)
  | 0x32 => some (colourCommand sel)
  | 0x33 => some (onlySel0 sel .nzSetrc)
  | 0x34 => some (onlySel0 sel .nzSetdens)
  | 0x40 => some (onlySel0 sel .vtGet)
  | 0x41 => some (onlySel0 sel .vtAppend)
  | 0x42 => some (onlySel0 sel .vtInsert)
  | 0x43 => some (onlySel0 sel .vtRemove)
  | 0x44 => some (onlySel0 sel .vtFirst)
  | 0x45 => some (onlySel0 sel .vtLast)
  | 0x46 => some (onlySel0 sel .vtNext)
  | 0x47 => some (selUpTo 2 sel (.vtFind sel))
  | 0x48 => some (onlySel0 sel .vtClear)
  | 0x49 => some (selUpTo 2 sel (.vtRdf sel))
  | 0x4A => some (selUpTo 2 sel (.vtWrf sel))
  | 0x50 => some (onlySel0 sel .eqRewind)
  | 0x51 => some (onlySel0 sel .eqPush)
  | 0x52 => some (onlySel0 sel .eqPop)
  | 0x60 => some (onlySel0 sel .synTick)
  | _ => none

/-- Only `RDREG` and `WRREG` use `IMM` (30_encoding.md R80). -/
def usesImm : Instr → Bool
  | .rdreg _ => true
  | .wrreg _ => true
  | _ => false

/-- The decoder: the tests of 30_encoding.md R90 in the order (a), (b), (c), (d). -/
def decode (w : Word32) : Except DecodeReject Instr :=
  match commandOf (opcOf w) (selOf w) (immOf w) with
  | none => .error .opc
  | some command =>
    if rsvOf w = 0#4 then
      match command with
      | none => .error .sel
      | some i => if immOf w = 0#16 || usesImm i then .ok i else .error .imm
    else .error .rsv

/-- A word carried as bytes, least significant first (20_memory.md R62). -/
def wordOfBytes (b0 b1 b2 b3 : Byte) : Word32 :=
  (b3 ++ (b2 ++ (b1 ++ b0))).cast rfl

/-- The decoder on carried bytes: a command and the bytes after it. -/
def decodeBytes : List Byte → Except DecodeReject (Instr × List Byte)
  | b0 :: b1 :: b2 :: b3 :: rest =>
    match decode (wordOfBytes b0 b1 b2 b3) with
    | .ok i => .ok (i, rest)
    | .error e => .error e
  | _ => .error .short

/-- `OPC` of a command (30_encoding.md R86). -/
def Instr.opc : Instr → BitVec 8
  | .nop => 0x00#8
  | .reset => 0x01#8
  | .rdreg _ => 0x02#8
  | .wrreg _ => 0x03#8
  | .oscSync => 0x10#8
  | .oscSetfreq => 0x11#8
  | .oscSetinc => 0x12#8
  | .oscSetpw => 0x13#8
  | .oscSetwave _ => 0x14#8
  | .oscInc => 0x15#8
  | .oscRun => 0x16#8
  | .oscSine | .oscTri | .oscSquare | .oscSaw | .oscRamp | .oscRect | .oscTrap => 0x17#8
  | .oscTrappw | .oscTripulse | .oscHwrsine | .oscFwrsine | .oscCircle | .oscHammond | .oscStair => 0x17#8
  | .envSetatk => 0x20#8
  | .envSetdec => 0x21#8
  | .envSetrel => 0x22#8
  | .envSetsus => 0x23#8
  | .envAttack => 0x24#8
  | .envRelease => 0x25#8
  | .envStep => 0x26#8
  | .nzInit => 0x30#8
  | .nzLcg => 0x31#8
  | .nzWhite | .nzPink | .nzBrown | .nzBlue | .nzViolet | .nzGrey | .nzBlack => 0x32#8
  | .nzSetrc => 0x33#8
  | .nzSetdens => 0x34#8
  | .vtGet => 0x40#8
  | .vtAppend => 0x41#8
  | .vtInsert => 0x42#8
  | .vtRemove => 0x43#8
  | .vtFirst => 0x44#8
  | .vtLast => 0x45#8
  | .vtNext => 0x46#8
  | .vtFind _ => 0x47#8
  | .vtClear => 0x48#8
  | .vtRdf _ => 0x49#8
  | .vtWrf _ => 0x4A#8
  | .eqRewind => 0x50#8
  | .eqPush => 0x51#8
  | .eqPop => 0x52#8
  | .synTick => 0x60#8

/-- `SEL` of a command (30_encoding.md R86 to R89). -/
def Instr.sel : Instr → BitVec 4
  | .oscSetwave sel => sel
  | .vtFind sel => sel
  | .vtRdf sel => sel
  | .vtWrf sel => sel
  | .oscTri => 1#4
  | .oscSquare => 2#4
  | .oscSaw => 3#4
  | .oscRamp => 4#4
  | .oscRect => 5#4
  | .oscTrap => 6#4
  | .oscTrappw => 7#4
  | .oscTripulse => 8#4
  | .oscHwrsine => 9#4
  | .oscFwrsine => 10#4
  | .oscCircle => 11#4
  | .oscHammond => 12#4
  | .oscStair => 13#4
  | .nzWhite => 1#4
  | .nzPink => 2#4
  | .nzBrown => 3#4
  | .nzBlue => 4#4
  | .nzViolet => 5#4
  | .nzGrey => 6#4
  | .nzBlack => 7#4
  | _ => 0#4

/-- `IMM` of a command (30_encoding.md R80). -/
def Instr.imm : Instr → BitVec 16
  | .rdreg imm => imm
  | .wrreg imm => imm
  | _ => 0#16

/-- The command word of a command (30_encoding.md R80). -/
def encode (i : Instr) : Word32 := packWord i.opc 0#4 i.sel i.imm

/-- The four bytes of a word, least significant first (20_memory.md R62). -/
def bytesOfWord (w : Word32) : List Byte :=
  [w.extractLsb' 0 8, w.extractLsb' 8 8, w.extractLsb' 16 8, w.extractLsb' 24 8]

/-- The eight bytes of a register value, least significant first (20_memory.md R62). -/
def bytesOfRegister (v : Word64) : List Byte :=
  bytesOfWord (v.extractLsb' 0 32) ++ bytesOfWord (v.extractLsb' 32 32)

/-- A register value carried as bytes, least significant first, and the bytes after it (20_memory.md R62). -/
def registerOfBytes : List Byte → Option (Word64 × List Byte)
  | b0 :: b1 :: b2 :: b3 :: b4 :: b5 :: b6 :: b7 :: rest =>
    some ((wordOfBytes b4 b5 b6 b7 ++ wordOfBytes b0 b1 b2 b3).cast rfl, rest)
  | _ => none

/-- The command that the decoder reads from a table word of `nbits` bits whose number is `w`: the word is
laid out in the byte order of 20_memory.md R62 and given to the decoder. -/
def decodeTableWord (nbits w : Nat) : Option Instr :=
  match decodeBytes (bytesOfWord (BitVec.ofNat 32 (w % 2 ^ nbits))) with
  | .ok (i, _) => some i
  | .error _ => none

end Sys2Proof
end

