-- ==== Sys2Proof/Machine/Float.lean ====
section
/-! DEFINITION. IEEE 754 binary64 arithmetic on patterns (00_scope.md R10, D2): round to nearest, ties to
even, one rounding per operation, quiet comparisons. Every finite value is a whole number of UNITS of
2^-1074, so a sum is one integer sum and every result is one rounding of a ratio of whole numbers.
A NaN that an operation makes is `nanMade`, a placeholder that no register ever shows: what is written is
the free NaN of `pin` in Ops.lean (93_implementation_defined.md U18). -/

namespace Sys2Proof.Machine

/-- The sign bit. -/
def signBit (x : F64) : Bool := x.msb

/-- The pattern without its sign bit, as a number. Larger magnitudes have larger numbers. -/
def magBits (x : F64) : Nat := x.toNat % 2 ^ 63

/-- The magnitude of an infinity: exponent all ones, fraction 0. -/
def infMag : Nat := 0x7FF0000000000000

/-- The value is NaN. -/
def isNaN (x : F64) : Bool := decide (infMag < magBits x)

/-- The value is an infinity of either sign. -/
def isInf (x : F64) : Bool := decide (magBits x = infMag)

/-- The value is a zero of either sign. -/
def isZero (x : F64) : Bool := decide (magBits x = 0)

/-- The value is neither NaN nor an infinity. -/
def isFinite (x : F64) : Bool := decide (magBits x < infMag)

/-- The pattern of a sign and a magnitude. -/
def packF (sign : Bool) (mag : Nat) : F64 := BitVec.ofNat 64 (if sign then 2 ^ 63 + mag else mag)

/-- The magnitude of a finite value in units of 2^-1074: the fraction of a subnormal, or the significand
with its hidden bit, scaled by the exponent. -/
def units (x : F64) : Nat :=
  if magBits x / 2 ^ 52 = 0 then magBits x % 2 ^ 52
  else (2 ^ 52 + magBits x % 2 ^ 52) * 2 ^ (magBits x / 2 ^ 52 - 1)

/-- A finite value in units of 2^-1074. -/
def signedUnits (x : F64) : Int := if signBit x then -(units x : Int) else (units x : Int)

/-- How many units make 1.0. -/
def oneUnits : Nat := 2 ^ 1074

/-- The placeholder for a NaN that an operation makes. -/
def nanMade : F64 := 0x7FF8000000000000#64

/-- The whole number nearest to `n / d`, ties to even. -/
def roundHalfEven (n d : Nat) : Nat :=
  if 2 * (n % d) < d then n / d
  else if d < 2 * (n % d) then n / d + 1
  else n / d + n / d % 2

/-- The magnitude of the binary64 value nearest to `n / d` units, ties to even, an infinity past the
greatest finite value (00_scope.md R10). The significand has 53 bits: `2 ^ (log2 (n / d) - 52)` units are
its step. -/
def roundUnits (n d : Nat) : Nat :=
  min ((Nat.log2 (n / d) - 52) * 2 ^ 52 + roundHalfEven n (d * 2 ^ (Nat.log2 (n / d) - 52))) infMag

/-- Change of sign. -/
def fneg (x : F64) : F64 := x ^^^ 0x8000000000000000#64

/-- `abs(x)` clears the sign bit (00_scope.md R10). -/
def fabs (x : F64) : F64 := x &&& 0x7FFFFFFFFFFFFFFF#64

/-- `x + y`. An exact zero sum is +0 unless both operands are negative. -/
def fadd (x y : F64) : F64 :=
  if isNaN x || isNaN y then nanMade
  else if isInf x then (if isInf y && signBit x != signBit y then nanMade else x)
  else if isInf y then y
  else
    let sum := signedUnits x + signedUnits y
    packF (if sum = 0 then signBit x && signBit y else decide (sum < 0)) (roundUnits sum.natAbs 1)

/-- `x - y`. -/
def fsub (x y : F64) : F64 := fadd x (fneg y)

/-- `x * y`. -/
def fmul (x y : F64) : F64 :=
  let sign := signBit x != signBit y
  if isNaN x || isNaN y then nanMade
  else if isInf x then (if isZero y then nanMade else packF sign infMag)
  else if isInf y then (if isZero x then nanMade else packF sign infMag)
  else packF sign (roundUnits (units x * units y) oneUnits)

/-- `x / y`. -/
def fdiv (x y : F64) : F64 :=
  let sign := signBit x != signBit y
  if isNaN x || isNaN y then nanMade
  else if isInf x then (if isInf y then nanMade else packF sign infMag)
  else if isInf y then packF sign 0
  else if isZero y then (if isZero x then nanMade else packF sign infMag)
  else packF sign (roundUnits (units x * oneUnits) (units y))

/-- The greatest `a + r` with `r < 2 ^ bits` whose square is at most `n`, decided bit by bit. -/
def rootBits : Nat → Nat → Nat → Nat
  | 0, _, a => a
  | bits + 1, n, a =>
    if (a + 2 ^ bits) * (a + 2 ^ bits) ≤ n then rootBits bits n (a + 2 ^ bits) else rootBits bits n a

/-- The magnitude of the binary64 value nearest to the square root of `n`, both in units, `n` being the
operand's units times `oneUnits`: 53 bits of the root, then up if the rest is past the half way. -/
def roundRoot (n : Nat) : Nat :=
  let scale := Nat.log2 n / 2 - 52
  let root := rootBits 53 (n / 4 ^ scale) 0
  scale * 2 ^ 52 + (if (2 * root + 1) * (2 * root + 1) * 4 ^ scale < 4 * n then root + 1 else root)

/-- `sqrt(x)`, correctly rounded (00_scope.md R10). -/
def fsqrt (x : F64) : F64 :=
  if isNaN x then nanMade
  else if isZero x then x
  else if signBit x then nanMade
  else if isInf x then x
  else packF false (roundRoot (units x * oneUnits))

/-- `floor(x)`, exact (00_scope.md R10). Zeros and infinities are their own floor. -/
def ffloor (x : F64) : F64 :=
  if isNaN x then nanMade
  else if isInf x || isZero x then x
  else if signBit x then packF true (roundUnits ((units x + (oneUnits - 1)) / oneUnits * oneUnits) 1)
  else packF false (roundUnits (units x / oneUnits * oneUnits) 1)

/-- The place of a value that is not NaN in the order of the values. The two zeros have one place. -/
def orderOf (x : F64) : Int := if signBit x then -(magBits x : Int) else (magBits x : Int)

/-- `x < y`, false when either is NaN. -/
def flt (x y : F64) : Bool := !isNaN x && !isNaN y && decide (orderOf x < orderOf y)

/-- `x <= y`, false when either is NaN. -/
def fle (x y : F64) : Bool := !isNaN x && !isNaN y && decide (orderOf x ≤ orderOf y)

/-- `x > y`, false when either is NaN. -/
def fgt (x y : F64) : Bool := flt y x

/-- `x >= y`, false when either is NaN. -/
def fge (x y : F64) : Bool := fle y x

/-- `x == y`, false when either is NaN; +0 equals -0. -/
def feq (x y : F64) : Bool := !isNaN x && !isNaN y && decide (orderOf x = orderOf y)

/-- `f64(n)`: the nearest binary64 value, ties to even (00_scope.md R10). -/
def fofInt (n : Int) : F64 := packF (decide (n < 0)) (roundUnits (n.natAbs * oneUnits) 1)

end Sys2Proof.Machine
end

