-- ==== Sys2Proof/Machine/Constants.lean ====
section
/-! DEFINITION. The binary64 literals of the rules. A decimal literal is the binary64 value nearest to it
(log 12); Tests/Slice0.lean checks each pattern against its decimal. -/

namespace Sys2Proof.Machine

def fZero : F64 := 0x0000000000000000#64
def fOne : F64 := 0x3FF0000000000000#64
def fMinusOne : F64 := 0xBFF0000000000000#64
def fTwo : F64 := 0x4000000000000000#64
def fMinusTwo : F64 := 0xC000000000000000#64
def fThree : F64 := 0x4008000000000000#64
def fFour : F64 := 0x4010000000000000#64
def fEight : F64 := 0x4020000000000000#64
def fMinusEight : F64 := 0xC020000000000000#64
def fHalf : F64 := 0x3FE0000000000000#64
def fQuarter : F64 := 0x3FD0000000000000#64
def fThreeQuarters : F64 := 0x3FE8000000000000#64
def fEighth : F64 := 0x3FC0000000000000#64
def fThreeEighths : F64 := 0x3FD8000000000000#64
def fFiveEighths : F64 := 0x3FE4000000000000#64
def fSevenEighths : F64 := 0x3FEC000000000000#64
/-- 0.2 (41_oscillator.md R123, 42_envelope.md R180). -/
def fFifth : F64 := 0x3FC999999999999A#64
/-- `PW_EPS` = 0.001 (00_scope.md R8, 41_oscillator.md R127). -/
def pwEps : F64 := 0x3F50624DD2F1A9FC#64
/-- `TWO_PI` = 6.283185307179586 (41_oscillator.md section 3). -/
def twoPi : F64 := 0x401921FB54442D18#64
/-- `PI` = 3.141592653589793 (41_oscillator.md section 3). -/
def piF : F64 := 0x400921FB54442D18#64
/-- `SR` after reset, 44100.0 (10_state.md R26). -/
def srReset : F64 := 0x40E5888000000000#64
/-- The default brown time constant, 0.0082 s (43_noise.md R206). -/
def rcDefault : F64 := 0x3F80CB295E9E1B09#64
/-- `EPS_A` = 0.006737946999085467 (42_envelope.md R187). -/
def epsA : F64 := 0x3F7B993FE00D5376#64
/-- `EPS_R` = 1.0e-6 (42_envelope.md R187). -/
def epsR : F64 := 0x3EB0C6F7A0B5ED8D#64
/-- `KP_L0` = 0.99765 (43_noise.md R205). -/
def kpL0 : F64 := 0x3FEFECBFB15B573F#64
/-- `KP_G0` = 0.0990460. -/
def kpG0 : F64 := 0x3FB95B1422CCB3A2#64
/-- `KP_L1` = 0.96300. -/
def kpL1 : F64 := 0x3FEED0E560418937#64
/-- `KP_G1` = 0.2965164. -/
def kpG1 : F64 := 0x3FD2FA1FEC2E91E4#64
/-- `KP_L2` = 0.57000. -/
def kpL2 : F64 := 0x3FE23D70A3D70A3D#64
/-- `KP_G2` = 1.0526913. -/
def kpG2 : F64 := 0x3FF0D7D2D5248A23#64
/-- `KP_GW` = 0.1848. -/
def kpGW : F64 := 0x3FC7A786C226809D#64
/-- 2147483645.0, the divisor of the white mapping (43_noise.md R204). -/
def whiteSpan : F64 := 0x41DFFFFFFF400000#64
/-- 440.0 (46_voice_loop.md R284). -/
def f440 : F64 := 0x407B800000000000#64
/-- 12.0 (46_voice_loop.md R284). -/
def f12 : F64 := 0x4028000000000000#64
/-- 127.0 (46_voice_loop.md R283). -/
def f127 : F64 := 0x405FC00000000000#64

end Sys2Proof.Machine
end

