-- ==== Sys2Proof/Machine/State.lean ====
section
/-! DEFINITION. The state of FWCORE as plain data (10_state.md R20 to R36), grouped by unit, and reset
(70_reset_and_hazards.md R330). Two fields are the model's own: `input` and `free` (log 1 and 3). -/

namespace Sys2Proof.Machine

/-- `RTAG` (10_state.md R24). -/
inductive Tag where
  | none | value | notfound | fault
  deriving DecidableEq, Repr

/-- The envelope segments (10_state.md R30). -/
inductive EnvState where
  | idle | attack | decay | sustain | release
  deriving DecidableEq, Repr

/-- `SYN_MODE` (10_state.md R36). -/
inductive VoiceMode where
  | poly | monoNewest | monoOldest
  deriving DecidableEq, Repr

/-- The numbered registers (10_state.md R26 to R36). -/
inductive Reg where
  | status | fcause | fcmd | sr
  | oscT | oscDt | oscA | oscPw | oscWave
  | envState | envEnv | envScale | envA | envD | envR | envS
  | nzSeed | nzB0 | nzB1 | nzB2 | nzLp | nzRc | nzBluePrev | nzVioletPrev
  | nzLsZ1 | nzLsZ2 | nzPkZ1 | nzPkZ2 | nzDensity
  | vtCount | vtCapacity
  | eqHead | eqTail | eqCounter | eqCapacity
  | synMode | synVol | synNoise | synPitch | synOutL | synOutR
  deriving DecidableEq, Repr

/-- The access classes of 10_state.md R25. -/
inductive Access where
  | rw | rwl | ro | w1c
  deriving DecidableEq, Repr

/-- The fault causes (60_exceptions.md R300). -/
inductive Cause where
  | illegalCmd | vtFull | vtIndex | regAccess | badValue
  deriving DecidableEq, Repr

/-- One voice row (10_state.md R33). -/
structure VoiceRow where
  note : Word64
  phase : F64
  dt : F64
  deriving DecidableEq, Repr

/-- One queue entry (10_state.md R35): the sample offset, the status byte, and `data1 | data2 << 8`. -/
structure Event where
  offset : Word64
  status : BitVec 8
  packed : BitVec 16
  deriving DecidableEq, Repr

/-- The host's moves (00_scope.md R7, 30_encoding.md R92): write an operand register, copy a result register
to an operand register, issue a command word. -/
inductive HostMove where
  | li (n : Fin 4) (v : Word64)
  | mov (n m : Fin 4)
  | issue (w : Word32)
  deriving DecidableEq, Repr

/-- The host interface registers (10_state.md R22 to R24). -/
structure HostRegs where
  arg0 : Word64
  arg1 : Word64
  arg2 : Word64
  arg3 : Word64
  res0 : Word64
  res1 : Word64
  res2 : Word64
  res3 : Word64
  rtag : Tag
  deriving DecidableEq, Repr

/-- The system registers (10_state.md R26, R27). `STATUS` bits 63:5 are never set and read as 0, so the
register holds bits 4:0. -/
structure Sys where
  status : BitVec 5
  fcause : Word64
  fcmd : Word64
  sr : F64
  deriving DecidableEq, Repr

/-- The oscillator registers (10_state.md R28). -/
structure Osc where
  t : F64
  dt : F64
  a : F64
  pw : F64
  wave : Wave
  deriving DecidableEq, Repr

/-- The envelope registers (10_state.md R29). -/
structure Env where
  state : EnvState
  env : F64
  scale : F64
  a : F64
  d : F64
  r : F64
  s : F64
  deriving DecidableEq, Repr

/-- The noise registers (10_state.md R31). -/
structure Noise where
  seed : Word64
  b0 : F64
  b1 : F64
  b2 : F64
  lp : F64
  rc : F64
  bluePrev : F64
  violetPrev : F64
  lsZ1 : F64
  lsZ2 : F64
  pkZ1 : F64
  pkZ2 : F64
  density : F64
  deriving DecidableEq, Repr

/-- The voice table (10_state.md R32, R33). Rows 0 to `count` - 1 are live. `rows` is the row storage as far
as it has been written; a row past its end holds an unspecified value (log 8). -/
structure Table where
  count : Nat
  capacity : Nat
  rows : List VoiceRow
  deriving DecidableEq, Repr

/-- The event queue (10_state.md R34, R35). `ev` is the entry storage as far as it has been written; entries
`head` to `tail` - 1 are pending. -/
structure Queue where
  head : Nat
  tail : Nat
  counter : Nat
  capacity : Nat
  ev : List Event
  deriving DecidableEq, Repr

/-- The synthesiser registers (10_state.md R36); `noise` is `none` for code 0, off. -/
structure Syn where
  mode : VoiceMode
  vol : F64
  noise : Option Colour
  pitch : F64
  outL : F64
  outR : F64
  deriving DecidableEq, Repr

/-- The state of FWCORE, the host's moves still to come, and the counter that keys the free values. -/
structure State where
  host : HostRegs
  sys : Sys
  osc : Osc
  env : Env
  noise : Noise
  table : Table
  queue : Queue
  syn : Syn
  input : List HostMove
  free : Nat
  deriving DecidableEq, Repr

/-- Why a step stops with a fault. It never does: a fault of FWCORE "does not stop the block"
(60_exceptions.md R302) and is a next state, so there is no constructor. -/
inductive Fault where
  deriving DecidableEq, Repr

/-- Why a step is refused. Every command of the table has a meaning, so nothing raises this. -/
inductive Refusal where
  /-- Raised by an arm of `exec` whose command has no meaning yet: safe, since the run ends there. No arm
  raises it. -/
  | notModelled (mnemonic : String)
  deriving DecidableEq, Repr

/-- The host registers after reset (70_reset_and_hazards.md R330). -/
def HostRegs.reset : HostRegs :=
  { arg0 := 0#64, arg1 := 0#64, arg2 := 0#64, arg3 := 0#64
    res0 := 0#64, res1 := 0#64, res2 := 0#64, res3 := 0#64, rtag := .none }

/-- The system registers after reset. -/
def Sys.reset : Sys := { status := 0#5, fcause := 0#64, fcmd := 0#64, sr := srReset }

/-- The oscillator registers after reset. -/
def Osc.reset : Osc := { t := fZero, dt := fZero, a := fOne, pw := fHalf, wave := .saw }

/-- The envelope registers after reset. -/
def Env.reset : Env :=
  { state := .idle, env := fZero, scale := fZero, a := fOne, d := fOne, r := fOne, s := fOne }

/-- The noise registers after reset. -/
def Noise.reset : Noise :=
  { seed := 1#64, b0 := fZero, b1 := fZero, b2 := fZero, lp := fZero, rc := rcDefault
    bluePrev := fZero, violetPrev := fZero, lsZ1 := fZero, lsZ2 := fZero
    pkZ1 := fZero, pkZ2 := fZero, density := fHalf }

/-- The voice table of a capacity after reset: no live row, and nothing known of the storage. -/
def Table.reset (capacity : Nat) : Table := { count := 0, capacity := capacity, rows := [] }

/-- The event queue of a capacity after reset. -/
def Queue.reset (capacity : Nat) : Queue :=
  { head := 0, tail := 0, counter := 0, capacity := capacity, ev := [] }

/-- The synthesiser registers after reset. -/
def Syn.reset : Syn :=
  { mode := .poly, vol := fOne, noise := none, pitch := fOne, outL := fZero, outR := fZero }

/-- Power-on (70_reset_and_hazards.md R330, 60_exceptions.md R313): `VT_CAPACITY` and `EQ_CAPACITY` hold the
parameters. The host has made no move yet (log 1), and no free value is used up (log 3). -/
def State.reset : State :=
  { host := HostRegs.reset, sys := Sys.reset, osc := Osc.reset, env := Env.reset
    noise := Noise.reset, table := Table.reset Config.vtCap, queue := Queue.reset Config.eqCap
    syn := Syn.reset, input := [], free := 0 }

end Sys2Proof.Machine
end

