-- ==== Sys2Proof/Machine/Flags.lean ====
section
/-! DEFINITION. The flags of FWCORE: the result tag (10_state.md R24) and the sticky `STATUS` bits with the
fault record (10_state.md R27, 60_exceptions.md R300 to R303). -/

namespace Sys2Proof.Machine

/-- The two bits of `RTAG` (10_state.md R24). -/
def tagCode : Tag → BitVec 2
  | .none => 0#2
  | .value => 1#2
  | .notfound => 2#2
  | .fault => 3#2

/-- The cause codes (60_exceptions.md R300). -/
def causeCode : Cause → Nat
  | .illegalCmd => 1
  | .vtFull => 2
  | .vtIndex => 3
  | .regAccess => 4
  | .badValue => 5

/-- `1 << (code - 1)` (60_exceptions.md R302). -/
def statusBit (k : Cause) : BitVec 5 := 1#5 <<< (causeCode k - 1)

/-- What a fault leaves in the system registers: the first fault since `STATUS` was 0 is recorded, the
command word in the low 32 bits of `FCMD`, and the cause's bit is set (60_exceptions.md R302, R303). -/
def recordFault (k : Cause) (w : Word32) (s : Sys) : Sys :=
  { s with
    status := s.status ||| statusBit k
    fcause := if s.status = 0#5 then BitVec.ofNat 64 (causeCode k) else s.fcause
    fcmd := if s.status = 0#5 then w.zeroExtend 64 else s.fcmd }

/-- `STATUS` as the 64-bit register a read returns: bits 63:5 are 0 (10_state.md R27). -/
def statusWord (s : Sys) : Word64 := s.status.zeroExtend 64

/-- A W1C write clears each bit that is 1 in the written value (10_state.md R25, 40_control.md R103). -/
def clearStatus (v : Word64) (s : Sys) : Sys := { s with status := s.status &&& ~~~(v.truncate 5) }

end Sys2Proof.Machine
end

