-- ==== Sys2Proof/Machine/Operands.lean ====
section
/-! DEFINITION. How operands are read: the operand registers, the selectors and codes of 30_encoding.md
R87 to R89, and the register numbers of 10_state.md R26 to R36. An operand register is read as `f64` by
its pattern and as `i64` by `BitVec.toInt` (30_encoding.md R83). -/

namespace Sys2Proof.Machine

/-- Result register `RESn` (10_state.md R23). -/
def resOf (h : HostRegs) (n : Fin 4) : Word64 :=
  match n with
  | 0 => h.res0
  | 1 => h.res1
  | 2 => h.res2
  | 3 => h.res3

/-- Operand register `ARGn` (10_state.md R22). -/
def argOf (h : HostRegs) (n : Fin 4) : Word64 :=
  match n with
  | 0 => h.arg0
  | 1 => h.arg1
  | 2 => h.arg2
  | 3 => h.arg3

/-- The host writes operand register `ARGn` (00_scope.md R7). -/
def setArg (n : Fin 4) (v : Word64) (h : HostRegs) : HostRegs :=
  match n with
  | 0 => { h with arg0 := v }
  | 1 => { h with arg1 := v }
  | 2 => { h with arg2 := v }
  | 3 => { h with arg3 := v }

/-- Waveform codes (30_encoding.md R87). -/
def waveCode : Wave → Nat
  | .sine => 0
  | .tri => 1
  | .square => 2
  | .saw => 3
  | .ramp => 4
  | .rect => 5
  | .trap => 6
  | .trappw => 7
  | .tripulse => 8
  | .hwrsine => 9
  | .fwrsine => 10
  | .circle => 11
  | .hammond => 12
  | .stair => 13

/-- The waveform of a code; 14 and above are none. -/
def waveOfCode (n : Nat) : Option Wave :=
  match n with
  | 0 => some .sine
  | 1 => some .tri
  | 2 => some .square
  | 3 => some .saw
  | 4 => some .ramp
  | 5 => some .rect
  | 6 => some .trap
  | 7 => some .trappw
  | 8 => some .tripulse
  | 9 => some .hwrsine
  | 10 => some .fwrsine
  | 11 => some .circle
  | 12 => some .hammond
  | 13 => some .stair
  | _ => none

/-- Codes of `SYN_NOISE` (30_encoding.md R88); 0 is off. -/
def noiseCode : Option Colour → Nat
  | none => 0
  | some .white => 1
  | some .pink => 2
  | some .brown => 3
  | some .blue => 4
  | some .violet => 5
  | some .grey => 6
  | some .black => 7

/-- The `SYN_NOISE` setting of a code; 8 and above are none. -/
def noiseOfCode (n : Nat) : Option (Option Colour) :=
  match n with
  | 0 => some none
  | 1 => some (some .white)
  | 2 => some (some .pink)
  | 3 => some (some .brown)
  | 4 => some (some .blue)
  | 5 => some (some .violet)
  | 6 => some (some .grey)
  | 7 => some (some .black)
  | _ => none

/-- Column codes (30_encoding.md R89). -/
def columnCode : Column → Nat
  | .note => 0
  | .phase => 1
  | .dt => 2

/-- The column of a code; 3 and above are none. -/
def columnOfCode (n : Nat) : Option Column :=
  match n with
  | 0 => some .note
  | 1 => some .phase
  | 2 => some .dt
  | _ => none

/-- Codes of `ENV_STATE` (10_state.md R30). -/
def envStateCode : EnvState → Nat
  | .idle => 0
  | .attack => 1
  | .decay => 2
  | .sustain => 4
  | .release => 8

/-- The segment of a code; 3, 5, 6, 7 and 9 and above are not states (10_state.md R30). -/
def envStateOfCode (n : Nat) : Option EnvState :=
  match n with
  | 0 => some .idle
  | 1 => some .attack
  | 2 => some .decay
  | 4 => some .sustain
  | 8 => some .release
  | _ => none

/-- Codes of `SYN_MODE` (10_state.md R36). -/
def modeCode : VoiceMode → Nat
  | .poly => 0
  | .monoNewest => 1
  | .monoOldest => 2

/-- The voice mode of a code; 3 and above are none. -/
def modeOfCode (n : Nat) : Option VoiceMode :=
  match n with
  | 0 => some .poly
  | 1 => some .monoNewest
  | 2 => some .monoOldest
  | _ => none

/-- The register numbers (10_state.md R26 to R36). -/
def regNumber : Reg → Nat
  | .status => 0x0000
  | .fcause => 0x0001
  | .fcmd => 0x0002
  | .sr => 0x0003
  | .oscT => 0x0010
  | .oscDt => 0x0011
  | .oscA => 0x0012
  | .oscPw => 0x0013
  | .oscWave => 0x0014
  | .envState => 0x0020
  | .envEnv => 0x0021
  | .envScale => 0x0022
  | .envA => 0x0023
  | .envD => 0x0024
  | .envR => 0x0025
  | .envS => 0x0026
  | .nzSeed => 0x0030
  | .nzB0 => 0x0031
  | .nzB1 => 0x0032
  | .nzB2 => 0x0033
  | .nzLp => 0x0034
  | .nzRc => 0x0035
  | .nzBluePrev => 0x0036
  | .nzVioletPrev => 0x0037
  | .nzLsZ1 => 0x0038
  | .nzLsZ2 => 0x0039
  | .nzPkZ1 => 0x003A
  | .nzPkZ2 => 0x003B
  | .nzDensity => 0x003C
  | .vtCount => 0x0040
  | .vtCapacity => 0x0041
  | .eqHead => 0x0050
  | .eqTail => 0x0051
  | .eqCounter => 0x0052
  | .eqCapacity => 0x0053
  | .synMode => 0x0060
  | .synVol => 0x0061
  | .synNoise => 0x0062
  | .synPitch => 0x0063
  | .synOutL => 0x0064
  | .synOutR => 0x0065

/-- The register of a number; a number not listed is unassigned (10_state.md R25). -/
def regOfNumber (n : Nat) : Option Reg :=
  match n with
  | 0x0000 => some .status
  | 0x0001 => some .fcause
  | 0x0002 => some .fcmd
  | 0x0003 => some .sr
  | 0x0010 => some .oscT
  | 0x0011 => some .oscDt
  | 0x0012 => some .oscA
  | 0x0013 => some .oscPw
  | 0x0014 => some .oscWave
  | 0x0020 => some .envState
  | 0x0021 => some .envEnv
  | 0x0022 => some .envScale
  | 0x0023 => some .envA
  | 0x0024 => some .envD
  | 0x0025 => some .envR
  | 0x0026 => some .envS
  | 0x0030 => some .nzSeed
  | 0x0031 => some .nzB0
  | 0x0032 => some .nzB1
  | 0x0033 => some .nzB2
  | 0x0034 => some .nzLp
  | 0x0035 => some .nzRc
  | 0x0036 => some .nzBluePrev
  | 0x0037 => some .nzVioletPrev
  | 0x0038 => some .nzLsZ1
  | 0x0039 => some .nzLsZ2
  | 0x003A => some .nzPkZ1
  | 0x003B => some .nzPkZ2
  | 0x003C => some .nzDensity
  | 0x0040 => some .vtCount
  | 0x0041 => some .vtCapacity
  | 0x0050 => some .eqHead
  | 0x0051 => some .eqTail
  | 0x0052 => some .eqCounter
  | 0x0053 => some .eqCapacity
  | 0x0060 => some .synMode
  | 0x0061 => some .synVol
  | 0x0062 => some .synNoise
  | 0x0063 => some .synPitch
  | 0x0064 => some .synOutL
  | 0x0065 => some .synOutR
  | _ => none

/-- The access classes (10_state.md R26 to R36). -/
def accessOf : Reg → Access
  | .status => .w1c
  | .fcause | .fcmd | .sr => .rw
  | .oscT | .oscDt | .oscA | .oscPw => .rw
  | .oscWave => .rwl
  | .envState => .rwl
  | .envEnv | .envScale | .envA | .envD | .envR | .envS => .rw
  | .nzSeed => .rwl
  | .nzB0 | .nzB1 | .nzB2 | .nzLp | .nzRc | .nzBluePrev | .nzVioletPrev => .rw
  | .nzLsZ1 | .nzLsZ2 | .nzPkZ1 | .nzPkZ2 | .nzDensity => .rw
  | .vtCount | .vtCapacity => .ro
  | .eqHead | .eqTail | .eqCounter | .eqCapacity => .ro
  | .synMode => .rwl
  | .synVol => .rw
  | .synNoise => .rwl
  | .synPitch => .rw
  | .synOutL | .synOutR => .ro

/-- The legal set of an `RWL` register (10_state.md R28 to R36); any value elsewhere. A negative i64 has a
pattern past every code. -/
def legalFor (r : Reg) (v : Word64) : Bool :=
  match r with
  | .oscWave => (waveOfCode v.toNat).isSome
  | .envState => (envStateOfCode v.toNat).isSome
  | .nzSeed => decide (1 ≤ v.toNat) && decide (v.toNat ≤ 2147483646)
  | .synMode => (modeOfCode v.toNat).isSome
  | .synNoise => (noiseOfCode v.toNat).isSome
  | _ => true

end Sys2Proof.Machine
end

