-- ==== Sys2Proof/Machine/Ops.lean ====
section
/-! DEFINITION. The operations the meanings share: returning a result, raising a fault, the free values,
the numbered registers, the voice rows and the queue entries. FWCORE has no return from a fault
(60_exceptions.md R305): the host acknowledges it by a `WRREG STATUS`, which is `clearStatus`. -/

namespace Sys2Proof.Machine

/-- `rtag <- NONE`. -/
def retNone (s : State) : State := { s with host := { s.host with rtag := .none } }

/-- `res[0] <- v ; rtag <- VALUE`. -/
def retValue (v : Word64) (s : State) : State :=
  { s with host := { s.host with res0 := v, rtag := .value } }

/-- `res[0] <- -1 ; rtag <- NOTFOUND` (30_encoding.md R84). -/
def retNotFound (s : State) : State :=
  { s with host := { s.host with res0 := BitVec.ofInt 64 (-1), rtag := .notfound } }

/-- `raise Fault(k)` for the command word `w`: the fault is recorded, `RTAG` is FAULT, and nothing else
changes (60_exceptions.md R302). Control does not move (R305). -/
def raiseFault (k : Cause) (w : Word32) (s : State) : State :=
  { s with sys := recordFault k w s.sys, host := { s.host with rtag := .fault } }

/-- The NaN of an arbitrary pattern: the pattern itself when it is a NaN, so every NaN can come out. -/
def someNaN (bits : BitVec 64) : F64 := if isNaN bits then bits else nanMade

/-- The value that arithmetic leaves at a place in command number `q`: the value itself, or a NaN of free
sign and payload (93_implementation_defined.md U18). -/
def pin (q : Nat) (site : Site) (x : F64) : F64 :=
  if isNaN x then someNaN (Config.freeBits q site) else x

/-- `NUM.sin` on a computed operand. Which NaN a NaN operand is, is free (log 5). -/
def numSin (q : Nat) (site : Site) (x : F64) : F64 := Config.sin (pin q site x)

/-! ### Numbered registers -/

/-- The 64-bit value of a register (40_control.md R102). -/
def readReg (r : Reg) (s : State) : Word64 :=
  match r with
  | .status => statusWord s.sys
  | .fcause => s.sys.fcause
  | .fcmd => s.sys.fcmd
  | .sr => s.sys.sr
  | .oscT => s.osc.t
  | .oscDt => s.osc.dt
  | .oscA => s.osc.a
  | .oscPw => s.osc.pw
  | .oscWave => BitVec.ofNat 64 (waveCode s.osc.wave)
  | .envState => BitVec.ofNat 64 (envStateCode s.env.state)
  | .envEnv => s.env.env
  | .envScale => s.env.scale
  | .envA => s.env.a
  | .envD => s.env.d
  | .envR => s.env.r
  | .envS => s.env.s
  | .nzSeed => s.noise.seed
  | .nzB0 => s.noise.b0
  | .nzB1 => s.noise.b1
  | .nzB2 => s.noise.b2
  | .nzLp => s.noise.lp
  | .nzRc => s.noise.rc
  | .nzBluePrev => s.noise.bluePrev
  | .nzVioletPrev => s.noise.violetPrev
  | .nzLsZ1 => s.noise.lsZ1
  | .nzLsZ2 => s.noise.lsZ2
  | .nzPkZ1 => s.noise.pkZ1
  | .nzPkZ2 => s.noise.pkZ2
  | .nzDensity => s.noise.density
  | .vtCount => BitVec.ofNat 64 s.table.count
  | .vtCapacity => BitVec.ofNat 64 s.table.capacity
  | .eqHead => BitVec.ofNat 64 s.queue.head
  | .eqTail => BitVec.ofNat 64 s.queue.tail
  | .eqCounter => BitVec.ofNat 64 s.queue.counter
  | .eqCapacity => BitVec.ofNat 64 s.queue.capacity
  | .synMode => BitVec.ofNat 64 (modeCode s.syn.mode)
  | .synVol => s.syn.vol
  | .synNoise => BitVec.ofNat 64 (noiseCode s.syn.noise)
  | .synPitch => s.syn.pitch
  | .synOutL => s.syn.outL
  | .synOutR => s.syn.outR

/-- The write of a value the register accepts (40_control.md R103). The `RO` registers keep their value; an
`RWL` register keeps its value when the value is no code, which `legalFor` has already excluded. No write changes
another register, so `ENV_STATE` <- 0 (Idle) leaves `ENV_ENV` as it was, where 42_envelope.md R192 says 0.0 in Idle
(DEDUCED, log 23). -/
def writeReg (r : Reg) (v : Word64) (s : State) : State :=
  match r with
  | .status => { s with sys := clearStatus v s.sys }
  | .fcause => { s with sys := { s.sys with fcause := v } }
  | .fcmd => { s with sys := { s.sys with fcmd := v } }
  | .sr => { s with sys := { s.sys with sr := v } }
  | .oscT => { s with osc := { s.osc with t := v } }
  | .oscDt => { s with osc := { s.osc with dt := v } }
  | .oscA => { s with osc := { s.osc with a := v } }
  | .oscPw => { s with osc := { s.osc with pw := v } }
  | .oscWave => { s with osc := { s.osc with wave := (waveOfCode v.toNat).getD s.osc.wave } }
  | .envState => { s with env := { s.env with state := (envStateOfCode v.toNat).getD s.env.state } }
  | .envEnv => { s with env := { s.env with env := v } }
  | .envScale => { s with env := { s.env with scale := v } }
  | .envA => { s with env := { s.env with a := v } }
  | .envD => { s with env := { s.env with d := v } }
  | .envR => { s with env := { s.env with r := v } }
  | .envS => { s with env := { s.env with s := v } }
  | .nzSeed => { s with noise := { s.noise with seed := v } }
  | .nzB0 => { s with noise := { s.noise with b0 := v } }
  | .nzB1 => { s with noise := { s.noise with b1 := v } }
  | .nzB2 => { s with noise := { s.noise with b2 := v } }
  | .nzLp => { s with noise := { s.noise with lp := v } }
  | .nzRc => { s with noise := { s.noise with rc := v } }
  | .nzBluePrev => { s with noise := { s.noise with bluePrev := v } }
  | .nzVioletPrev => { s with noise := { s.noise with violetPrev := v } }
  | .nzLsZ1 => { s with noise := { s.noise with lsZ1 := v } }
  | .nzLsZ2 => { s with noise := { s.noise with lsZ2 := v } }
  | .nzPkZ1 => { s with noise := { s.noise with pkZ1 := v } }
  | .nzPkZ2 => { s with noise := { s.noise with pkZ2 := v } }
  | .nzDensity => { s with noise := { s.noise with density := v } }
  | .vtCount => s
  | .vtCapacity => s
  | .eqHead => s
  | .eqTail => s
  | .eqCounter => s
  | .eqCapacity => s
  | .synMode => { s with syn := { s.syn with mode := (modeOfCode v.toNat).getD s.syn.mode } }
  | .synVol => { s with syn := { s.syn with vol := v } }
  | .synNoise => { s with syn := { s.syn with noise := (noiseOfCode v.toNat).getD s.syn.noise } }
  | .synPitch => { s with syn := { s.syn with pitch := v } }
  | .synOutL => s
  | .synOutR => s

/-! ### Voice rows -/

/-- What a row that nothing has written holds (93_implementation_defined.md U7). -/
def powerOnRow (i : Nat) : VoiceRow :=
  { note := Config.powerOnBits (.row i 0)
    phase := Config.powerOnBits (.row i 1)
    dt := Config.powerOnBits (.row i 2) }

/-- `row[i]`. -/
def rowAt (t : Table) (i : Nat) : VoiceRow := t.rows.getD i (powerOnRow i)

/-- The storage with `row[i]` replaced, or added at its end. -/
def putRow (i : Nat) (r : VoiceRow) (rows : List VoiceRow) : List VoiceRow :=
  rows.take i ++ r :: rows.drop (i + 1)

/-- The unspecified fields of the row that command number `q` makes live at `i` (44_voice_table.md R241). -/
def freshRow (q i : Nat) : VoiceRow :=
  { note := Config.freeBits q (.row i 0)
    phase := Config.freeBits q (.row i 1)
    dt := Config.freeBits q (.row i 2) }

/-- The table with one more live row, at its end (44_voice_table.md R234). -/
def appendRow (r : VoiceRow) (t : Table) : Table :=
  { t with count := t.count + 1, rows := putRow t.count r t.rows }

/-- The table with a row opened at `i`: the live rows from `i` on move up by one (44_voice_table.md R235). -/
def insertRow (i : Nat) (r : VoiceRow) (t : Table) : Table :=
  { t with
    count := t.count + 1
    rows := t.rows.take i ++ r :: ((t.rows.drop i).take (t.count - i) ++ t.rows.drop (t.count + 1)) }

/-- The table without the live row `i`: the live rows after it move down by one. The old last slot keeps its
contents and is no longer live (44_voice_table.md R236). -/
def removeRow (i : Nat) (t : Table) : Table :=
  { t with
    count := t.count - 1
    rows := t.rows.take i ++ ((t.rows.drop (i + 1)).take (t.count - 1 - i) ++ t.rows.drop (t.count - 1)) }

/-- `check_row`: the reference names a live row (44_voice_table.md R231). -/
def isRow (i : Word64) (t : Table) : Bool := decide (0 ≤ i.toInt) && decide (i.toInt < (t.count : Int))

/-- `row[i].field(c)` as its 64 bits (44_voice_table.md R243). -/
def fieldOf (c : Column) (r : VoiceRow) : Word64 :=
  match c with
  | .note => r.note
  | .phase => r.phase
  | .dt => r.dt

/-- `row[i].field(c) <- v` (44_voice_table.md R244). -/
def setField (c : Column) (v : Word64) (r : VoiceRow) : VoiceRow :=
  match c with
  | .note => { r with note := v }
  | .phase => { r with phase := v }
  | .dt => { r with dt := v }

/-- The comparison of 44_voice_table.md R240: integers in column 0, IEEE equality in the others. -/
def fieldMatches (c : Column) (v : Word64) (r : VoiceRow) : Bool :=
  match c with
  | .note => decide (r.note.toInt = v.toInt)
  | .phase => feq r.phase v
  | .dt => feq r.dt v

/-- The linear scan of 44_voice_table.md R240 over `n` rows from `j` up. -/
def scanRows (c : Column) (v : Word64) (t : Table) : Nat → Nat → Option Nat
  | 0, _ => none
  | n + 1, j => if fieldMatches c v (rowAt t j) then some j else scanRows c v t n (j + 1)

/-- The first live row at or after `start` whose field matches. -/
def findRow (c : Column) (v : Word64) (start : Nat) (t : Table) : Option Nat :=
  scanRows c v t (t.count - start) start

/-! ### Queue entries -/

/-- What an entry that nothing has written holds; no command of a run from reset reads one
(10_state.md R35). -/
def powerOnEvent (i : Nat) : Event :=
  { offset := Config.powerOnBits (.entry i 0)
    status := (Config.powerOnBits (.entry i 1)).truncate 8
    packed := (Config.powerOnBits (.entry i 2)).truncate 16 }

/-- `ev[i]`. -/
def eventAt (q : Queue) (i : Nat) : Event := q.ev.getD i (powerOnEvent i)

/-- The greatest value of `EQ_COUNTER`, 2^63 - 1 (45_event_queue.md R261). -/
def counterMax : Nat := 2 ^ 63 - 1

/-- The head entry is pending and its offset has arrived (45_event_queue.md R263). -/
def headVisible (q : Queue) : Bool :=
  decide (q.head < q.tail) && decide ((eventAt q q.head).offset.toInt ≤ (q.counter : Int))

/-- The state update of `EQ.POP` and what it returns (45_event_queue.md R263). -/
def popEvent (q : Queue) : Option Event × Queue :=
  if headVisible q then (some (eventAt q q.head), { q with head := q.head + 1 })
  else (none, { q with counter := if q.counter < counterMax then q.counter + 1 else q.counter })

/-- The state update of `EQ.PUSH`: appended if capacity remains, else dropped (45_event_queue.md R264). -/
def pushEvent (e : Event) (q : Queue) : Queue :=
  if q.tail < q.capacity then
    { q with ev := q.ev.take q.tail ++ e :: q.ev.drop (q.tail + 1), tail := q.tail + 1 }
  else q

/-- `EQ.REWIND`: entry contents are not erased (45_event_queue.md R262). -/
def rewindQueue (q : Queue) : Queue := { q with head := 0, tail := 0, counter := 0 }

/-- The entry of four operands, each byte masked to 8 bits (45_event_queue.md R264). -/
def eventOf (offset status data1 data2 : Word64) : Event :=
  { offset := offset
    status := status.truncate 8
    packed := ((data1 &&& 0xFF#64) ||| ((data2 &&& 0xFF#64) <<< 8)).truncate 16 }

/-- `data1`, bits 7:0 of `packed` (45_event_queue.md R260). -/
def data1Of (e : Event) : BitVec 8 := e.packed.extractLsb' 0 8

/-- `data2`, bits 15:8 of `packed` (45_event_queue.md R260). -/
def data2Of (e : Event) : BitVec 8 := e.packed.extractLsb' 8 8

end Sys2Proof.Machine
end

