-- ==== Sys2Proof/Machine/Control.lean ====
section
/-! DEFINITION. The control commands (40_control.md R100 to R103). -/

namespace Sys2Proof.Machine

/-- `NOP` (40_control.md R100). -/
def execNop (s : State) : Host.Outcome State Fault Refusal := .next (retNone s)

/-- The reset state of a machine with these capacities (70_reset_and_hazards.md R330). The parameters are not
state and stay (40_control.md R101); so do the host's moves and the free-value counter. -/
def resetState (s : State) : State :=
  { host := HostRegs.reset, sys := Sys.reset, osc := Osc.reset, env := Env.reset
    noise := Noise.reset, table := Table.reset s.table.capacity
    queue := Queue.reset s.queue.capacity, syn := Syn.reset
    input := s.input, free := s.free }

/-- `RESET` (40_control.md R101, 70_reset_and_hazards.md R331). -/
def execReset (s : State) : Host.Outcome State Fault Refusal := .next (retNone (resetState s))

/-- `RDREG` (40_control.md R102). -/
def execRdreg (imm : BitVec 16) (s : State) : Host.Outcome State Fault Refusal :=
  .next (match regOfNumber imm.toNat with
    | none => raiseFault .regAccess (encode (.rdreg imm)) s
    | some r => retValue (readReg r s) s)

/-- `WRREG` (40_control.md R103): unassigned, then read-only, then the legal set (60_exceptions.md R304). -/
def execWrreg (imm : BitVec 16) (s : State) : Host.Outcome State Fault Refusal :=
  .next (match regOfNumber imm.toNat with
    | none => raiseFault .regAccess (encode (.wrreg imm)) s
    | some r =>
      if accessOf r = .ro then raiseFault .regAccess (encode (.wrreg imm)) s
      else if accessOf r = .rwl && !legalFor r s.host.arg0 then
        raiseFault .badValue (encode (.wrreg imm)) s
      else retNone (writeReg r s.host.arg0 s))

end Sys2Proof.Machine
end

