-- ==== Sys2Proof/Machine/Envelope.lean ====
section
/-! DEFINITION. The ADSR envelope (42_envelope.md R180 to R192). -/

namespace Sys2Proof.Machine

/-- `coef(T)` (42_envelope.md R180). -/
def coef (sr time : F64) : F64 :=
  if fgt time fZero then fdiv fOne (fadd (fmul (fmul fFifth time) sr) fOne) else fOne

/-- The update of `ENV.ATTACK` (42_envelope.md R185). -/
def triggerAttack (velocity : F64) (e : Env) : Env :=
  if fge e.a fOne then { e with scale := velocity, env := velocity, state := .decay }
  else { e with scale := velocity, state := .attack }

/-- The update of `ENV.RELEASE` (42_envelope.md R186). -/
def triggerRelease (e : Env) : Env :=
  if flt e.r fOne then { e with state := .release } else { e with state := .idle, env := fZero }

/-- `env <- env + c*(target - env)` (42_envelope.md R187). -/
def integrate (env c target : F64) : F64 := fadd env (fmul c (fsub target env))

/-- The update of `ENV.STEP` in command number `q`: each segment integrates, then tests its exit
(42_envelope.md R187 to R192). Idle keeps `env` whatever it is (log 23). -/
def envStep (q : Nat) (e : Env) : Env :=
  match e.state with
  | .idle => e
  | .attack =>
    let v := integrate e.env e.a e.scale
    { e with
      env := pin q (.reg 0x21) v
      state := if fle (fabs (fsub v e.scale)) (fmul e.scale epsA) then .decay else .attack }
  | .decay =>
    let target := fmul e.scale e.s
    let v := integrate e.env e.d target
    if fle (fabs (fsub v target)) (fmul e.scale epsR) then
      { e with env := target, state := .sustain }
    else { e with env := pin q (.reg 0x21) v }
  | .sustain => e
  | .release =>
    let v := integrate e.env e.r fZero
    if fle (fabs v) (fmul e.scale epsR) then { e with env := fZero, state := .idle }
    else { e with env := pin q (.reg 0x21) v }

/-- `ENV.SETATK` (42_envelope.md R181). -/
def execEnvSetatk (s : State) : Host.Outcome State Fault Refusal :=
  .next (retNone { s with env := { s.env with a := pin s.free (.reg 0x23) (coef s.sys.sr s.host.arg0) } })

/-- `ENV.SETDEC` (42_envelope.md R182). -/
def execEnvSetdec (s : State) : Host.Outcome State Fault Refusal :=
  .next (retNone { s with env := { s.env with d := pin s.free (.reg 0x24) (coef s.sys.sr s.host.arg0) } })

/-- `ENV.SETREL` (42_envelope.md R183). -/
def execEnvSetrel (s : State) : Host.Outcome State Fault Refusal :=
  .next (retNone { s with env := { s.env with r := pin s.free (.reg 0x25) (coef s.sys.sr s.host.arg0) } })

/-- `ENV.SETSUS` (42_envelope.md R184). -/
def execEnvSetsus (s : State) : Host.Outcome State Fault Refusal :=
  .next (retNone { s with env := { s.env with s := s.host.arg0 } })

/-- `ENV.ATTACK` (42_envelope.md R185). -/
def execEnvAttack (s : State) : Host.Outcome State Fault Refusal :=
  .next (retNone { s with env := triggerAttack s.host.arg0 s.env })

/-- `ENV.RELEASE` (42_envelope.md R186). -/
def execEnvRelease (s : State) : Host.Outcome State Fault Refusal :=
  .next (retNone { s with env := triggerRelease s.env })

/-- `ENV.STEP` (42_envelope.md R187): `RES0` is the new `env`, `RES1` the new state's code. -/
def execEnvStep (s : State) : Host.Outcome State Fault Refusal :=
  let e := envStep s.free s.env
  .next { s with
    env := e
    host := { s.host with
      res0 := e.env, res1 := BitVec.ofNat 64 (envStateCode e.state), rtag := .value } }

end Sys2Proof.Machine
end

