-- ==== Sys2Proof/Machine/EventQueue.lean ====
section
/-! DEFINITION. The event-queue commands (45_event_queue.md R262 to R264). None of them faults. -/

namespace Sys2Proof.Machine

/-- `EQ.REWIND` (45_event_queue.md R262). -/
def execEqRewind (s : State) : Host.Outcome State Fault Refusal :=
  .next (retNone { s with queue := rewindQueue s.queue })

/-- `EQ.PUSH` (45_event_queue.md R264): a dropped event sets no flag. -/
def execEqPush (s : State) : Host.Outcome State Fault Refusal :=
  .next (retNone { s with
    queue := pushEvent (eventOf s.host.arg0 s.host.arg1 s.host.arg2 s.host.arg3) s.queue })

/-- `EQ.POP` (45_event_queue.md R263): on the not-found branch `RES1` to `RES3` keep their values. -/
def execEqPop (s : State) : Host.Outcome State Fault Refusal :=
  .next (match popEvent s.queue with
    | (some e, q) =>
      { s with
        queue := q
        host := { s.host with
          res0 := e.offset
          res1 := e.status.zeroExtend 64
          res2 := (data1Of e).zeroExtend 64
          res3 := (data2Of e).zeroExtend 64
          rtag := .value } }
    | (none, q) => retNotFound { s with queue := q })

end Sys2Proof.Machine
end

