-- ==== Sys2Proof/Machine/NoiseGen.lean ====
section
/-! DEFINITION. The noise generator and its seven colours (43_noise.md R200 to R218). -/

namespace Sys2Proof.Machine

/-- `lcg_step()` on a seed, exact integer arithmetic (43_noise.md R200). -/
def lcgNext (seed : Word64) : Word64 := BitVec.ofNat 64 (seed.toNat * 48271 % 2147483647)

/-- The fold of `NZ.INIT` (43_noise.md R201); `mod` has its result in `[0, m)` (00_scope.md R10). -/
def foldSeed (v : Word64) : Word64 := BitVec.ofInt 64 ((v.toInt - 1) % 2147483646 + 1)

/-- The noise registers after `lcg_step()`. -/
def lcgStep (n : Noise) : Noise := { n with seed := lcgNext n.seed }

/-- The white value of a seed (43_noise.md R204). -/
def whiteOf (seed : Word64) : F64 :=
  fsub (fmul (fdiv (fofInt (seed.toInt - 1)) whiteSpan) fTwo) fOne

/-- `brown_a()` (43_noise.md R206). -/
def brownA (sr rc : F64) : F64 :=
  fdiv fOne (fadd (fmul (if fgt rc fZero then rc else rcDefault) sr) fOne)

/-- The coefficients of one biquad (43_noise.md R207). -/
structure Biquad where
  b0 : F64
  b1 : F64
  b2 : F64
  a1 : F64
  a2 : F64
  deriving DecidableEq, Repr

/-- `biquad(x, …)`: the output and the two memories after it (43_noise.md R207). -/
def biquad (c : Biquad) (x z1 z2 : F64) : F64 × F64 × F64 :=
  let y := fadd (fmul c.b0 x) z1
  (y, fadd (fsub (fmul c.b1 x) (fmul c.a1 y)) z2, fsub (fmul c.b2 x) (fmul c.a2 y))

/-- The low shelf's coefficients, OPEN (00_scope.md R8). -/
def greyLs : Biquad :=
  { b0 := Config.greyLsB0, b1 := Config.greyLsB1, b2 := Config.greyLsB2
    a1 := Config.greyLsA1, a2 := Config.greyLsA2 }

/-- The peak's coefficients, OPEN (00_scope.md R8). -/
def greyPk : Biquad :=
  { b0 := Config.greyPkB0, b1 := Config.greyPkB1, b2 := Config.greyPkB2
    a1 := Config.greyPkA1, a2 := Config.greyPkA2 }

/-- White, code 1 (43_noise.md R204, R210): the generator steps first. -/
def drawWhite (n : Noise) : F64 × Noise :=
  let n := lcgStep n
  (whiteOf n.seed, n)

/-- The body of `colour_2()` (43_noise.md R211) in command number `q`: the sample, not yet pinned, and the
registers after it. Blue draws through it too. -/
def pinkCore (q : Nat) (n : Noise) : F64 × Noise :=
  let (w, n) := drawWhite n
  let b0 := fadd (fmul kpL0 n.b0) (fmul w kpG0)
  let b1 := fadd (fmul kpL1 n.b1) (fmul w kpG1)
  let b2 := fadd (fmul kpL2 n.b2) (fmul w kpG2)
  (fadd (fadd (fadd b0 b1) b2) (fmul w kpGW),
    { n with b0 := pin q (.reg 0x31) b0, b1 := pin q (.reg 0x32) b1, b2 := pin q (.reg 0x33) b2 })

/-- Pink, code 2 (43_noise.md R211). -/
def drawPink (q : Nat) (n : Noise) : F64 × Noise :=
  let (p, n) := pinkCore q n
  (pin q (.res 0) p, n)

/-- Brown, code 3 (43_noise.md R212). The sample is the value the integrator now holds. -/
def drawBrown (q : Nat) (sr : F64) (n : Noise) : F64 × Noise :=
  let (w, n) := drawWhite n
  let lp := pin q (.reg 0x34) (fadd n.lp (fmul (brownA sr n.rc) (fsub w n.lp)))
  (lp, { n with lp := lp })

/-- Blue, code 4 (43_noise.md R213). -/
def drawBlue (q : Nat) (n : Noise) : F64 × Noise :=
  let (p, n) := pinkCore q n
  (pin q (.res 0) (fsub p n.bluePrev), { n with bluePrev := pin q (.reg 0x36) p })

/-- Violet, code 5 (43_noise.md R214). -/
def drawViolet (q : Nat) (n : Noise) : F64 × Noise :=
  let (w, n) := drawWhite n
  (pin q (.res 0) (fsub w n.violetPrev), { n with violetPrev := w })

/-- Grey, code 6 (43_noise.md R207, R215). -/
def drawGrey (q : Nat) (n : Noise) : F64 × Noise :=
  let (w, n) := drawWhite n
  let (y, ls1, ls2) := biquad greyLs w n.lsZ1 n.lsZ2
  let (z, pk1, pk2) := biquad greyPk y n.pkZ1 n.pkZ2
  (pin q (.res 0) z, { n with
    lsZ1 := pin q (.reg 0x38) ls1, lsZ2 := pin q (.reg 0x39) ls2
    pkZ1 := pin q (.reg 0x3A) pk1, pkZ2 := pin q (.reg 0x3B) pk2 })

/-- Black, code 7 (43_noise.md R216). -/
def drawBlack (n : Noise) : F64 × Noise :=
  let (w, n) := drawWhite n
  (if flt (fabs w) (fsub fOne n.density) then fZero else w, n)

/-- `colour_c()` (43_noise.md R203). -/
def drawColour (c : Colour) (q : Nat) (sr : F64) (n : Noise) : F64 × Noise :=
  match c with
  | .white => drawWhite n
  | .pink => drawPink q n
  | .brown => drawBrown q sr n
  | .blue => drawBlue q n
  | .violet => drawViolet q n
  | .grey => drawGrey q n
  | .black => drawBlack n

/-- `res[0] <- colour_c() ; rtag <- VALUE` (43_noise.md R203). -/
def drawCommand (c : Colour) (s : State) : State :=
  let drawn := drawColour c s.free s.sys.sr s.noise
  retValue drawn.1 { s with noise := drawn.2 }

/-- `NZ.INIT` (43_noise.md R201). -/
def execNzInit (s : State) : Host.Outcome State Fault Refusal :=
  .next (retNone { s with noise := { s.noise with seed := foldSeed s.host.arg0 } })

/-- `NZ.LCG` (43_noise.md R202). -/
def execNzLcg (s : State) : Host.Outcome State Fault Refusal :=
  .next (retValue (lcgNext s.noise.seed) { s with noise := lcgStep s.noise })

/-- `NZ.WHITE` (43_noise.md R203, R210). -/
def execNzWhite (s : State) : Host.Outcome State Fault Refusal := .next (drawCommand .white s)

/-- `NZ.PINK` (43_noise.md R203, R211). -/
def execNzPink (s : State) : Host.Outcome State Fault Refusal := .next (drawCommand .pink s)

/-- `NZ.BROWN` (43_noise.md R203, R212). -/
def execNzBrown (s : State) : Host.Outcome State Fault Refusal := .next (drawCommand .brown s)

/-- `NZ.BLUE` (43_noise.md R203, R213). -/
def execNzBlue (s : State) : Host.Outcome State Fault Refusal := .next (drawCommand .blue s)

/-- `NZ.VIOLET` (43_noise.md R203, R214). -/
def execNzViolet (s : State) : Host.Outcome State Fault Refusal := .next (drawCommand .violet s)

/-- `NZ.GREY` (43_noise.md R203, R215). -/
def execNzGrey (s : State) : Host.Outcome State Fault Refusal := .next (drawCommand .grey s)

/-- `NZ.BLACK` (43_noise.md R203, R216). -/
def execNzBlack (s : State) : Host.Outcome State Fault Refusal := .next (drawCommand .black s)

/-- `NZ.SETRC` (43_noise.md R217). -/
def execNzSetrc (s : State) : Host.Outcome State Fault Refusal :=
  .next (retNone { s with noise := { s.noise with rc := s.host.arg0 } })

/-- `NZ.SETDENS` (43_noise.md R218). -/
def execNzSetdens (s : State) : Host.Outcome State Fault Refusal :=
  .next (retNone { s with noise := { s.noise with density := s.host.arg0 } })

end Sys2Proof.Machine
end

