-- ==== Sys2Proof/Machine/Waveform.lean ====
section
/-! DEFINITION. The phase accumulator, the gain and the corrections (41_oscillator.md R120 to R128), and the
fourteen waveform functions (R140 to R153). Nothing here writes state. `sin k x` is the `k`-th sine a
waveform takes. -/

namespace Sys2Proof.Machine

/-- `wrap(x)` (00_scope.md R12, 41_oscillator.md R120). -/
def wrap (x : F64) : F64 :=
  let y := fsub x (ffloor x)
  if fge y fOne then fZero else y

/-- `clamp(x, lo, hi)`; NaN gives `lo` (00_scope.md R12). -/
def clamp (x lo hi : F64) : F64 :=
  if fge x lo then (if fle x hi then x else hi) else lo

/-- The two families of gain thresholds (41_oscillator.md R123). -/
inductive Family where
  | saw | sine
  deriving DecidableEq, Repr

/-- The family of each waveform (30_encoding.md R87). -/
def familyOf : Wave → Family
  | .square | .saw | .ramp | .rect | .stair => .saw
  | .sine | .tri | .trap | .trappw | .tripulse | .hwrsine | .fwrsine | .circle | .hammond => .sine

/-- The threshold below which the gain is 1 (41_oscillator.md R123). -/
def gainLo : Family → F64
  | .saw => fFifth
  | .sine => fQuarter

/-- The threshold from which the gain is 0 (41_oscillator.md R123). -/
def gainHi : Family → F64
  | .saw => fQuarter
  | .sine => fHalf

/-- `gain(d, fam)` (41_oscillator.md R123). -/
def gain (d : F64) (fam : Family) : F64 :=
  if fle d (gainLo fam) then fOne
  else if flt d (gainHi fam) then fdiv (fsub (gainHi fam) d) (fsub (gainHi fam) (gainLo fam))
  else fZero

/-- `polyblep(tau, d)` (41_oscillator.md R125). -/
def polyblep (tau d : F64) : F64 :=
  if flt tau d then
    let x := fdiv tau d
    fsub (fadd (fneg (fmul x x)) (fmul fTwo x)) fOne
  else if fgt tau (fsub fOne d) then
    let x := fdiv (fsub tau fOne) d
    fadd (fadd (fmul x x) (fmul fTwo x)) fOne
  else fZero

/-- `blamp(tau, d)` (41_oscillator.md R126). -/
def blamp (tau d : F64) : F64 :=
  if flt tau d then
    let x := fsub (fdiv tau d) fOne
    fdiv (fneg (fmul (fmul x x) x)) fThree
  else if fgt tau (fsub fOne d) then
    let x := fadd (fdiv (fsub tau fOne) d) fOne
    fdiv (fmul (fmul x x) x) fThree
  else fZero

/-- The clamped pulse width `pc` (41_oscillator.md R127). -/
def pulseWidth (pw : F64) : F64 := clamp pw pwEps (fsub fOne pwEps)

/-- `v + STEP(t, p, h)` (41_oscillator.md R128). -/
def addStep (d t p h v : F64) : F64 := fadd v (fmul (fmul h fHalf) (polyblep (wrap (fsub t p)) d))

/-- `v + CORNER(t, p, slope)` (41_oscillator.md R128). -/
def addCorner (d t p slope v : F64) : F64 :=
  fadd v (fmul (fmul (fmul slope fHalf) d) (blamp (wrap (fsub t p)) d))

/-- The corrected square before its gain (41_oscillator.md R142), also a partial of the staircase (R153). -/
def squareCore (t d : F64) : F64 :=
  let v := if flt t fHalf then fOne else fMinusOne
  addStep d t fHalf fMinusTwo (addStep d t fZero fTwo v)

/-- R140. -/
def waveSine (sin : Nat → F64 → F64) (t a : F64) : F64 := fmul a (sin 0 (fmul twoPi t))

/-- R141. -/
def waveTri (t d a : F64) : F64 :=
  let v :=
    if flt t fQuarter then fmul fFour t
    else if flt t fThreeQuarters then fsub fTwo (fmul fFour t)
    else fsub (fmul fFour t) fFour
  fmul a (addCorner d t fThreeQuarters fEight (addCorner d t fQuarter fMinusEight v))

/-- R142. -/
def waveSquare (t d a : F64) : F64 := fmul a (squareCore t d)

/-- R143. -/
def waveSaw (t d a : F64) : F64 := fmul a (addStep d t fZero fMinusTwo (fsub (fmul fTwo t) fOne))

/-- R144. -/
def waveRamp (t d a : F64) : F64 := fmul a (addStep d t fZero fTwo (fsub fOne (fmul fTwo t)))

/-- R145. -/
def waveRect (t d a pc : F64) : F64 :=
  let v := if flt t pc then fOne else fMinusOne
  fmul a (addStep d t pc fMinusTwo (addStep d t fZero fTwo v))

/-- R146. -/
def waveTrap (t d a : F64) : F64 :=
  let v :=
    if flt t fEighth then fmul fEight t
    else if flt t fThreeEighths then fOne
    else if flt t fFiveEighths then fsub fFour (fmul fEight t)
    else if flt t fSevenEighths then fMinusOne
    else fsub (fmul fEight t) fEight
  fmul a (addCorner d t fSevenEighths fEight (addCorner d t fFiveEighths fEight
    (addCorner d t fThreeEighths fMinusEight (addCorner d t fEighth fMinusEight v))))

/-- R147. -/
def waveTrappw (t d a pc : F64) : F64 :=
  let m := fdiv fFour (fsub fOne pc)
  let t1 := fdiv (fsub fOne pc) fFour
  let t2 := fdiv (fadd fOne pc) fFour
  let t3 := fdiv (fsub fThree pc) fFour
  let t4 := fdiv (fadd fThree pc) fFour
  let v :=
    if flt t t1 then fmul m t
    else if flt t t2 then fOne
    else if flt t t3 then fmul m (fsub fHalf t)
    else if flt t t4 then fMinusOne
    else fmul m (fsub t fOne)
  fmul a (addCorner d t t4 m (addCorner d t t3 m (addCorner d t t2 (fneg m) (addCorner d t t1 (fneg m) v))))

/-- R148. -/
def waveTripulse (t d a pc : F64) : F64 :=
  let k := fdiv fFour pc
  let h := fmul pc fHalf
  let v :=
    if flt t h then fsub (fmul k t) fOne
    else if flt t pc then fsub fThree (fmul k t)
    else fMinusOne
  fmul a (addCorner d t pc k (addCorner d t h (fmul fMinusTwo k) (addCorner d t fZero k v)))

/-- R149. -/
def waveHwrsine (sin : Nat → F64 → F64) (t d a : F64) : F64 :=
  let s := sin 0 (fmul twoPi t)
  let v := if fgt s fZero then fsub (fmul fTwo s) fOne else fMinusOne
  fmul a (addCorner d t fHalf (fmul fFour piF) (addCorner d t fZero (fmul fFour piF) v))

/-- R150. -/
def waveFwrsine (sin : Nat → F64 → F64) (t d a : F64) : F64 :=
  let v := fsub (fmul fTwo (fabs (sin 0 (fmul piF t)))) fOne
  fmul a (addCorner d t fZero (fmul fFour piF) v)

/-- R151. -/
def waveCircle (t a : F64) : F64 :=
  let v :=
    if flt t fHalf then
      let u := fsub (fmul fFour t) fOne
      fsqrt (fsub fOne (fmul u u))
    else
      let u := fsub (fmul fFour t) fThree
      fneg (fsqrt (fsub fOne (fmul u u)))
  fmul a v

/-- R152: three sine partials, each with its own gain. -/
def waveHammond (sin : Nat → F64 → F64) (t d : F64) : F64 :=
  let d2 := fmul fTwo d
  let d3 := fmul fThree d
  let t2 := wrap (fmul fTwo t)
  let t3 := wrap (fmul fThree t)
  let v := fmul (gain d .sine) (sin 0 (fmul twoPi t))
  let v := fadd v (fmul (gain d2 .sine) (sin 1 (fmul twoPi t2)))
  let v := fadd v (fmul (gain d3 .sine) (sin 2 (fmul twoPi t3)))
  fdiv v fThree

/-- R153: two square partials, each with its own gain. -/
def waveStair (t d : F64) : F64 :=
  let d2 := fmul fTwo d
  let t2 := wrap (fmul fTwo t)
  let p1 := fmul (gain d .saw) (squareCore t d)
  let p2 := fmul (gain d2 .saw) (squareCore t2 d2)
  fdiv (fmul (fadd p1 (fmul fHalf p2)) fTwo) fThree

/-- `W_c(t, dt, a, pw)` (41_oscillator.md R122): the phase is wrapped and the increment's magnitude taken
first. -/
def waveValue (sin : Nat → F64 → F64) (c : Wave) (t0 dt a pw : F64) : F64 :=
  let t := wrap t0
  let d := fabs dt
  match c with
  | .sine => waveSine sin t a
  | .tri => waveTri t d a
  | .square => waveSquare t d a
  | .saw => waveSaw t d a
  | .ramp => waveRamp t d a
  | .rect => waveRect t d a (pulseWidth pw)
  | .trap => waveTrap t d a
  | .trappw => waveTrappw t d a (pulseWidth pw)
  | .tripulse => waveTripulse t d a (pulseWidth pw)
  | .hwrsine => waveHwrsine sin t d a
  | .fwrsine => waveFwrsine sin t d a
  | .circle => waveCircle t a
  | .hammond => waveHammond sin t d
  | .stair => waveStair t d

end Sys2Proof.Machine
end

