-- ==== Sys2Proof/Machine/Oscillator.lean ====
section
/-! DEFINITION. The oscillator commands (41_oscillator.md R124, R129 to R137). -/

namespace Sys2Proof.Machine

/-- `recompute_a()` (41_oscillator.md R124). -/
def recomputeA (o : Osc) : Osc := { o with a := gain (fabs o.dt) (familyOf o.wave) }

/-- `reg.OSC_T <- wrap(reg.OSC_T + reg.OSC_DT)` (41_oscillator.md R129). -/
def advancePhase (q : Nat) (o : Osc) : Osc :=
  { o with t := pin q (.reg 0x10) (wrap (fadd o.t o.dt)) }

/-- One sample of waveform `c`, then the advance (41_oscillator.md R129, R136). -/
def renderOsc (c : Wave) (s : State) : State :=
  let y := waveValue (fun k => numSin s.free (.oscSine k)) c s.osc.t s.osc.dt s.osc.a s.osc.pw
  retValue (pin s.free (.res 0) y) { s with osc := advancePhase s.free s.osc }

/-- `OSC.SYNC` (41_oscillator.md R130). -/
def execOscSync (s : State) : Host.Outcome State Fault Refusal :=
  .next (retNone { s with osc := { s.osc with t := pin s.free (.reg 0x10) (wrap s.host.arg0) } })

/-- `OSC.SETFREQ` (41_oscillator.md R131). -/
def execOscSetfreq (s : State) : Host.Outcome State Fault Refusal :=
  .next (retNone { s with
    osc := recomputeA { s.osc with dt := pin s.free (.reg 0x11) (fdiv s.host.arg0 s.sys.sr) } })

/-- `OSC.SETINC` (41_oscillator.md R132). -/
def execOscSetinc (s : State) : Host.Outcome State Fault Refusal :=
  .next (retNone { s with osc := recomputeA { s.osc with dt := s.host.arg0 } })

/-- `OSC.SETPW`: stored unclamped (41_oscillator.md R133). -/
def execOscSetpw (s : State) : Host.Outcome State Fault Refusal :=
  .next (retNone { s with osc := { s.osc with pw := s.host.arg0 } })

/-- `OSC.SETWAVE` (41_oscillator.md R134). Codes 14 and 15, which the decoder rejects, are `ILLEGAL_CMD`. -/
def execOscSetwave (sel : BitVec 4) (s : State) : Host.Outcome State Fault Refusal :=
  .next (match waveOfCode sel.toNat with
    | none => raiseFault .illegalCmd (encode (.oscSetwave sel)) s
    | some c => retNone { s with osc := recomputeA { s.osc with wave := c } })

/-- `OSC.INC` (41_oscillator.md R135). -/
def execOscInc (s : State) : Host.Outcome State Fault Refusal :=
  .next (retNone { s with osc := advancePhase s.free s.osc })

/-- `OSC.RUN` (41_oscillator.md R136). -/
def execOscRun (s : State) : Host.Outcome State Fault Refusal := .next (renderOsc s.osc.wave s)

/-- `OSC.SINE` (41_oscillator.md R137, R140). -/
def execOscSine (s : State) : Host.Outcome State Fault Refusal := .next (renderOsc .sine s)

/-- `OSC.TRI` (41_oscillator.md R137, R141). -/
def execOscTri (s : State) : Host.Outcome State Fault Refusal := .next (renderOsc .tri s)

/-- `OSC.SQUARE` (41_oscillator.md R137, R142). -/
def execOscSquare (s : State) : Host.Outcome State Fault Refusal := .next (renderOsc .square s)

/-- `OSC.SAW` (41_oscillator.md R137, R143). -/
def execOscSaw (s : State) : Host.Outcome State Fault Refusal := .next (renderOsc .saw s)

/-- `OSC.RAMP` (41_oscillator.md R137, R144). -/
def execOscRamp (s : State) : Host.Outcome State Fault Refusal := .next (renderOsc .ramp s)

/-- `OSC.RECT` (41_oscillator.md R137, R145). -/
def execOscRect (s : State) : Host.Outcome State Fault Refusal := .next (renderOsc .rect s)

/-- `OSC.TRAP` (41_oscillator.md R137, R146). -/
def execOscTrap (s : State) : Host.Outcome State Fault Refusal := .next (renderOsc .trap s)

/-- `OSC.TRAPPW` (41_oscillator.md R137, R147). -/
def execOscTrappw (s : State) : Host.Outcome State Fault Refusal := .next (renderOsc .trappw s)

/-- `OSC.TRIPULSE` (41_oscillator.md R137, R148). -/
def execOscTripulse (s : State) : Host.Outcome State Fault Refusal := .next (renderOsc .tripulse s)

/-- `OSC.HWRSINE` (41_oscillator.md R137, R149). -/
def execOscHwrsine (s : State) : Host.Outcome State Fault Refusal := .next (renderOsc .hwrsine s)

/-- `OSC.FWRSINE` (41_oscillator.md R137, R150). -/
def execOscFwrsine (s : State) : Host.Outcome State Fault Refusal := .next (renderOsc .fwrsine s)

/-- `OSC.CIRCLE` (41_oscillator.md R137, R151). -/
def execOscCircle (s : State) : Host.Outcome State Fault Refusal := .next (renderOsc .circle s)

/-- `OSC.HAMMOND` (41_oscillator.md R137, R152). -/
def execOscHammond (s : State) : Host.Outcome State Fault Refusal := .next (renderOsc .hammond s)

/-- `OSC.STAIR` (41_oscillator.md R137, R153). -/
def execOscStair (s : State) : Host.Outcome State Fault Refusal := .next (renderOsc .stair s)

end Sys2Proof.Machine
end

