-- ==== Sys2Proof/Machine/VoiceTable.lean ====
section
/-! DEFINITION. The voice-table commands (44_voice_table.md R233 to R244). Every check comes before any
update, so a faulting command takes none of its own effects (60_exceptions.md R302). -/

namespace Sys2Proof.Machine

/-- A row index as a result. -/
def retRow (i : Nat) (s : State) : State := retValue (BitVec.ofNat 64 i) s

/-- `VT.GET` (44_voice_table.md R233). -/
def execVtGet (s : State) : Host.Outcome State Fault Refusal :=
  .next (if isRow s.host.arg0 s.table then retValue s.host.arg0 s
    else raiseFault .vtIndex (encode .vtGet) s)

/-- `VT.APPEND` (44_voice_table.md R234): the new row's fields are unspecified (R241). -/
def execVtAppend (s : State) : Host.Outcome State Fault Refusal :=
  .next (if s.table.count = s.table.capacity then raiseFault .vtFull (encode .vtAppend) s
    else retRow s.table.count
      { s with table := appendRow (freshRow s.free s.table.count) s.table })

/-- `VT.INSERT` (44_voice_table.md R235): the index check comes before the capacity check. -/
def execVtInsert (s : State) : Host.Outcome State Fault Refusal :=
  .next (
    if 0 ≤ s.host.arg0.toInt ∧ s.host.arg0.toInt ≤ (s.table.count : Int) then
      if s.table.count = s.table.capacity then raiseFault .vtFull (encode .vtInsert) s
      else
        let i := s.host.arg0.toNat
        retRow i { s with table := insertRow i (freshRow s.free i) s.table }
    else raiseFault .vtIndex (encode .vtInsert) s)

/-- `VT.REMOVE` (44_voice_table.md R236): the result is the row that followed, now at the same index. -/
def execVtRemove (s : State) : Host.Outcome State Fault Refusal :=
  .next (
    if isRow s.host.arg0 s.table then
      let i := s.host.arg0.toNat
      let s' := { s with table := removeRow i s.table }
      if i < s'.table.count then retRow i s' else retNotFound s'
    else raiseFault .vtIndex (encode .vtRemove) s)

/-- `VT.FIRST` (44_voice_table.md R237). -/
def execVtFirst (s : State) : Host.Outcome State Fault Refusal :=
  .next (if 0 < s.table.count then retRow 0 s else retNotFound s)

/-- `VT.LAST` (44_voice_table.md R238). -/
def execVtLast (s : State) : Host.Outcome State Fault Refusal :=
  .next (if 0 < s.table.count then retRow (s.table.count - 1) s else retNotFound s)

/-- `VT.NEXT` (44_voice_table.md R239). -/
def execVtNext (s : State) : Host.Outcome State Fault Refusal :=
  .next (
    if isRow s.host.arg0 s.table then
      let i := s.host.arg0.toNat
      if i + 1 < s.table.count then retRow (i + 1) s else retNotFound s
    else raiseFault .vtIndex (encode .vtNext) s)

/-- `VT.FIND` (44_voice_table.md R240). Selectors 3 to 15, which the decoder rejects, are `ILLEGAL_CMD`. -/
def execVtFind (sel : BitVec 4) (s : State) : Host.Outcome State Fault Refusal :=
  .next (match columnOfCode sel.toNat with
    | none => raiseFault .illegalCmd (encode (.vtFind sel)) s
    | some c =>
      if s.host.arg1.toInt = -1 then retNotFound s
      else if 0 ≤ s.host.arg1.toInt ∧ s.host.arg1.toInt ≤ (s.table.count : Int) then
        match findRow c s.host.arg0 s.host.arg1.toNat s.table with
        | some j => retRow j s
        | none => retNotFound s
      else raiseFault .vtIndex (encode (.vtFind sel)) s)

/-- `VT.CLEAR`: the row storage is not erased (44_voice_table.md R242). -/
def execVtClear (s : State) : Host.Outcome State Fault Refusal :=
  .next (retNone { s with table := { s.table with count := 0 } })

/-- `VT.RDF` (44_voice_table.md R243). -/
def execVtRdf (sel : BitVec 4) (s : State) : Host.Outcome State Fault Refusal :=
  .next (match columnOfCode sel.toNat with
    | none => raiseFault .illegalCmd (encode (.vtRdf sel)) s
    | some c =>
      if isRow s.host.arg0 s.table then retValue (fieldOf c (rowAt s.table s.host.arg0.toNat)) s
      else raiseFault .vtIndex (encode (.vtRdf sel)) s)

/-- `VT.WRF` (44_voice_table.md R244). -/
def execVtWrf (sel : BitVec 4) (s : State) : Host.Outcome State Fault Refusal :=
  .next (match columnOfCode sel.toNat with
    | none => raiseFault .illegalCmd (encode (.vtWrf sel)) s
    | some c =>
      if isRow s.host.arg0 s.table then
        let i := s.host.arg0.toNat
        retNone { s with
          table := { s.table with
            rows := putRow i (setField c s.host.arg1 (rowAt s.table i)) s.table.rows } }
      else raiseFault .vtIndex (encode (.vtWrf sel)) s)

end Sys2Proof.Machine
end

