-- ==== Sys2Proof/Machine/VoiceLoop.lean ====
section
/-! DEFINITION. The per-sample tick (46_voice_loop.md R280 to R292). -/

namespace Sys2Proof.Machine

/-- `note_dt(n)` (46_voice_loop.md R284). -/
def noteDt (n : Nat) (pitch sr : F64) : F64 :=
  fdiv (fmul (fmul f440 (Config.exp2 (fdiv (fofInt ((n : Int) - 69)) f12))) pitch) sr

/-- `note_on(n, v)` (46_voice_loop.md R283). `entry` is the queue entry the event came from. -/
def noteOn (entry : Nat) (n v : BitVec 8) (s : State) : State :=
  let table := if s.table.count = s.table.capacity then removeRow 0 s.table else s.table
  let row : VoiceRow :=
    { note := n.zeroExtend 64
      phase := fZero
      dt := pin s.free (.noteDt entry) (noteDt n.toNat s.syn.pitch s.sys.sr) }
  { s with
    table := appendRow row table
    env := triggerAttack (fdiv (fofInt (v.toNat : Int)) f127) s.env }

/-- `note_off(n)` (46_voice_loop.md R285): the first row with the note goes, and the shared envelope is
released only when the last row has gone. -/
def noteOff (n : BitVec 8) (s : State) : State :=
  match findRow .note (n.zeroExtend 64) 0 s.table with
  | none => s
  | some j =>
    let table := removeRow j s.table
    { s with table := table, env := if table.count = 0 then triggerRelease s.env else s.env }

/-- `all_notes_off()` (46_voice_loop.md R287). -/
def allNotesOff (s : State) : State :=
  { s with table := { s.table with count := 0 }, env := triggerRelease s.env }

/-- What an event does (46_voice_loop.md R282). The channel is ignored. -/
inductive Action where
  | noteOn (n v : BitVec 8)
  | noteOff (n : BitVec 8)
  | allNotesOff
  | ignore
  deriving DecidableEq, Repr

/-- Event decoding (46_voice_loop.md R282). -/
def actionOf (e : Event) : Action :=
  let hi := e.status &&& 0xF0#8
  let n := data1Of e
  let v := data2Of e
  if hi = 0x90#8 ∧ v ≠ 0#8 then .noteOn n v
  else if hi = 0x80#8 ∨ (hi = 0x90#8 ∧ v = 0#8) then .noteOff n
  else if hi = 0xB0#8 ∧ n = 123#8 then .allNotesOff
  else .ignore

/-- `handle(r)` (46_voice_loop.md R282). -/
def handleEvent (entry : Nat) (e : Event) (s : State) : State :=
  match actionOf e with
  | .noteOn n v => noteOn entry n v s
  | .noteOff n => noteOff n s
  | .allNotesOff => allNotesOff s
  | .ignore => s

/-- At most `fuel` turns of the drain loop (46_voice_loop.md R281). -/
def drainLoop : Nat → State → State
  | 0, s => s
  | fuel + 1, s =>
    match popEvent s.queue with
    | (none, q) => { s with queue := q }
    | (some e, q) => drainLoop fuel (handleEvent s.queue.head e { s with queue := q })

/-- `drain()`: it runs at most `EQ_TAIL - EQ_HEAD + 1` pops (46_voice_loop.md R281). -/
def drain (s : State) : State := drainLoop (s.queue.tail - s.queue.head + 1) s

/-- `noise_factor()` (46_voice_loop.md R288): one draw per tick, none when noise is off. -/
def noiseFactor (s : State) : F64 × Noise :=
  match s.syn.noise with
  | none => (fOne, s.noise)
  | some c => drawColour c s.free s.sys.sr s.noise

/-- `voices()`, in ascending order (46_voice_loop.md R289). -/
def voicesOf (mode : VoiceMode) (count : Nat) : List Nat :=
  if count = 0 then []
  else match mode with
    | .poly => List.range count
    | .monoNewest => [count - 1]
    | .monoOldest => [0]

/-- The sample of one voice, `(e * y) * nf` (46_voice_loop.md R290). Its gain comes from its own increment;
`OSC_A` is not used. A NaN phase or increment gives what the waveform's rule computes (log 22). -/
def voiceSample (q : Nat) (o : Osc) (e nf : F64) (i : Nat) (r : VoiceRow) : F64 :=
  let a := gain (fabs r.dt) (familyOf o.wave)
  let y := waveValue (fun k => numSin q (.voiceSine i k)) o.wave r.phase r.dt a o.pw
  fmul (fmul e y) nf

/-- The row of one voice after its sample: produce, then advance (46_voice_loop.md R290). -/
def advanceRow (q i : Nat) (r : VoiceRow) : VoiceRow :=
  { r with phase := pin q (.row i 1) (wrap (fadd r.phase r.dt)) }

/-- The sum over voices, one rounding per addition, and the rows after it (46_voice_loop.md R280, R290). -/
def renderVoices (q : Nat) (o : Osc) (e nf : F64) : List Nat → F64 → Table → F64 × Table
  | [], acc, t => (acc, t)
  | i :: rest, acc, t =>
    let r := rowAt t i
    renderVoices q o e nf rest (fadd acc (voiceSample q o e nf i r))
      { t with rows := putRow i (advanceRow q i r) t.rows }

/-- The steps of a tick after the drain: the envelope, one noise draw, the voices, the output
(46_voice_loop.md R280, R288 to R291). -/
def renderTick (s : State) : State :=
  let env := envStep s.free s.env
  let drawn := noiseFactor s
  let sum := renderVoices s.free s.osc env.env drawn.1
    (voicesOf s.syn.mode s.table.count) fZero s.table
  let out := pin s.free (.res 0) (fmul sum.1 s.syn.vol)
  retValue out { s with
    env := env, noise := drawn.2, table := sum.2
    syn := { s.syn with outL := out, outR := out } }

/-- `SYN.TICK` (46_voice_loop.md R280). -/
def execSynTick (s : State) : Host.Outcome State Fault Refusal := .next (renderTick (drain s))

end Sys2Proof.Machine
end

