-- ==== Sys2Proof/Machine/Dispatch.lean ====
section
/-! DEFINITION. One arm per command: each is one direct call of its meaning. -/

namespace Sys2Proof.Machine

def exec (i : Instr) (s : State) : Host.Outcome State Fault Refusal :=
  match i with
  | .nop => Sys2Proof.Machine.execNop s
  | .reset => Sys2Proof.Machine.execReset s
  | .rdreg imm => Sys2Proof.Machine.execRdreg imm s
  | .wrreg imm => Sys2Proof.Machine.execWrreg imm s
  | .oscSync => Sys2Proof.Machine.execOscSync s
  | .oscSetfreq => Sys2Proof.Machine.execOscSetfreq s
  | .oscSetinc => Sys2Proof.Machine.execOscSetinc s
  | .oscSetpw => Sys2Proof.Machine.execOscSetpw s
  | .oscSetwave sel => Sys2Proof.Machine.execOscSetwave sel s
  | .oscInc => Sys2Proof.Machine.execOscInc s
  | .oscRun => Sys2Proof.Machine.execOscRun s
  | .oscSine => Sys2Proof.Machine.execOscSine s
  | .oscTri => Sys2Proof.Machine.execOscTri s
  | .oscSquare => Sys2Proof.Machine.execOscSquare s
  | .oscSaw => Sys2Proof.Machine.execOscSaw s
  | .oscRamp => Sys2Proof.Machine.execOscRamp s
  | .oscRect => Sys2Proof.Machine.execOscRect s
  | .oscTrap => Sys2Proof.Machine.execOscTrap s
  | .oscTrappw => Sys2Proof.Machine.execOscTrappw s
  | .oscTripulse => Sys2Proof.Machine.execOscTripulse s
  | .oscHwrsine => Sys2Proof.Machine.execOscHwrsine s
  | .oscFwrsine => Sys2Proof.Machine.execOscFwrsine s
  | .oscCircle => Sys2Proof.Machine.execOscCircle s
  | .oscHammond => Sys2Proof.Machine.execOscHammond s
  | .oscStair => Sys2Proof.Machine.execOscStair s
  | .envSetatk => Sys2Proof.Machine.execEnvSetatk s
  | .envSetdec => Sys2Proof.Machine.execEnvSetdec s
  | .envSetrel => Sys2Proof.Machine.execEnvSetrel s
  | .envSetsus => Sys2Proof.Machine.execEnvSetsus s
  | .envAttack => Sys2Proof.Machine.execEnvAttack s
  | .envRelease => Sys2Proof.Machine.execEnvRelease s
  | .envStep => Sys2Proof.Machine.execEnvStep s
  | .nzInit => Sys2Proof.Machine.execNzInit s
  | .nzLcg => Sys2Proof.Machine.execNzLcg s
  | .nzWhite => Sys2Proof.Machine.execNzWhite s
  | .nzPink => Sys2Proof.Machine.execNzPink s
  | .nzBrown => Sys2Proof.Machine.execNzBrown s
  | .nzBlue => Sys2Proof.Machine.execNzBlue s
  | .nzViolet => Sys2Proof.Machine.execNzViolet s
  | .nzGrey => Sys2Proof.Machine.execNzGrey s
  | .nzBlack => Sys2Proof.Machine.execNzBlack s
  | .nzSetrc => Sys2Proof.Machine.execNzSetrc s
  | .nzSetdens => Sys2Proof.Machine.execNzSetdens s
  | .vtGet => Sys2Proof.Machine.execVtGet s
  | .vtAppend => Sys2Proof.Machine.execVtAppend s
  | .vtInsert => Sys2Proof.Machine.execVtInsert s
  | .vtRemove => Sys2Proof.Machine.execVtRemove s
  | .vtFirst => Sys2Proof.Machine.execVtFirst s
  | .vtLast => Sys2Proof.Machine.execVtLast s
  | .vtNext => Sys2Proof.Machine.execVtNext s
  | .vtFind sel => Sys2Proof.Machine.execVtFind sel s
  | .vtClear => Sys2Proof.Machine.execVtClear s
  | .vtRdf sel => Sys2Proof.Machine.execVtRdf sel s
  | .vtWrf sel => Sys2Proof.Machine.execVtWrf sel s
  | .eqRewind => Sys2Proof.Machine.execEqRewind s
  | .eqPush => Sys2Proof.Machine.execEqPush s
  | .eqPop => Sys2Proof.Machine.execEqPop s
  | .synTick => Sys2Proof.Machine.execSynTick s

end Sys2Proof.Machine
end

