-- ==== Sys2Proof/Machine/Issue.lean ====
section
/-! DEFINITION. How the host's moves reach FWCORE (00_scope.md R6, R7, 30_encoding.md R90, R92). FWCORE has no
program counter: the host supplies each command word (10_state.md R21). -/

namespace Sys2Proof.Machine

/-- One command word: the command it decodes to, or the `ILLEGAL_CMD` fault (30_encoding.md R90). -/
def issueWord (w : Word32) (s : State) : Host.Outcome State Fault Refusal :=
  match decode w with
  | .ok i => exec i s
  | .error _ => .next (raiseFault .illegalCmd w s)

/-- One move of the host: an operand register written, a result register copied to one, or a command word
issued. Each command has its own number for the free values (log 3). -/
def takeMove (m : HostMove) (s : State) : Host.Outcome State Fault Refusal :=
  match m with
  | .li n v => .next { s with host := setArg n v s.host }
  | .mov n k => .next { s with host := setArg n (resOf s.host k) s.host }
  | .issue w => issueWord w { s with free := s.free + 1 }

/-- The host's next move is to issue this word. -/
def placeWord (w : Word32) (s : State) : State := { s with input := .issue w :: s.input }

end Sys2Proof.Machine
end

