-- ==== Sys2Proof/Machine/Step.lean ====
section
/-! DEFINITION. One step: the host's next move. FWCORE "is idle exactly when the host issues no command"
(60_exceptions.md R313). -/

namespace Sys2Proof.Machine

/-- The host's next move, taken from the front of `input`. -/
def step (s : State) : Host.Outcome State Fault Refusal :=
  match s.input with
  | [] => .next s
  | m :: rest => takeMove m { s with input := rest }

/-- `s` with the command word of a table row as the host's next move (log 1). -/
def State.withFetchWord (s : State) (nbits w : Nat) : State :=
  placeWord (BitVec.ofNat 32 (w % 2 ^ nbits)) s

end Sys2Proof.Machine
end

