-- ==== Sys2Proof/Safety.lean ====
section
/-! DEFINITION. The invariants that the rules keep (10_state.md R37), and the two vocabularies of the
statements: a value up to the NaN it may be, and the live rows in table order. -/

namespace Sys2Proof.Machine

/-- `0 ≤ VT_COUNT ≤ VT_CAP`, with `VT_CAP` in its range, and storage for every live row (10_state.md R37). -/
abbrev TableWf (t : Table) : Prop :=
  1 ≤ t.capacity ∧ t.capacity ≤ 65535 ∧ t.count ≤ t.rows.length ∧ t.rows.length ≤ t.capacity

/-- `0 ≤ EQ_HEAD ≤ EQ_TAIL ≤ EQ_CAP` and `0 ≤ EQ_COUNTER ≤ 2^63 - 1`, with `EQ_CAP` in its range, and storage
for every entry below the tail (10_state.md R37, 45_event_queue.md R261). -/
abbrev QueueWf (q : Queue) : Prop :=
  1 ≤ q.capacity ∧ q.capacity ≤ 65535 ∧ q.head ≤ q.tail ∧ q.tail ≤ q.ev.length ∧
    q.ev.length ≤ q.capacity ∧ q.counter ≤ counterMax

/-- 1 ≤ `NZ_SEED` ≤ 2147483646 (10_state.md R37). -/
abbrev SeedLegal (seed : Word64) : Prop := 1 ≤ seed.toNat ∧ seed.toNat ≤ 2147483646

/-- The invariant of 10_state.md R37. The legal codes of `ENV_STATE`, `OSC_WAVE`, `SYN_MODE` and `SYN_NOISE`
need no clause: their types hold nothing else. -/
abbrev Invariant (s : State) : Prop := TableWf s.table ∧ QueueWf s.queue ∧ SeedLegal s.noise.seed

/-- The value lies in [0, 1) (10_state.md R37). -/
def inUnit (x : F64) : Bool := fle fZero x && flt x fOne

/-- A phase as 10_state.md R37 allows it: in [0, 1) or NaN. -/
abbrev PhaseOk (x : F64) : Prop := isNaN x = true ∨ inUnit x = true

/-- The live rows in table order (44_voice_table.md R230). -/
def liveRows (t : Table) : List VoiceRow := t.rows.take t.count

/-- A finite value as a rational number (00_scope.md R10). -/
def toRat (x : F64) : ℚ := (signedUnits x : ℚ) / 2 ^ 1074

/-- `y` holds the value `v`: the same pattern, or both are NaN, whose sign and payload are free
(93_implementation_defined.md U18). -/
abbrev SameValue (v y : F64) : Prop := if isNaN v then isNaN y = true else y = v

/-- What 60_exceptions.md R302 and R303 say a fault of this cause code and command word leaves. -/
def faulted (code : Nat) (w : Word32) (s : State) : State :=
  { s with
    sys :=
      { status := s.sys.status ||| BitVec.ofNat 5 (2 ^ (code - 1))
        fcause := if s.sys.status = 0#5 then BitVec.ofNat 64 code else s.sys.fcause
        fcmd := if s.sys.status = 0#5 then w.zeroExtend 64 else s.sys.fcmd
        sr := s.sys.sr }
    host := { s.host with rtag := .fault } }

/-- The register map of 10_state.md R26 to R36: each assigned number with the 64 bits a read returns. -/
def registerMap (s : State) : List (Nat × Word64) :=
  [ (0x0000, s.sys.status.zeroExtend 64), (0x0001, s.sys.fcause), (0x0002, s.sys.fcmd), (0x0003, s.sys.sr)
  , (0x0010, s.osc.t), (0x0011, s.osc.dt), (0x0012, s.osc.a), (0x0013, s.osc.pw)
  , (0x0014, BitVec.ofNat 64 (waveCode s.osc.wave)) ] ++
  [ (0x0020, BitVec.ofNat 64 (envStateCode s.env.state)), (0x0021, s.env.env), (0x0022, s.env.scale)
  , (0x0023, s.env.a), (0x0024, s.env.d), (0x0025, s.env.r), (0x0026, s.env.s) ] ++
  [ (0x0030, s.noise.seed), (0x0031, s.noise.b0), (0x0032, s.noise.b1), (0x0033, s.noise.b2)
  , (0x0034, s.noise.lp), (0x0035, s.noise.rc), (0x0036, s.noise.bluePrev), (0x0037, s.noise.violetPrev)
  , (0x0038, s.noise.lsZ1), (0x0039, s.noise.lsZ2), (0x003A, s.noise.pkZ1), (0x003B, s.noise.pkZ2)
  , (0x003C, s.noise.density) ] ++
  [ (0x0040, BitVec.ofNat 64 s.table.count), (0x0041, BitVec.ofNat 64 s.table.capacity)
  , (0x0050, BitVec.ofNat 64 s.queue.head), (0x0051, BitVec.ofNat 64 s.queue.tail)
  , (0x0052, BitVec.ofNat 64 s.queue.counter), (0x0053, BitVec.ofNat 64 s.queue.capacity) ] ++
  [ (0x0060, BitVec.ofNat 64 (modeCode s.syn.mode)), (0x0061, s.syn.vol)
  , (0x0062, BitVec.ofNat 64 (noiseCode s.syn.noise)), (0x0063, s.syn.pitch)
  , (0x0064, s.syn.outL), (0x0065, s.syn.outR) ]

/-- The 64 bits a read of a register number returns, none for an unassigned number. -/
def registerValue (s : State) (n : Nat) : Option Word64 := (registerMap s).lookup n

/-- The numbers of the `RW` registers (10_state.md R26 to R36). -/
def rwNumbers : List Nat :=
  [0x0001, 0x0002, 0x0003, 0x0010, 0x0011, 0x0012, 0x0013] ++
  [0x0021, 0x0022, 0x0023, 0x0024, 0x0025, 0x0026] ++
  [0x0031, 0x0032, 0x0033, 0x0034, 0x0035, 0x0036, 0x0037, 0x0038, 0x0039, 0x003A, 0x003B, 0x003C] ++
  [0x0061, 0x0063]

/-- The numbers of the `RO` registers (10_state.md R32, R34, R36). -/
def roNumbers : List Nat := [0x0040, 0x0041, 0x0050, 0x0051, 0x0052, 0x0053, 0x0064, 0x0065]

/-- The numbers of the `RWL` registers with the values each accepts (10_state.md R28 to R36). -/
def rwlLegal (n : Nat) (v : Int) : Prop :=
  (n = 0x0014 ∧ 0 ≤ v ∧ v ≤ 13) ∨
  (n = 0x0020 ∧ (v = 0 ∨ v = 1 ∨ v = 2 ∨ v = 4 ∨ v = 8)) ∨
  (n = 0x0030 ∧ 1 ≤ v ∧ v ≤ 2147483646) ∨
  (n = 0x0060 ∧ 0 ≤ v ∧ v ≤ 2) ∨
  (n = 0x0062 ∧ 0 ≤ v ∧ v ≤ 7)

/-- The command words of 30_encoding.md R86 to R88: an `OPC` and the range of its `SEL`. -/
def opcodeRanges : List (Nat × Nat × Nat) :=
  [(0x00, 0, 0), (0x01, 0, 0), (0x02, 0, 0), (0x03, 0, 0)] ++
  [(0x10, 0, 0), (0x11, 0, 0), (0x12, 0, 0), (0x13, 0, 0), (0x14, 0, 13), (0x15, 0, 0), (0x16, 0, 0), (0x17, 0, 13)] ++
  [(0x20, 0, 0), (0x21, 0, 0), (0x22, 0, 0), (0x23, 0, 0), (0x24, 0, 0), (0x25, 0, 0), (0x26, 0, 0)] ++
  [(0x30, 0, 0), (0x31, 0, 0), (0x32, 1, 7), (0x33, 0, 0), (0x34, 0, 0)] ++
  [(0x40, 0, 0), (0x41, 0, 0), (0x42, 0, 0), (0x43, 0, 0), (0x44, 0, 0), (0x45, 0, 0), (0x46, 0, 0), (0x47, 0, 2)] ++
  [(0x48, 0, 0), (0x49, 0, 2), (0x4A, 0, 2), (0x50, 0, 0), (0x51, 0, 0), (0x52, 0, 0), (0x60, 0, 0)]

/-- A word that passes the four tests of 30_encoding.md R90. -/
def LegalWord (w : Word32) : Prop :=
  (∃ r ∈ opcodeRanges, (opcOf w).toNat = r.1 ∧ r.2.1 ≤ (selOf w).toNat ∧ (selOf w).toNat ≤ r.2.2) ∧
  rsvOf w = 0#4 ∧
  (immOf w = 0#16 ∨ opcOf w = 0x02#8 ∨ opcOf w = 0x03#8)

/-- The waveform command of a waveform (30_encoding.md R87). -/
def waveCommandOf : Wave → Instr
  | .sine => .oscSine
  | .tri => .oscTri
  | .square => .oscSquare
  | .saw => .oscSaw
  | .ramp => .oscRamp
  | .rect => .oscRect
  | .trap => .oscTrap
  | .trappw => .oscTrappw
  | .tripulse => .oscTripulse
  | .hwrsine => .oscHwrsine
  | .fwrsine => .oscFwrsine
  | .circle => .oscCircle
  | .hammond => .oscHammond
  | .stair => .oscStair

/-- The colour command of a colour (30_encoding.md R88). -/
def colourCommandOf : Colour → Instr
  | .white => .nzWhite
  | .pink => .nzPink
  | .brown => .nzBrown
  | .blue => .nzBlue
  | .violet => .nzViolet
  | .grey => .nzGrey
  | .black => .nzBlack

/-- A row index operand names a live row (44_voice_table.md R231). -/
abbrev NamesRow (i : Word64) (t : Table) : Prop := 0 ≤ i.toInt ∧ i.toInt < (t.count : Int)

end Sys2Proof.Machine
end

