-- ==== Sys2Proof/Certificates/Slice0/Obligations.lean ====
section
/-! DEFINITION. The statements for the provers. Each names the rule of spec/ it formalises; SameValue leaves
the NaN that arithmetic makes free (93_implementation_defined.md U18). -/

open Sys2Proof Sys2Proof.Machine

/-! ### Control -/

/-- 40_control.md R100. -/
def Obligations.NopChangesOnlyTheTag : Prop :=
  decode 0x00000000#32 = .ok .nop ∧
  ∀ s : State, exec .nop s = .next { s with host := { s.host with rtag := .none } }

/-- 70_reset_and_hazards.md R330, written out: the values of the table, for the capacities of a machine. -/
def Sys2Proof.Machine.IsResetState (vtCap eqCap : Nat) (t : State) : Prop :=
  t.host = { arg0 := 0#64, arg1 := 0#64, arg2 := 0#64, arg3 := 0#64
             res0 := 0#64, res1 := 0#64, res2 := 0#64, res3 := 0#64, rtag := .none } ∧
  t.sys = { status := 0#5, fcause := 0#64, fcmd := 0#64, sr := 0x40E5888000000000#64 } ∧
  t.osc = { t := 0#64, dt := 0#64, a := 0x3FF0000000000000#64, pw := 0x3FE0000000000000#64, wave := .saw } ∧
  t.env = { state := .idle, env := 0#64, scale := 0#64, a := 0x3FF0000000000000#64
            d := 0x3FF0000000000000#64, r := 0x3FF0000000000000#64, s := 0x3FF0000000000000#64 } ∧
  t.noise = { seed := 1#64, b0 := 0#64, b1 := 0#64, b2 := 0#64, lp := 0#64, rc := 0x3F80CB295E9E1B09#64
              bluePrev := 0#64, violetPrev := 0#64, lsZ1 := 0#64, lsZ2 := 0#64, pkZ1 := 0#64
              pkZ2 := 0#64, density := 0x3FE0000000000000#64 } ∧
  t.table.count = 0 ∧ t.table.capacity = vtCap ∧
  t.queue.head = 0 ∧ t.queue.tail = 0 ∧ t.queue.counter = 0 ∧ t.queue.capacity = eqCap ∧
  t.syn = { mode := .poly, vol := 0x3FF0000000000000#64, noise := none, pitch := 0x3FF0000000000000#64
            outL := 0#64, outR := 0#64 }

/-- 70_reset_and_hazards.md R330 and R331, 40_control.md R101: power-on and `RESET` leave the same values. -/
def Obligations.PowerOnAndResetGiveTheResetState : Prop :=
  decode 0x01000000#32 = .ok .reset ∧
  IsResetState Config.vtCap Config.eqCap State.reset ∧
  ∀ s : State, ∃ t, exec .reset s = .next t ∧ IsResetState s.table.capacity s.queue.capacity t

/-- 40_control.md R102: the whole register map, and every other number. -/
def Obligations.RdregReadsTheNumberedRegister : Prop :=
  ∀ (s : State) (imm : BitVec 16),
    decode (0x0200#16 ++ imm) = .ok (.rdreg imm) ∧
    (∀ v, registerValue s imm.toNat = some v →
      exec (.rdreg imm) s = .next { s with host := { s.host with res0 := v, rtag := .value } }) ∧
    (registerValue s imm.toNat = none →
      exec (.rdreg imm) s = .next (faulted 4 (encode (.rdreg imm)) s))

/-- 40_control.md R103, 10_state.md R25: an `RW` register holds what was written and no other register, row
or entry changes. -/
def Obligations.WrregStoresAnyValueInAnRwRegister : Prop :=
  ∀ (s : State) (imm : BitVec 16), imm.toNat ∈ rwNumbers →
    ∃ t, exec (.wrreg imm) s = .next t ∧
      registerValue t imm.toNat = some s.host.arg0 ∧
      (∀ m, m ≠ imm.toNat → registerValue t m = registerValue s m) ∧
      t.host = { s.host with rtag := .none } ∧
      t.table = s.table ∧ t.queue = s.queue ∧ t.input = s.input ∧ t.free = s.free

/-- 10_state.md R25, R28 to R36, 40_control.md R103: a legal value is stored, any other faults BAD_VALUE. -/
def Obligations.WrregChecksTheLegalSet : Prop :=
  ∀ (s : State) (imm : BitVec 16), imm.toNat ∈ [0x0014, 0x0020, 0x0030, 0x0060, 0x0062] →
    (rwlLegal imm.toNat s.host.arg0.toInt →
      ∃ t, exec (.wrreg imm) s = .next t ∧
        registerValue t imm.toNat = some s.host.arg0 ∧
        (∀ m, m ≠ imm.toNat → registerValue t m = registerValue s m) ∧
        t.host = { s.host with rtag := .none } ∧
        t.table = s.table ∧ t.queue = s.queue ∧ t.input = s.input ∧ t.free = s.free) ∧
    (¬ rwlLegal imm.toNat s.host.arg0.toInt →
      exec (.wrreg imm) s = .next (faulted 5 (encode (.wrreg imm)) s))

/-- 10_state.md R25, 40_control.md R103: read-only and unassigned numbers fault REG_ACCESS. -/
def Obligations.WrregRefusesReadOnlyAndUnassignedNumbers : Prop :=
  ∀ (s : State) (imm : BitVec 16), (imm.toNat ∈ roNumbers ∨ registerValue s imm.toNat = none) →
    exec (.wrreg imm) s = .next (faulted 4 (encode (.wrreg imm)) s)

/-- 40_control.md R103, 60_exceptions.md R305: `WRREG STATUS` clears the bits that are 1 in the operand. -/
def Obligations.WrregStatusClearsTheWrittenOnes : Prop :=
  ∀ (s : State), ∃ t, exec (.wrreg 0x0000#16) s = .next t ∧
    registerValue t 0x0000 = some (s.sys.status.zeroExtend 64 &&& ~~~ s.host.arg0) ∧
    (∀ m, m ≠ 0x0000 → registerValue t m = registerValue s m) ∧
    t.host = { s.host with rtag := .none } ∧
    t.table = s.table ∧ t.queue = s.queue ∧ t.input = s.input ∧ t.free = s.free

/-! ### Faults -/

/-- 44_voice_table.md R231, R235, R240, 60_exceptions.md R300, R302: a reference outside the range. -/
def Obligations.BadRowReferencesFaultVtIndex : Prop :=
  ∀ s : State,
    (¬ NamesRow s.host.arg0 s.table →
      exec .vtGet s = .next (faulted 3 (encode .vtGet) s) ∧
      exec .vtRemove s = .next (faulted 3 (encode .vtRemove) s) ∧
      exec .vtNext s = .next (faulted 3 (encode .vtNext) s) ∧
      ∀ sel : BitVec 4, sel.toNat ≤ 2 →
        exec (.vtRdf sel) s = .next (faulted 3 (encode (.vtRdf sel)) s) ∧
        exec (.vtWrf sel) s = .next (faulted 3 (encode (.vtWrf sel)) s)) ∧
    (¬ (0 ≤ s.host.arg0.toInt ∧ s.host.arg0.toInt ≤ (s.table.count : Int)) →
      exec .vtInsert s = .next (faulted 3 (encode .vtInsert) s)) ∧
    (¬ (-1 ≤ s.host.arg1.toInt ∧ s.host.arg1.toInt ≤ (s.table.count : Int)) →
      ∀ sel : BitVec 4, sel.toNat ≤ 2 →
        exec (.vtFind sel) s = .next (faulted 3 (encode (.vtFind sel)) s))

/-- 44_voice_table.md R234, R235: growing a full table; the index test of `VT.INSERT` comes first. -/
def Obligations.GrowingAFullTableFaultsVtFull : Prop :=
  ∀ s : State, s.table.count = s.table.capacity →
    exec .vtAppend s = .next (faulted 2 (encode .vtAppend) s) ∧
    (0 ≤ s.host.arg0.toInt → s.host.arg0.toInt ≤ (s.table.count : Int) →
      exec .vtInsert s = .next (faulted 2 (encode .vtInsert) s))

/-- 60_exceptions.md R302, over all commands: a fault leaves its record and the tag and nothing else; and R300: each
cause belongs to its commands. The clause for code 1 is the model's choice: an `Instr` that is not well-formed has no
word that decodes to it, and gets the decode fault (log 16). -/
def Obligations.AFaultChangesOnlyItsRecord : Prop :=
  ∀ (i : Instr) (s t : State), exec i s = .next t → t.host.rtag = .fault →
    ∃ code : Nat, t = faulted code (encode i) s ∧
      ((code = 1 ∧ i.WellFormed = false) ∨
        (code = 2 ∧ (i = .vtAppend ∨ i = .vtInsert) ∧ s.table.count = s.table.capacity) ∨
        (code = 3 ∧ (i = .vtGet ∨ i = .vtInsert ∨ i = .vtRemove ∨ i = .vtNext ∨
          (∃ sel, i = .vtFind sel ∨ i = .vtRdf sel ∨ i = .vtWrf sel))) ∨
        (code = 4 ∧ (∃ imm, i = .rdreg imm ∨ i = .wrreg imm)) ∨
        (code = 5 ∧ (∃ imm, i = .wrreg imm)))

/-- 30_encoding.md R90: exactly the words of R86 decode, and every other word faults ILLEGAL_CMD. -/
def Obligations.IllegalWordsFaultIllegalCmd : Prop :=
  (∀ w : Word32, (∃ i, decode w = .ok i) ↔ LegalWord w) ∧
  ∀ (s : State) (w : Word32), ¬ LegalWord w → issueWord w s = .next (faulted 1 w s)

/-! ### Oscillator -/

/-- 41_oscillator.md R130 to R135; the words of R130 to R133 and R135. -/
def Obligations.OscSettingCommandsSetTheirRegisters : Prop :=
  decode 0x10000000#32 = .ok .oscSync ∧ decode 0x11000000#32 = .ok .oscSetfreq ∧
  decode 0x12000000#32 = .ok .oscSetinc ∧ decode 0x13000000#32 = .ok .oscSetpw ∧
  decode 0x15000000#32 = .ok .oscInc ∧
  ∀ s : State,
    (∃ x, SameValue (wrap s.host.arg0) x ∧
      exec .oscSync s = .next { s with
        osc := { s.osc with t := x }, host := { s.host with rtag := .none } }) ∧
    (∃ x, SameValue (fdiv s.host.arg0 s.sys.sr) x ∧
      exec .oscSetfreq s = .next { s with
        osc := { s.osc with dt := x, a := gain (fabs x) (familyOf s.osc.wave) }
        host := { s.host with rtag := .none } }) ∧
    exec .oscSetinc s = .next { s with
      osc := { s.osc with dt := s.host.arg0, a := gain (fabs s.host.arg0) (familyOf s.osc.wave) }
      host := { s.host with rtag := .none } } ∧
    exec .oscSetpw s = .next { s with
      osc := { s.osc with pw := s.host.arg0 }, host := { s.host with rtag := .none } } ∧
    (∀ (sel : BitVec 4) (c : Wave), sel.toNat = waveCode c →
      exec (.oscSetwave sel) s = .next { s with
        osc := { s.osc with wave := c, a := gain (fabs s.osc.dt) (familyOf c) }
        host := { s.host with rtag := .none } }) ∧
    (∃ x, SameValue (wrap (fadd s.osc.t s.osc.dt)) x ∧
      exec .oscInc s = .next { s with
        osc := { s.osc with t := x }, host := { s.host with rtag := .none } })

/-- 41_oscillator.md R140 to R153 in closed form, on the wrapped phase `t`, the increment's magnitude `d`, the gain
`a` and the clamped width `pc`: the naive value and its corrections, added in the order the rule lists them.
`step` and `corner` are the terms of R128, `square` is R142 before its gain, and `sin k` is the sine of the
`k`-th operand. -/
def Sys2Proof.Machine.closedForm (sin : Nat → F64 → F64) (c : Wave) (t d a pc : F64) : F64 :=
  let step := fun (t d p h v : F64) => fadd v (fmul (fmul h fHalf) (polyblep (wrap (fsub t p)) d))
  let corner := fun (p slope v : F64) => fadd v (fmul (fmul (fmul slope fHalf) d) (blamp (wrap (fsub t p)) d))
  let square := fun (t d : F64) =>
    step t d fHalf fMinusTwo (step t d fZero fTwo (if flt t fHalf then fOne else fMinusOne))
  let t2 := wrap (fmul fTwo t)
  let t3 := wrap (fmul fThree t)
  match c with
  | .sine => fmul a (sin 0 (fmul twoPi t))
  | .tri => fmul a (corner fThreeQuarters fEight (corner fQuarter fMinusEight
      (if flt t fQuarter then fmul fFour t
       else if flt t fThreeQuarters then fsub fTwo (fmul fFour t)
       else fsub (fmul fFour t) fFour)))
  | .square => fmul a (square t d)
  | .saw => fmul a (step t d fZero fMinusTwo (fsub (fmul fTwo t) fOne))
  | .ramp => fmul a (step t d fZero fTwo (fsub fOne (fmul fTwo t)))
  | .rect => fmul a (step t d pc fMinusTwo (step t d fZero fTwo (if flt t pc then fOne else fMinusOne)))
  | .trap => fmul a (corner fSevenEighths fEight (corner fFiveEighths fEight
      (corner fThreeEighths fMinusEight (corner fEighth fMinusEight
      (if flt t fEighth then fmul fEight t
       else if flt t fThreeEighths then fOne
       else if flt t fFiveEighths then fsub fFour (fmul fEight t)
       else if flt t fSevenEighths then fMinusOne
       else fsub (fmul fEight t) fEight)))))
  | .trappw =>
    let m := fdiv fFour (fsub fOne pc)
    let t1 := fdiv (fsub fOne pc) fFour
    let t2 := fdiv (fadd fOne pc) fFour
    let t3 := fdiv (fsub fThree pc) fFour
    let t4 := fdiv (fadd fThree pc) fFour
    fmul a (corner t4 m (corner t3 m (corner t2 (fneg m) (corner t1 (fneg m)
      (if flt t t1 then fmul m t
       else if flt t t2 then fOne
       else if flt t t3 then fmul m (fsub fHalf t)
       else if flt t t4 then fMinusOne
       else fmul m (fsub t fOne))))))
  | .tripulse =>
    let k := fdiv fFour pc
    let h := fmul pc fHalf
    fmul a (corner pc k (corner h (fmul fMinusTwo k) (corner fZero k
      (if flt t h then fsub (fmul k t) fOne
       else if flt t pc then fsub fThree (fmul k t)
       else fMinusOne))))
  | .hwrsine => fmul a (corner fHalf (fmul fFour piF) (corner fZero (fmul fFour piF)
      (if fgt (sin 0 (fmul twoPi t)) fZero then fsub (fmul fTwo (sin 0 (fmul twoPi t))) fOne else fMinusOne)))
  | .fwrsine => fmul a (corner fZero (fmul fFour piF) (fsub (fmul fTwo (fabs (sin 0 (fmul piF t)))) fOne))
  | .circle => fmul a
      (if flt t fHalf then
        fsqrt (fsub fOne (fmul (fsub (fmul fFour t) fOne) (fsub (fmul fFour t) fOne)))
       else fneg (fsqrt (fsub fOne (fmul (fsub (fmul fFour t) fThree) (fsub (fmul fFour t) fThree)))))
  | .hammond => fdiv (fadd (fadd
      (fmul (gain d .sine) (sin 0 (fmul twoPi t)))
      (fmul (gain (fmul fTwo d) .sine) (sin 1 (fmul twoPi t2))))
      (fmul (gain (fmul fThree d) .sine) (sin 2 (fmul twoPi t3)))) fThree
  | .stair => fdiv (fmul (fadd
      (fmul (gain d .saw) (square t d))
      (fmul fHalf (fmul (gain (fmul fTwo d) .saw) (square t2 (fmul fTwo d))))) fTwo) fThree

/-- 41_oscillator.md R129, R136, R137: one sample on the phase before the advance, then the advance; every
other oscillator register stays. The sample is the closed form of R140 to R153, where a sine is `NUM.sin` of its
operand, or of a free NaN where the operand is a NaN (log 5). -/
def Obligations.OscRenderProducesThenAdvances : Prop :=
  decode 0x16000000#32 = .ok .oscRun ∧
  (∀ (sin : Nat → F64 → F64) (c : Wave) (t dt a pw : F64),
    waveValue sin c t dt a pw = closedForm sin c (wrap t) (fabs dt) a (pulseWidth pw)) ∧
  (∀ (q : Nat) (site : Site) (x : F64), ∃ z, SameValue x z ∧ numSin q site x = Config.sin z) ∧
  ∀ (s : State) (c : Wave), ∃ y x,
    SameValue (waveValue (fun k => numSin s.free (.oscSine k)) c s.osc.t s.osc.dt s.osc.a s.osc.pw) y ∧
    SameValue (wrap (fadd s.osc.t s.osc.dt)) x ∧
    exec (waveCommandOf c) s = .next { s with
      osc := { s.osc with t := x }, host := { s.host with res0 := y, rtag := .value } } ∧
    (s.osc.wave = c → exec .oscRun s = exec (waveCommandOf c) s)

/-- 41_oscillator.md R143: away from its jump the sawtooth is the naive ramp `2t - 1` scaled by `a`. -/
def Obligations.SawIsTheNaiveRampAwayFromTheJump : Prop :=
  ∀ (s : State), flt fZero s.osc.t = true → flt s.osc.t fOne = true →
    fle (fabs s.osc.dt) s.osc.t = true → fle s.osc.t (fsub fOne (fabs s.osc.dt)) = true →
    ∃ t, exec .oscSaw s = .next t ∧
      SameValue (fmul s.osc.a (fsub (fmul fTwo s.osc.t) fOne)) t.host.res0

/-- 41_oscillator.md R121: a negative increment gets the corrections and the gain of the positive one. -/
def Obligations.TheSignOfTheIncrementDoesNotChangeTheSample : Prop :=
  (∀ (sin : Nat → F64 → F64) (c : Wave) (t dt a pw : F64),
    waveValue sin c t (fneg dt) a pw = waveValue sin c t dt a pw) ∧
  ∀ (s : State), ∃ t u, exec .oscSetinc s = .next t ∧
    exec .oscSetinc { s with host := { s.host with arg0 := fneg s.host.arg0 } } = .next u ∧
    u.osc.a = t.osc.a

/-- 41_oscillator.md R121, R125, R126: the three branches of each residual, the first winning; the residuals are 0
without an increment, and -1 and 1/3 at the jump. -/
def Obligations.ResidualsAtTheirLandmarks : Prop :=
  (∀ tau d : F64,
    (flt tau d = true →
      polyblep tau d = fsub (fadd (fneg (fmul (fdiv tau d) (fdiv tau d))) (fmul fTwo (fdiv tau d))) fOne ∧
      ∀ x, x = fsub (fdiv tau d) fOne → blamp tau d = fdiv (fneg (fmul (fmul x x) x)) fThree) ∧
    (flt tau d = false → fgt tau (fsub fOne d) = true →
      (∀ x, x = fdiv (fsub tau fOne) d → polyblep tau d = fadd (fadd (fmul x x) (fmul fTwo x)) fOne) ∧
      ∀ x, x = fadd (fdiv (fsub tau fOne) d) fOne → blamp tau d = fdiv (fmul (fmul x x) x) fThree) ∧
    (flt tau d = false → fgt tau (fsub fOne d) = false → polyblep tau d = fZero ∧ blamp tau d = fZero)) ∧
  (∀ tau : F64, inUnit tau = true → polyblep tau fZero = fZero ∧ blamp tau fZero = fZero) ∧
  (∀ d : F64, flt fZero d = true →
    polyblep fZero d = fMinusOne ∧ blamp fZero d = 0x3FD5555555555555#64)

/-- 41_oscillator.md R123: the three ranges of the gain, NaN with the last, and 1 at the threshold itself; and the
family of each waveform (30_encoding.md R87). -/
def Obligations.GainFollowsItsThresholds : Prop :=
  (∀ c : Wave, familyOf c = .saw ↔ c ∈ [Wave.square, .saw, .ramp, .rect, .stair]) ∧
  (∀ c : Wave, familyOf c = .sine ↔
    c ∈ [Wave.sine, .tri, .trap, .trappw, .tripulse, .hwrsine, .fwrsine, .circle, .hammond]) ∧
  ∀ (d : F64) (fam : Family) (lo hi : F64),
    (fam = .saw ∧ lo = 0x3FC999999999999A#64 ∧ hi = 0x3FD0000000000000#64) ∨
    (fam = .sine ∧ lo = 0x3FD0000000000000#64 ∧ hi = 0x3FE0000000000000#64) →
    (fle d lo = true → gain d fam = 0x3FF0000000000000#64) ∧
    (flt lo d = true → flt d hi = true → gain d fam = fdiv (fsub hi d) (fsub hi lo)) ∧
    (fle hi d = true → gain d fam = 0#64) ∧
    (isNaN d = true → gain d fam = 0#64) ∧
    fdiv (fsub hi lo) (fsub hi lo) = 0x3FF0000000000000#64

/-- 10_state.md R28: the gain the rules write lies in [0, 1], whatever the increment. -/
def Obligations.GainLiesInTheUnitInterval : Prop :=
  ∀ (d : F64) (fam : Family), fle fZero (gain d fam) = true ∧ fle (gain d fam) fOne = true

/-- 41_oscillator.md R120: the wrap of a finite value lies in [0, 1), and is the value itself there. -/
def Obligations.WrapLandsInTheUnitInterval : Prop :=
  ∀ x : F64,
    (isFinite x = true → inUnit (wrap x) = true) ∧
    (inUnit x = true → feq (wrap x) x = true) ∧
    (isFinite x = false → isNaN (wrap x) = true)

/-- 41_oscillator.md R127: the pulse width is clamped to [0.001, 1 - 0.001], NaN to 0.001. -/
def Obligations.PulseWidthIsClamped : Prop :=
  ∀ pw : F64,
    (flt pw 0x3F50624DD2F1A9FC#64 = true ∨ isNaN pw = true → pulseWidth pw = 0x3F50624DD2F1A9FC#64) ∧
    (fle 0x3F50624DD2F1A9FC#64 pw = true → fle pw (fsub fOne 0x3F50624DD2F1A9FC#64) = true →
      pulseWidth pw = pw) ∧
    (flt (fsub fOne 0x3F50624DD2F1A9FC#64) pw = true → pulseWidth pw = fsub fOne 0x3F50624DD2F1A9FC#64) ∧
    fle 0x3F50624DD2F1A9FC#64 (pulseWidth pw) = true ∧
    fle (pulseWidth pw) (fsub fOne 0x3F50624DD2F1A9FC#64) = true

/-! ### Envelope -/

/-- 42_envelope.md R180 to R184. -/
def Obligations.EnvSettingCommandsSetTheirCoefficients : Prop :=
  decode 0x20000000#32 = .ok .envSetatk ∧ decode 0x21000000#32 = .ok .envSetdec ∧
  decode 0x22000000#32 = .ok .envSetrel ∧ decode 0x23000000#32 = .ok .envSetsus ∧
  (∀ sr time : F64,
    (fgt time fZero = false → coef sr time = fOne) ∧
    (fgt time fZero = true →
      coef sr time = fdiv fOne (fadd (fmul (fmul 0x3FC999999999999A#64 time) sr) fOne))) ∧
  ∀ s : State,
    (∃ x, SameValue (coef s.sys.sr s.host.arg0) x ∧
      exec .envSetatk s = .next { s with
        env := { s.env with a := x }, host := { s.host with rtag := .none } }) ∧
    (∃ x, SameValue (coef s.sys.sr s.host.arg0) x ∧
      exec .envSetdec s = .next { s with
        env := { s.env with d := x }, host := { s.host with rtag := .none } }) ∧
    (∃ x, SameValue (coef s.sys.sr s.host.arg0) x ∧
      exec .envSetrel s = .next { s with
        env := { s.env with r := x }, host := { s.host with rtag := .none } }) ∧
    exec .envSetsus s = .next { s with
      env := { s.env with s := s.host.arg0 }, host := { s.host with rtag := .none } }

/-- 42_envelope.md R185, R186: both triggers, in every state, with and without a zero time. -/
def Obligations.EnvTriggersEnterTheirSegments : Prop :=
  decode 0x24000000#32 = .ok .envAttack ∧ decode 0x25000000#32 = .ok .envRelease ∧
  ∀ s : State,
    (fge s.env.a fOne = true → exec .envAttack s = .next { s with
      env := { s.env with scale := s.host.arg0, env := s.host.arg0, state := .decay }
      host := { s.host with rtag := .none } }) ∧
    (fge s.env.a fOne = false → exec .envAttack s = .next { s with
      env := { s.env with scale := s.host.arg0, state := .attack }
      host := { s.host with rtag := .none } }) ∧
    (flt s.env.r fOne = true → exec .envRelease s = .next { s with
      env := { s.env with state := .release }, host := { s.host with rtag := .none } }) ∧
    (flt s.env.r fOne = false → exec .envRelease s = .next { s with
      env := { s.env with state := .idle, env := fZero }, host := { s.host with rtag := .none } })

/-- 42_envelope.md R187 to R192: the five segments, each integrating first and testing its exit then. -/
def Obligations.EnvStepIntegratesThenTestsItsExit : Prop :=
  decode 0x26000000#32 = .ok .envStep ∧
  ∀ s : State,
    ((s.env.state = .idle ∨ s.env.state = .sustain) →
      exec .envStep s = .next { s with host := { s.host with
        res0 := s.env.env, res1 := (if s.env.state = .idle then 0#64 else 4#64), rtag := .value } }) ∧
    (s.env.state = .attack →
      ∃ v, SameValue (fadd s.env.env (fmul s.env.a (fsub s.env.scale s.env.env))) v ∧
        (fle (fabs (fsub v s.env.scale)) (fmul s.env.scale 0x3F7B993FE00D5376#64) = true →
          exec .envStep s = .next { s with
            env := { s.env with env := v, state := .decay }
            host := { s.host with res0 := v, res1 := 2#64, rtag := .value } }) ∧
        (fle (fabs (fsub v s.env.scale)) (fmul s.env.scale 0x3F7B993FE00D5376#64) = false →
          exec .envStep s = .next { s with
            env := { s.env with env := v }
            host := { s.host with res0 := v, res1 := 1#64, rtag := .value } })) ∧
    (s.env.state = .decay →
      ∃ v, SameValue (fadd s.env.env (fmul s.env.d (fsub (fmul s.env.scale s.env.s) s.env.env))) v ∧
        (fle (fabs (fsub v (fmul s.env.scale s.env.s))) (fmul s.env.scale 0x3EB0C6F7A0B5ED8D#64) = true →
          exec .envStep s = .next { s with
            env := { s.env with env := fmul s.env.scale s.env.s, state := .sustain }
            host := { s.host with res0 := fmul s.env.scale s.env.s, res1 := 4#64, rtag := .value } }) ∧
        (fle (fabs (fsub v (fmul s.env.scale s.env.s))) (fmul s.env.scale 0x3EB0C6F7A0B5ED8D#64) = false →
          exec .envStep s = .next { s with
            env := { s.env with env := v }
            host := { s.host with res0 := v, res1 := 2#64, rtag := .value } })) ∧
    (s.env.state = .release →
      ∃ v, SameValue (fadd s.env.env (fmul s.env.r (fsub fZero s.env.env))) v ∧
        (fle (fabs v) (fmul s.env.scale 0x3EB0C6F7A0B5ED8D#64) = true →
          exec .envStep s = .next { s with
            env := { s.env with env := fZero, state := .idle }
            host := { s.host with res0 := fZero, res1 := 0#64, rtag := .value } }) ∧
        (fle (fabs v) (fmul s.env.scale 0x3EB0C6F7A0B5ED8D#64) = false →
          exec .envStep s = .next { s with
            env := { s.env with env := v }
            host := { s.host with res0 := v, res1 := 8#64, rtag := .value } }))

/-- 42_envelope.md R185 to R192, over all commands: only these move the segment, and a step only along
Attack, Decay, Sustain and from Release to Idle. -/
def Obligations.OnlyTheseCommandsMoveTheSegment : Prop :=
  ∀ (i : Instr) (s t : State), exec i s = .next t → t.env.state ≠ s.env.state →
    (i = .envAttack ∨ i = .envRelease ∨ i = .wrreg 0x0020#16 ∨ i = .reset ∨ i = .synTick) ∨
    (i = .envStep ∧
      ((s.env.state = .attack ∧ t.env.state = .decay) ∨ (s.env.state = .decay ∧ t.env.state = .sustain) ∨
        (s.env.state = .release ∧ t.env.state = .idle)))

/-- 42_envelope.md R180, D24: a coefficient of a positive rate lies in (0, 1] unless the product overflows. -/
def Obligations.CoefficientsLieInTheUnitInterval : Prop :=
  ∀ sr time : F64, isFinite sr = true → flt fZero sr = true →
    (fgt time fZero = true → isFinite (fmul (fmul fFifth time) sr) = true) →
    flt fZero (coef sr time) = true ∧ fle (coef sr time) fOne = true

/-! ### Noise -/

/-- 43_noise.md R200 to R202: the fold into the seed domain, the Lehmer step, and the domain kept. -/
def Obligations.TheSeedStaysInItsDomain : Prop :=
  decode 0x30000000#32 = .ok .nzInit ∧ decode 0x31000000#32 = .ok .nzLcg ∧
  ∀ s : State,
    (∃ t, exec .nzInit s = .next t ∧
      t = { s with noise := { s.noise with seed := t.noise.seed }, host := { s.host with rtag := .none } } ∧
      t.noise.seed.toInt = (s.host.arg0.toInt - 1) % 2147483646 + 1 ∧ SeedLegal t.noise.seed ∧
      (1 ≤ s.host.arg0.toInt → s.host.arg0.toInt ≤ 2147483646 → t.noise.seed = s.host.arg0)) ∧
    (∃ t, exec .nzLcg s = .next t ∧
      t = { s with noise := { s.noise with seed := t.noise.seed }
                   host := { s.host with res0 := t.noise.seed, rtag := .value } } ∧
      t.noise.seed.toNat = s.noise.seed.toNat * 48271 % 2147483647 ∧
      (SeedLegal s.noise.seed → SeedLegal t.noise.seed))

/-- 43_noise.md R203: every colour draws exactly one white sample, so it advances the seed by one step. -/
def Obligations.EveryColourAdvancesTheSeedByOneStep : Prop :=
  ∀ (c : Colour) (s : State), ∃ t, exec (colourCommandOf c) s = .next t ∧
    t.noise.seed.toNat = s.noise.seed.toNat * 48271 % 2147483647 ∧
    t.noise.rc = s.noise.rc ∧ t.noise.density = s.noise.density ∧
    t = { s with noise := t.noise, host := { s.host with res0 := t.host.res0, rtag := .value } }

/-- The white sample of a seed before its step, as 43_noise.md R200 and R204 write it. -/
def Sys2Proof.Machine.whiteAfter (seed : Word64) : F64 :=
  fsub (fmul (fdiv (fofInt (((seed.toNat * 48271 % 2147483647 : Nat) : Int) - 1)) 0x41DFFFFFFF400000#64) fTwo) fOne

/-- The seed after one Lehmer step (43_noise.md R200). -/
def Sys2Proof.Machine.seedAfter (seed : Word64) : Word64 := BitVec.ofNat 64 (seed.toNat * 48271 % 2147483647)

/-- 43_noise.md R210, R212, R214, R216: white, brown, violet and black. -/
def Obligations.WhiteBrownVioletAndBlackSamples : Prop :=
  ∀ s : State,
    exec .nzWhite s = .next { s with
      noise := { s.noise with seed := seedAfter s.noise.seed }
      host := { s.host with res0 := whiteAfter s.noise.seed, rtag := .value } } ∧
    (∃ lp, SameValue (fadd s.noise.lp (fmul (brownA s.sys.sr s.noise.rc)
        (fsub (whiteAfter s.noise.seed) s.noise.lp))) lp ∧
      exec .nzBrown s = .next { s with
        noise := { s.noise with seed := seedAfter s.noise.seed, lp := lp }
        host := { s.host with res0 := lp, rtag := .value } }) ∧
    (∃ y, SameValue (fsub (whiteAfter s.noise.seed) s.noise.violetPrev) y ∧
      exec .nzViolet s = .next { s with
        noise := { s.noise with seed := seedAfter s.noise.seed, violetPrev := whiteAfter s.noise.seed }
        host := { s.host with res0 := y, rtag := .value } }) ∧
    exec .nzBlack s = .next { s with
      noise := { s.noise with seed := seedAfter s.noise.seed }
      host := { s.host with
        res0 := (if flt (fabs (whiteAfter s.noise.seed)) (fsub fOne s.noise.density) then fZero
          else whiteAfter s.noise.seed)
        rtag := .value } }

/-- 43_noise.md R205, R207, R211, R213, R215: pink, blue and grey with their filter memories. -/
def Obligations.PinkBlueAndGreySamples : Prop :=
  ∀ s : State,
    let w := whiteAfter s.noise.seed
    let b0 := fadd (fmul 0x3FEFECBFB15B573F#64 s.noise.b0) (fmul w 0x3FB95B1422CCB3A2#64)
    let b1 := fadd (fmul 0x3FEED0E560418937#64 s.noise.b1) (fmul w 0x3FD2FA1FEC2E91E4#64)
    let b2 := fadd (fmul 0x3FE23D70A3D70A3D#64 s.noise.b2) (fmul w 0x3FF0D7D2D5248A23#64)
    let p := fadd (fadd (fadd b0 b1) b2) (fmul w 0x3FC7A786C226809D#64)
    let y := fadd (fmul Config.greyLsB0 w) s.noise.lsZ1
    let z := fadd (fmul Config.greyPkB0 y) s.noise.pkZ1
    (∃ v0 v1 v2 v, SameValue b0 v0 ∧ SameValue b1 v1 ∧ SameValue b2 v2 ∧ SameValue p v ∧
      exec .nzPink s = .next { s with
        noise := { s.noise with seed := seedAfter s.noise.seed, b0 := v0, b1 := v1, b2 := v2 }
        host := { s.host with res0 := v, rtag := .value } }) ∧
    (∃ v0 v1 v2 q v, SameValue b0 v0 ∧ SameValue b1 v1 ∧ SameValue b2 v2 ∧ SameValue p q ∧
      SameValue (fsub p s.noise.bluePrev) v ∧
      exec .nzBlue s = .next { s with
        noise := { s.noise with seed := seedAfter s.noise.seed, b0 := v0, b1 := v1, b2 := v2, bluePrev := q }
        host := { s.host with res0 := v, rtag := .value } }) ∧
    (∃ l1 l2 p1 p2 v,
      SameValue (fadd (fsub (fmul Config.greyLsB1 w) (fmul Config.greyLsA1 y)) s.noise.lsZ2) l1 ∧
      SameValue (fsub (fmul Config.greyLsB2 w) (fmul Config.greyLsA2 y)) l2 ∧
      SameValue (fadd (fsub (fmul Config.greyPkB1 y) (fmul Config.greyPkA1 z)) s.noise.pkZ2) p1 ∧
      SameValue (fsub (fmul Config.greyPkB2 y) (fmul Config.greyPkA2 z)) p2 ∧
      SameValue z v ∧
      exec .nzGrey s = .next { s with
        noise := { s.noise with
          seed := seedAfter s.noise.seed, lsZ1 := l1, lsZ2 := l2, pkZ1 := p1, pkZ2 := p2 }
        host := { s.host with res0 := v, rtag := .value } })

/-- 43_noise.md R204: over the seed domain white lies in the closed interval [-1, 1], and reaches both ends. -/
def Obligations.WhiteLiesInTheClosedInterval : Prop :=
  (∀ s : State, SeedLegal s.noise.seed →
    ∃ t, exec .nzWhite s = .next t ∧
      fle fMinusOne t.host.res0 = true ∧ fle t.host.res0 fOne = true) ∧
  ∀ s : State,
    (s.noise.seed = 1899818559#64 → ∃ t, exec .nzWhite s = .next t ∧ t.host.res0 = fMinusOne) ∧
    (s.noise.seed = 247665088#64 → ∃ t, exec .nzWhite s = .next t ∧ t.host.res0 = fOne)

/-- 43_noise.md R216: a density of 1 or more, and a NaN density, pass every sample. -/
def Obligations.FullDensityMakesBlackEqualWhite : Prop :=
  ∀ s : State, (fle fOne s.noise.density = true ∨ isNaN s.noise.density = true) →
    ∃ t u, exec .nzBlack s = .next t ∧ exec .nzWhite s = .next u ∧ t.host.res0 = u.host.res0

/-- 43_noise.md R206, R217, R218: the settings are stored as written; a time constant that is not positive
counts as none set. -/
def Obligations.NoiseSettingsAreStoredAsWritten : Prop :=
  decode 0x33000000#32 = .ok .nzSetrc ∧ decode 0x34000000#32 = .ok .nzSetdens ∧
  ∀ s : State,
    exec .nzSetrc s = .next { s with
      noise := { s.noise with rc := s.host.arg0 }, host := { s.host with rtag := .none } } ∧
    exec .nzSetdens s = .next { s with
      noise := { s.noise with density := s.host.arg0 }, host := { s.host with rtag := .none } } ∧
    (∀ sr rc : F64,
      (fgt rc fZero = true → brownA sr rc = fdiv fOne (fadd (fmul rc sr) fOne)) ∧
      (fgt rc fZero = false → brownA sr rc = fdiv fOne (fadd (fmul 0x3F80CB295E9E1B09#64 sr) fOne)))

/-! ### Voice table -/

/-- 44_voice_table.md R233, R237 to R239: the commands that name rows and change none. -/
def Obligations.RowReferenceCommandsNameRows : Prop :=
  decode 0x44000000#32 = .ok .vtFirst ∧ decode 0x45000000#32 = .ok .vtLast ∧
  ∀ s : State,
    let found := fun (v : Word64) => { s with host := { s.host with res0 := v, rtag := .value } }
    let notFound := { s with host := { s.host with res0 := 0xFFFFFFFFFFFFFFFF#64, rtag := .notfound } }
    (NamesRow s.host.arg0 s.table → exec .vtGet s = .next (found s.host.arg0)) ∧
    (0 < s.table.count → exec .vtFirst s = .next (found 0#64)) ∧
    (s.table.count = 0 → exec .vtFirst s = .next notFound) ∧
    (0 < s.table.count → exec .vtLast s = .next (found (BitVec.ofNat 64 (s.table.count - 1)))) ∧
    (s.table.count = 0 → exec .vtLast s = .next notFound) ∧
    (NamesRow s.host.arg0 s.table → s.host.arg0.toInt + 1 < (s.table.count : Int) →
      exec .vtNext s = .next (found (s.host.arg0 + 1#64))) ∧
    (NamesRow s.host.arg0 s.table → ¬ s.host.arg0.toInt + 1 < (s.table.count : Int) →
      exec .vtNext s = .next notFound)

/-- 44_voice_table.md R234: one row more at the end, the live rows before it unchanged. -/
def Obligations.VtAppendAddsARowAtTheEnd : Prop :=
  ∀ s : State, TableWf s.table → s.table.count < s.table.capacity →
    ∃ (r : VoiceRow) (table : Table),
      exec .vtAppend s = .next { s with
        table := table
        host := { s.host with res0 := BitVec.ofNat 64 s.table.count, rtag := .value } } ∧
      table.count = s.table.count + 1 ∧ table.capacity = s.table.capacity ∧
      liveRows table = liveRows s.table ++ [r]

/-- 44_voice_table.md R235, R245: a row opens at the index, the rows from there on move up by one. -/
def Obligations.VtInsertOpensARow : Prop :=
  ∀ s : State, TableWf s.table → s.table.count < s.table.capacity →
    0 ≤ s.host.arg0.toInt → s.host.arg0.toInt ≤ (s.table.count : Int) →
    ∃ (r : VoiceRow) (table : Table),
      exec .vtInsert s = .next { s with
        table := table, host := { s.host with res0 := s.host.arg0, rtag := .value } } ∧
      table.count = s.table.count + 1 ∧ table.capacity = s.table.capacity ∧
      liveRows table =
        (liveRows s.table).take s.host.arg0.toNat ++ r :: (liveRows s.table).drop s.host.arg0.toNat

/-- 44_voice_table.md R236, R245: the rows after the removed one close the gap, in their order. -/
def Obligations.VtRemoveClosesTheGap : Prop :=
  ∀ s : State, TableWf s.table → NamesRow s.host.arg0 s.table →
    ∃ table : Table,
      (s.host.arg0.toInt + 1 < (s.table.count : Int) →
        exec .vtRemove s = .next { s with
          table := table, host := { s.host with res0 := s.host.arg0, rtag := .value } }) ∧
      (¬ s.host.arg0.toInt + 1 < (s.table.count : Int) →
        exec .vtRemove s = .next { s with
          table := table, host := { s.host with res0 := 0xFFFFFFFFFFFFFFFF#64, rtag := .notfound } }) ∧
      table.count + 1 = s.table.count ∧ table.capacity = s.table.capacity ∧
      liveRows table = (liveRows s.table).eraseIdx s.host.arg0.toNat

/-- The comparison of 44_voice_table.md R240 in a column. -/
def Sys2Proof.Machine.ColumnEquals (c : Column) (v : Word64) (r : VoiceRow) : Prop :=
  match c with
  | .note => r.note = v
  | .phase => feq r.phase v = true
  | .dt => feq r.dt v = true

/-- 44_voice_table.md R240: the first matching live row at or after the start, else not found. -/
def Obligations.VtFindReturnsTheFirstMatch : Prop :=
  ∀ (s : State) (sel : BitVec 4) (c : Column), sel.toNat = columnCode c →
    let notFound := { s with host := { s.host with res0 := 0xFFFFFFFFFFFFFFFF#64, rtag := .notfound } }
    (s.host.arg1.toInt = -1 → exec (.vtFind sel) s = .next notFound) ∧
    (0 ≤ s.host.arg1.toInt → s.host.arg1.toInt ≤ (s.table.count : Int) →
      (∀ j, s.host.arg1.toNat ≤ j → j < s.table.count → ColumnEquals c s.host.arg0 (rowAt s.table j) →
        (∀ k, s.host.arg1.toNat ≤ k → k < j → ¬ ColumnEquals c s.host.arg0 (rowAt s.table k)) →
        exec (.vtFind sel) s = .next { s with
          host := { s.host with res0 := BitVec.ofNat 64 j, rtag := .value } }) ∧
      ((∀ k, s.host.arg1.toNat ≤ k → k < s.table.count → ¬ ColumnEquals c s.host.arg0 (rowAt s.table k)) →
        exec (.vtFind sel) s = .next notFound))

/-- 44_voice_table.md R242 to R244: clear, and one field read or written as its 64 bits. -/
def Obligations.VtClearReadAndWriteFields : Prop :=
  ∀ (s : State) (sel : BitVec 4) (c : Column), sel.toNat = columnCode c →
    exec .vtClear s = .next { s with
      table := { s.table with count := 0 }, host := { s.host with rtag := .none } } ∧
    (NamesRow s.host.arg0 s.table →
      exec (.vtRdf sel) s = .next { s with
        host := { s.host with res0 := fieldOf c (rowAt s.table s.host.arg0.toNat), rtag := .value } } ∧
      (TableWf s.table → ∃ table : Table,
        exec (.vtWrf sel) s = .next { s with table := table, host := { s.host with rtag := .none } } ∧
        table.count = s.table.count ∧ table.capacity = s.table.capacity ∧
        fieldOf c (rowAt table s.host.arg0.toNat) = s.host.arg1 ∧
        (∀ c', c' ≠ c → fieldOf c' (rowAt table s.host.arg0.toNat) =
          fieldOf c' (rowAt s.table s.host.arg0.toNat)) ∧
        ∀ k, k < s.table.count → k ≠ s.host.arg0.toNat → rowAt table k = rowAt s.table k))

/-- 44_voice_table.md R245, over all commands: no other command changes the table. -/
def Obligations.OnlyTableCommandsChangeTheTable : Prop :=
  ∀ (i : Instr) (s t : State), exec i s = .next t → t.table ≠ s.table →
    i = .vtAppend ∨ i = .vtInsert ∨ i = .vtRemove ∨ i = .vtClear ∨ (∃ sel, i = .vtWrf sel) ∨
      i = .synTick ∨ i = .reset

/-! ### Event queue -/

/-- 45_event_queue.md R262, R264: rewind; a push stores the masked entry at the tail or is dropped. -/
def Obligations.EqRewindAndPush : Prop :=
  decode 0x50000000#32 = .ok .eqRewind ∧ decode 0x51000000#32 = .ok .eqPush ∧
  ∀ s : State,
    exec .eqRewind s = .next { s with
      queue := { s.queue with head := 0, tail := 0, counter := 0 }, host := { s.host with rtag := .none } } ∧
    (s.queue.capacity ≤ s.queue.tail →
      exec .eqPush s = .next { s with host := { s.host with rtag := .none } }) ∧
    (QueueWf s.queue → s.queue.tail < s.queue.capacity → ∃ q : Queue,
      exec .eqPush s = .next { s with queue := q, host := { s.host with rtag := .none } } ∧
      q.tail = s.queue.tail + 1 ∧ q.head = s.queue.head ∧ q.counter = s.queue.counter ∧
      q.capacity = s.queue.capacity ∧
      (∀ k, k ≠ s.queue.tail → eventAt q k = eventAt s.queue k) ∧
      (eventAt q s.queue.tail).offset = s.host.arg0 ∧
      (eventAt q s.queue.tail).status.toNat = s.host.arg1.toNat % 256 ∧
      (eventAt q s.queue.tail).packed.toNat = s.host.arg2.toNat % 256 + 256 * (s.host.arg3.toNat % 256))

/-- 45_event_queue.md R260, R261, R263: the head entry when it is pending and has arrived; else the counter
advances, up to 2^63 - 1, and `RES1` to `RES3` keep their values. -/
def Obligations.EqPopIsGatedByTheCounter : Prop :=
  decode 0x52000000#32 = .ok .eqPop ∧
  ∀ s : State,
    let e := eventAt s.queue s.queue.head
    let visible := s.queue.head < s.queue.tail ∧ e.offset.toInt ≤ (s.queue.counter : Int)
    (visible → exec .eqPop s = .next { s with
      queue := { s.queue with head := s.queue.head + 1 }
      host := { s.host with
        res0 := e.offset
        res1 := BitVec.ofNat 64 e.status.toNat
        res2 := BitVec.ofNat 64 (e.packed.toNat % 256)
        res3 := BitVec.ofNat 64 (e.packed.toNat / 256)
        rtag := .value } }) ∧
    (¬ visible → exec .eqPop s = .next { s with
      queue := { s.queue with
        counter := if s.queue.counter < 9223372036854775807 then s.queue.counter + 1 else s.queue.counter }
      host := { s.host with res0 := 0xFFFFFFFFFFFFFFFF#64, rtag := .notfound } })

/-! ### Voice loop -/

/-- The voices of a mode, in ascending order (46_voice_loop.md R289): all, the last, or the first. -/
def Sys2Proof.Machine.selectedVoices (mode : VoiceMode) (count : Nat) : List Nat :=
  match mode with
  | .poly => List.range count
  | .monoNewest => (List.range count).drop (count - 1)
  | .monoOldest => (List.range count).take 1

/-- 46_voice_loop.md R280, R288 to R291: drain, envelope, noise, voices, output, in that order. Without an
arrived event the output is written out: `e` is what `ENV.STEP` gives, the noise factor is 1.0 or what the colour's
command gives, and each voice adds `(e * y) * nf`, y being W_c of its own phase and increment, with the gain of that
increment. A NaN phase or increment then makes the output NaN in the waveforms listed. Two clauses rest on the model's
choice between rules that differ: what a NaN phase or increment gives in the waveforms not listed is what R290 computes,
where 70_reset_and_hazards.md R339 says NaN (log 22), and a brown noise factor reads `SR` (log 13). -/
def Obligations.SynTickRendersAfterTheDrain : Prop :=
  decode 0x60000000#32 = .ok .synTick ∧
  (∀ (s u : State) (nf : F64), TableWf s.table → headVisible s.queue = false →
    exec .envStep s = .next u →
    (s.syn.noise = none → nf = fOne) →
    (∀ c, s.syn.noise = some c → ∃ v, exec (colourCommandOf c) s = .next v ∧ nf = v.host.res0) →
    let voices := selectedVoices s.syn.mode s.table.count
    let y := fun i => waveValue (fun k => numSin s.free (.voiceSine i k)) s.osc.wave
      (rowAt s.table i).phase (rowAt s.table i).dt
      (gain (fabs (rowAt s.table i).dt) (familyOf s.osc.wave)) s.osc.pw
    ∃ t, exec .synTick s = .next t ∧
      SameValue (fmul (voices.foldl (fun acc i => fadd acc (fmul (fmul u.host.res0 (y i)) nf)) fZero) s.syn.vol)
        t.host.res0 ∧
      ∀ i ∈ voices,
        ((isNaN (rowAt s.table i).phase = true ∧ s.osc.wave ∈ [Wave.tri, .saw, .ramp, .trap, .trappw, .circle]) ∨
          (isNaN (rowAt s.table i).dt = true ∧
            s.osc.wave ∈ [Wave.tri, .trap, .trappw, .tripulse, .hwrsine, .fwrsine])) →
        isNaN t.host.res0 = true) ∧
  ∀ s : State,
    let d := drain s
    let e := envStep d.free d.env
    let drawn := noiseFactor d
    let sum := renderVoices d.free d.osc e.env drawn.1 (voicesOf d.syn.mode d.table.count) fZero d.table
    ∃ out, SameValue (fmul sum.1 s.syn.vol) out ∧
      exec .synTick s = .next { s with
        env := e, noise := drawn.2, table := sum.2, queue := d.queue
        syn := { s.syn with outL := out, outR := out }
        host := { s.host with res0 := out, rtag := .value } }

/-- 46_voice_loop.md R281: a tick with an arrived event is the tick after that event is popped and handled, so
every arrived event is handled, in order; every tick does exactly one none-pop, and leaves no visible event. -/
def Obligations.ATickDrainsAndCountsOnce : Prop :=
  (∀ s : State, s.queue.head < s.queue.tail →
    (eventAt s.queue s.queue.head).offset.toInt ≤ (s.queue.counter : Int) →
    exec .synTick s = exec .synTick (handleEvent s.queue.head (eventAt s.queue s.queue.head)
      { s with queue := { s.queue with head := s.queue.head + 1 } })) ∧
  ∀ s : State, ∃ t, exec .synTick s = .next t ∧
    t.queue.counter = (if s.queue.counter < 9223372036854775807 then s.queue.counter + 1 else s.queue.counter) ∧
    t.queue.tail = s.queue.tail ∧ t.queue.capacity = s.queue.capacity ∧ t.queue.ev = s.queue.ev ∧
    s.queue.head ≤ t.queue.head ∧
    (s.queue.head ≤ s.queue.tail → t.queue.head ≤ t.queue.tail) ∧
    (t.queue.head < t.queue.tail →
      (s.queue.counter : Int) < (eventAt s.queue t.queue.head).offset.toInt) ∧
    ∀ k, s.queue.head ≤ k → k < t.queue.head →
      (eventAt s.queue k).offset.toInt ≤ (s.queue.counter : Int)

/-- 46_voice_loop.md R292: what a tick leaves alone. -/
def Obligations.ATickLeavesTheseRegistersAlone : Prop :=
  ∀ s : State, ∃ t, exec .synTick s = .next t ∧
    t.osc = s.osc ∧ t.sys = s.sys ∧
    t.host.arg0 = s.host.arg0 ∧ t.host.arg1 = s.host.arg1 ∧ t.host.arg2 = s.host.arg2 ∧
    t.host.arg3 = s.host.arg3 ∧ t.host.res1 = s.host.res1 ∧ t.host.res2 = s.host.res2 ∧
    t.host.res3 = s.host.res3 ∧
    t.syn.mode = s.syn.mode ∧ t.syn.vol = s.syn.vol ∧ t.syn.noise = s.syn.noise ∧ t.syn.pitch = s.syn.pitch ∧
    t.table.capacity = s.table.capacity

/-- 46_voice_loop.md R289, R290: without a visible event the rendered voices advance by their own increment
and every other row keeps its phase. -/
def Obligations.OnlyTheSelectedVoicesAdvance : Prop :=
  ∀ s : State, TableWf s.table → headVisible s.queue = false → 0 < s.table.count →
    ∃ t, exec .synTick s = .next t ∧ t.table.count = s.table.count ∧
      ∀ k, k < s.table.count →
        (rowAt t.table k).note = (rowAt s.table k).note ∧ (rowAt t.table k).dt = (rowAt s.table k).dt ∧
        ((s.syn.mode = .poly ∨ (s.syn.mode = .monoNewest ∧ k + 1 = s.table.count) ∨
            (s.syn.mode = .monoOldest ∧ k = 0)) →
          SameValue (wrap (fadd (rowAt s.table k).phase (rowAt s.table k).dt)) (rowAt t.table k).phase) ∧
        (((s.syn.mode = .monoNewest ∧ k + 1 < s.table.count) ∨ (s.syn.mode = .monoOldest ∧ 0 < k)) →
          rowAt t.table k = rowAt s.table k)

/-- 46_voice_loop.md R280: a tick without a live voice outputs `0.0 * SYN_VOL`; the envelope and the noise
still advance. -/
def Obligations.AnEmptyTickIsSilent : Prop :=
  ∀ s : State, headVisible s.queue = false → s.table.count = 0 →
    ∃ t, exec .synTick s = .next t ∧
      SameValue (fmul fZero s.syn.vol) t.host.res0 ∧ t.syn.outL = t.host.res0 ∧ t.syn.outR = t.host.res0 ∧
      t.table = s.table ∧ t.env = envStep s.free s.env ∧
      (∀ c, s.syn.noise = some c → t.noise.seed.toNat = s.noise.seed.toNat * 48271 % 2147483647)

/-- 46_voice_loop.md R282 to R284: a note-on appends its row, stealing row 0 of a full table, and triggers the
attack with `v / 127`. -/
def Obligations.ANoteOnAppendsARow : Prop :=
  ∀ (entry : Nat) (e : Event) (s : State), TableWf s.table →
    e.status.toNat / 16 = 9 → 0 < e.packed.toNat / 256 →
    ∃ (dt : F64) (table : Table),
      SameValue (fdiv (fmul (fmul 0x407B800000000000#64
        (Config.exp2 (fdiv (fofInt (((e.packed.toNat % 256 : Nat) : Int) - 69)) 0x4028000000000000#64)))
        s.syn.pitch) s.sys.sr) dt ∧
      handleEvent entry e s = { s with
        table := table
        env := triggerAttack (fdiv (fofInt ((e.packed.toNat / 256 : Nat) : Int)) 0x405FC00000000000#64) s.env } ∧
      table.capacity = s.table.capacity ∧
      table.count = (if s.table.count = s.table.capacity then s.table.count else s.table.count + 1) ∧
      liveRows table =
        (if s.table.count = s.table.capacity then (liveRows s.table).drop 1 else liveRows s.table) ++
          [{ note := BitVec.ofNat 64 (e.packed.toNat % 256), phase := fZero, dt := dt }]

/-- 46_voice_loop.md R282, R285, R287: note-off removes the first row of its note and releases with the last
row; all-notes-off empties and releases; anything else is ignored. -/
def Obligations.NoteOffAllNotesOffAndIgnoredEvents : Prop :=
  ∀ (entry : Nat) (e : Event) (s : State), TableWf s.table →
    let note := BitVec.ofNat 64 (e.packed.toNat % 256)
    let isOff := e.status.toNat / 16 = 8 ∨ (e.status.toNat / 16 = 9 ∧ e.packed.toNat / 256 = 0)
    let isOn := e.status.toNat / 16 = 9 ∧ 0 < e.packed.toNat / 256
    let isAllOff := e.status.toNat / 16 = 11 ∧ e.packed.toNat % 256 = 123
    (isOff → (∀ k, k < s.table.count → (rowAt s.table k).note ≠ note) → handleEvent entry e s = s) ∧
    (isOff → ∀ j, j < s.table.count → (rowAt s.table j).note = note →
      (∀ k, k < j → (rowAt s.table k).note ≠ note) →
      ∃ table : Table,
        handleEvent entry e s = { s with
          table := table, env := if s.table.count = 1 then triggerRelease s.env else s.env } ∧
        table.count + 1 = s.table.count ∧ table.capacity = s.table.capacity ∧
        liveRows table = (liveRows s.table).eraseIdx j) ∧
    (isAllOff → handleEvent entry e s = { s with
      table := { s.table with count := 0 }, env := triggerRelease s.env }) ∧
    (¬ isOn → ¬ isOff → ¬ isAllOff → handleEvent entry e s = s)

/-- 46_voice_loop.md R283, R286, R288: one draw per tick when noise is on, none when it is off; no note event
touches the noise generator. -/
def Obligations.ATickDrawsNoiseOnce : Prop :=
  ∀ s : State, ∃ t, exec .synTick s = .next t ∧
    (s.syn.noise = none → t.noise = s.noise) ∧
    (s.syn.noise ≠ none → t.noise.seed.toNat = s.noise.seed.toNat * 48271 % 2147483647 ∧
      t.noise.rc = s.noise.rc ∧ t.noise.density = s.noise.density)

/-! ### The whole machine -/

/-- 10_state.md R37, 70_reset_and_hazards.md R330: the reset state satisfies every invariant. -/
def Obligations.ResetSatisfiesTheInvariants : Prop := Invariant State.reset

/-- 10_state.md R37: every step keeps the bounds of the table, the queue, the counter and the seed. -/
def Obligations.EveryStepKeepsTheInvariants : Prop :=
  ∀ s t : State, Invariant s → step s = .next t → Invariant t

/-- 10_state.md R37: phases stay in [0, 1) or NaN, except where the host writes one or a row is unwritten. -/
def Obligations.PhasesStayInTheUnitInterval : Prop :=
  ∀ (i : Instr) (s t : State), Invariant s →
    i ≠ .wrreg 0x0010#16 → i ≠ .vtWrf 1#4 → i ≠ .vtAppend → i ≠ .vtInsert →
    PhaseOk s.osc.t → (∀ r ∈ liveRows s.table, PhaseOk r.phase) → exec i s = .next t →
    PhaseOk t.osc.t ∧ ∀ r ∈ liveRows t.table, PhaseOk r.phase

/-- 10_state.md R22, R23, over all commands: only `RESET` writes an operand register, and a result register is
written only by the commands whose rule names it. -/
def Obligations.OperandAndResultRegistersAreKept : Prop :=
  ∀ (i : Instr) (s t : State), exec i s = .next t → i ≠ .reset →
    t.host.arg0 = s.host.arg0 ∧ t.host.arg1 = s.host.arg1 ∧ t.host.arg2 = s.host.arg2 ∧
    t.host.arg3 = s.host.arg3 ∧
    (t.host.res1 = s.host.res1 ∨ i = .envStep ∨ i = .eqPop) ∧
    (i ≠ .eqPop → t.host.res2 = s.host.res2 ∧ t.host.res3 = s.host.res3) ∧
    ((t.host.rtag = .none ∨ t.host.rtag = .fault) → t.host.res0 = s.host.res0) ∧
    (t.host.rtag = .notfound → t.host.res0 = 0xFFFFFFFFFFFFFFFF#64)

/-- 10_state.md R27, over all commands: only `WRREG STATUS` and `RESET` clear a `STATUS` bit. -/
def Obligations.StatusBitsAreSticky : Prop :=
  ∀ (i : Instr) (s t : State), exec i s = .next t → i ≠ .reset → i ≠ .wrreg 0x0000#16 →
    s.sys.status &&& t.sys.status = s.sys.status ∧
    (t.sys.status ≠ s.sys.status → t.host.rtag = .fault)

/-- 30_encoding.md R80, R86: the word of every well-formed command decodes to it. -/
def Obligations.DecodeOfEncodeIsTheCommand : Prop :=
  ∀ i : Instr, i.WellFormed = true →
    decode (encode i) = .ok i ∧ decodeTableWord 32 (encode i).toNat = some i

/-- 30_encoding.md R90, R91, D48: every word that decodes has one meaning, and it is that command's word. -/
def Obligations.EncodeOfDecodeIsTheWord : Prop :=
  ∀ (w : Word32) (i : Instr), decode w = .ok i → encode i = w ∧ i.WellFormed = true

/-- 30_encoding.md R87 to R89: words of each family, written out bit by bit from R80 and R86; and a word and a
register value carried as bytes, least significant first (20_memory.md R62). -/
def Obligations.TheseWordsDecodeToTheirCommands : Prop :=
  decodeBytes [0x00#8, 0x00#8, 0x03#8, 0x14#8] = .ok (.oscSetwave 3#4, []) ∧
  bytesOfRegister 0x0123456789ABCDEF#64 =
    [0xEF#8, 0xCD#8, 0xAB#8, 0x89#8, 0x67#8, 0x45#8, 0x23#8, 0x01#8] ∧
  registerOfBytes [0xEF#8, 0xCD#8, 0xAB#8, 0x89#8, 0x67#8, 0x45#8, 0x23#8, 0x01#8] =
    some (0x0123456789ABCDEF#64, []) ∧
  (∀ (v : Word64) (rest : List Byte), registerOfBytes (bytesOfRegister v ++ rest) = some (v, rest)) ∧
  decode 0b00000010_0000_0000_0000000000010011#32 = .ok (.rdreg 0x0013#16) ∧
  decode 0b00010100_0000_0011_0000000000000000#32 = .ok (.oscSetwave 3#4) ∧
  decode 0b00010111_0000_1100_0000000000000000#32 = .ok .oscHammond ∧
  decode 0b00100110_0000_0000_0000000000000000#32 = .ok .envStep ∧
  decode 0b00110010_0000_0110_0000000000000000#32 = .ok .nzGrey ∧
  decode 0b01001010_0000_0010_0000000000000000#32 = .ok (.vtWrf 2#4) ∧
  decode 0b01010010_0000_0000_0000000000000000#32 = .ok .eqPop ∧
  decode 0b01100000_0000_0000_0000000000000000#32 = .ok .synTick ∧
  decode 0b00010111_0001_0000_0000000000000000#32 = .error .rsv

/-- 00_scope.md R6, R7: a step whose next move issues a word is that word's command, on the state whose move list
has moved on and whose free-value counter has gone up by one. The list and the counter are the model's own
(log 1 and 3). -/
def Obligations.AStepRunsTheDecodedCommand : Prop :=
  ∀ (s : State) (w : Word32) (rest : List HostMove), s.input = .issue w :: rest →
    step s = issueWord w { s with input := rest, free := s.free + 1 } ∧
    ∀ i : Instr, decode w = .ok i → step s = exec i { s with input := rest, free := s.free + 1 }

/-- 00_scope.md R7, 30_encoding.md R92, 60_exceptions.md R313: the host's other moves write one operand
register and nothing else; without a move the machine is idle. The list of moves is the model's (log 1). -/
def Obligations.HostMovesWriteOneOperandRegister : Prop :=
  ∀ s : State,
    (s.input = [] → step s = .next s) ∧
    (∀ rest v, s.input = .li 2 v :: rest →
      step s = .next { s with input := rest, host := { s.host with arg2 := v } }) ∧
    (∀ rest, s.input = .mov 0 0 :: rest →
      step s = .next { s with input := rest, host := { s.host with arg0 := s.host.res0 } }) ∧
    (∀ (n m : Fin 4) v rest, (s.input = .li n v :: rest ∨ (s.input = .mov n m :: rest ∧ v = resOf s.host m)) →
      ∃ t, step s = .next t ∧ argOf t.host n = v ∧ (∀ k, k ≠ n → argOf t.host k = argOf s.host k) ∧
        (∀ k, resOf t.host k = resOf s.host k) ∧ t.host.rtag = s.host.rtag ∧
        t = { s with input := rest, host := t.host })

/-- 00_scope.md R10: of two finite values with a finite result, each operation gives a value at least as near
the exact one as any finite value is. -/
def Obligations.ArithmeticRoundsToANearestValue : Prop :=
  ∀ x y : F64, isFinite x = true → isFinite y = true →
    (isFinite (fadd x y) = true → ∀ z, isFinite z = true →
      |toRat (fadd x y) - (toRat x + toRat y)| ≤ |toRat z - (toRat x + toRat y)|) ∧
    (isFinite (fsub x y) = true → ∀ z, isFinite z = true →
      |toRat (fsub x y) - (toRat x - toRat y)| ≤ |toRat z - (toRat x - toRat y)|) ∧
    (isFinite (fmul x y) = true → ∀ z, isFinite z = true →
      |toRat (fmul x y) - toRat x * toRat y| ≤ |toRat z - toRat x * toRat y|) ∧
    (isZero y = false → isFinite (fdiv x y) = true → ∀ z, isFinite z = true →
      |toRat (fdiv x y) - toRat x / toRat y| ≤ |toRat z - toRat x / toRat y|)
end

