-- ==== Sys2Proof/Laws/Encoding.lean ====
section
/-! SUPPORT. The small lemmas of the command word: its four fields read back, a word is its fields, and what
`decode` answers says about them. -/

namespace Sys2Proof

theorem toNat_append_add {m n : Nat} (x : BitVec m) (y : BitVec n) :
    (x ++ y).toNat = x.toNat * 2 ^ n + y.toNat := by
  rw [BitVec.toNat_append, ← Nat.shiftLeft_add_eq_or_of_lt y.isLt, Nat.shiftLeft_eq]

theorem toNat_packWord (o : BitVec 8) (r s : BitVec 4) (m : BitVec 16) :
    (packWord o r s m).toNat = o.toNat * 2 ^ 24 + r.toNat * 2 ^ 20 + s.toNat * 2 ^ 16 + m.toNat := by
  unfold packWord
  rw [BitVec.toNat_cast, toNat_append_add, toNat_append_add, toNat_append_add]
  ring

theorem toNat_opcOf (w : Word32) : (opcOf w).toNat = w.toNat / 2 ^ 24 := by
  have h := w.isLt
  simp only [opcOf, BitVec.extractLsb'_toNat, Nat.shiftRight_eq_div_pow]
  omega

theorem toNat_rsvOf (w : Word32) : (rsvOf w).toNat = w.toNat / 2 ^ 20 % 2 ^ 4 := by
  simp only [rsvOf, BitVec.extractLsb'_toNat, Nat.shiftRight_eq_div_pow]

theorem toNat_selOf (w : Word32) : (selOf w).toNat = w.toNat / 2 ^ 16 % 2 ^ 4 := by
  simp only [selOf, BitVec.extractLsb'_toNat, Nat.shiftRight_eq_div_pow]

theorem toNat_immOf (w : Word32) : (immOf w).toNat = w.toNat % 2 ^ 16 := by
  simp only [immOf, BitVec.extractLsb'_toNat, Nat.shiftRight_eq_div_pow, Nat.pow_zero, Nat.div_one]

@[simp] theorem opcOf_packWord (o : BitVec 8) (r s : BitVec 4) (m : BitVec 16) :
    opcOf (packWord o r s m) = o := by
  have hr := r.isLt
  have hs := s.isLt
  have hm := m.isLt
  apply BitVec.eq_of_toNat_eq
  rw [toNat_opcOf, toNat_packWord]
  omega

@[simp] theorem rsvOf_packWord (o : BitVec 8) (r s : BitVec 4) (m : BitVec 16) :
    rsvOf (packWord o r s m) = r := by
  have hr := r.isLt
  have hs := s.isLt
  have hm := m.isLt
  apply BitVec.eq_of_toNat_eq
  rw [toNat_rsvOf, toNat_packWord]
  omega

@[simp] theorem selOf_packWord (o : BitVec 8) (r s : BitVec 4) (m : BitVec 16) :
    selOf (packWord o r s m) = s := by
  have hs := s.isLt
  have hm := m.isLt
  apply BitVec.eq_of_toNat_eq
  rw [toNat_selOf, toNat_packWord]
  omega

@[simp] theorem immOf_packWord (o : BitVec 8) (r s : BitVec 4) (m : BitVec 16) :
    immOf (packWord o r s m) = m := by
  have hm := m.isLt
  apply BitVec.eq_of_toNat_eq
  rw [toNat_immOf, toNat_packWord]
  omega

/-- A word is the pack of its four fields. -/
theorem packWord_fields (w : Word32) : packWord (opcOf w) (rsvOf w) (selOf w) (immOf w) = w := by
  have h := w.isLt
  apply BitVec.eq_of_toNat_eq
  rw [toNat_packWord, toNat_opcOf, toNat_rsvOf, toNat_selOf, toNat_immOf]
  omega

/-- What an accepted word's fields say (30_encoding.md R90). -/
theorem decode_ok {w : Word32} {i : Instr} (h : decode w = .ok i) :
    commandOf (opcOf w) (selOf w) (immOf w) = some (some i) ∧ rsvOf w = 0#4 ∧
      (immOf w = 0#16 ∨ usesImm i = true) := by
  unfold decode at h
  split at h
  · cases h
  · rename_i command hc
    split at h
    · rename_i hr
      split at h
      · cases h
      · split at h
        · rename_i hm
          cases h
          exact ⟨hc, hr, by simpa using hm⟩
        · cases h
    · cases h

/-- The decoder on the pack of four fields, from what the opcode map answers for them. -/
theorem decode_packWord {o : BitVec 8} {s : BitVec 4} {m : BitVec 16} {i : Instr}
    (h : commandOf o s m = some (some i)) (hm : m = 0#16 ∨ usesImm i = true) :
    decode (packWord o 0#4 s m) = .ok i := by
  have hm' : (decide (m = 0#16) || usesImm i) = true := by simpa using hm
  simp [decode, h, hm']

/-- The bytes of a word, least significant first, make the word again (20_memory.md R62). -/
theorem wordOfBytes_bytesOfWord (w : Word32) :
    wordOfBytes (w.extractLsb' 0 8) (w.extractLsb' 8 8) (w.extractLsb' 16 8) (w.extractLsb' 24 8) = w := by
  have h := w.isLt
  apply BitVec.eq_of_toNat_eq
  unfold wordOfBytes
  rw [BitVec.toNat_cast, toNat_append_add, toNat_append_add, toNat_append_add]
  simp only [BitVec.extractLsb'_toNat, Nat.shiftRight_eq_div_pow]
  omega

/-- The bytes of a register value make the value again (20_memory.md R62). -/
theorem registerOfBytes_bytesOfRegister (v : Word64) (rest : List Byte) :
    registerOfBytes (bytesOfRegister v ++ rest) = some (v, rest) := by
  have h : ((v.extractLsb' 32 32 ++ v.extractLsb' 0 32).cast rfl : Word64) = v := by
    have hv := v.isLt
    apply BitVec.eq_of_toNat_eq
    rw [BitVec.toNat_cast, toNat_append_add]
    simp only [BitVec.extractLsb'_toNat, Nat.shiftRight_eq_div_pow]
    omega
  simp only [bytesOfRegister, bytesOfWord, List.cons_append, List.nil_append, registerOfBytes,
    wordOfBytes_bytesOfWord, h]

/-- The byte entry reads what the decoder reads (20_memory.md R62). -/
theorem decodeTableWord_eq (w : Word32) :
    decodeTableWord 32 w.toNat = (match decode w with | .ok i => some i | .error _ => none) := by
  have h := w.isLt
  have hw : BitVec.ofNat 32 (w.toNat % 2 ^ 32) = w := by
    rw [Nat.mod_eq_of_lt h, BitVec.ofNat_toNat, BitVec.setWidth_eq]
  unfold decodeTableWord
  rw [hw, bytesOfWord]
  simp only [decodeBytes, wordOfBytes_bytesOfWord]
  cases decode w <;> rfl

end Sys2Proof
end

