-- ==== Sys2Proof/Laws/Float.lean ====
section
/-! SUPPORT. The small lemmas of binary64 patterns: the sign and magnitude of a packed, negated or absolute
value, the classes of a value, and the comparisons as an order of places (00_scope.md R10). -/

namespace Sys2Proof.Machine

theorem magBits_lt (x : F64) : magBits x < 2 ^ 63 := Nat.mod_lt _ (by decide)

theorem signBit_eq (x : F64) : signBit x = decide (2 ^ 63 ≤ x.toNat) := by
  rw [signBit, BitVec.msb_eq_decide]

/-- A pattern as a number: its magnitude, past 2^63 when the sign bit is set. -/
theorem toNat_eq (x : F64) : x.toNat = (if signBit x then 2 ^ 63 + magBits x else magBits x) := by
  have h := x.isLt
  simp only [signBit_eq, magBits, decide_eq_true_eq]
  split <;> omega

/-- A pattern is its sign and its magnitude. -/
theorem packF_signBit_magBits (x : F64) : packF (signBit x) (magBits x) = x := by
  apply BitVec.eq_of_toNat_eq
  have h := toNat_eq x
  have hx := x.isLt
  unfold packF
  rw [← h, BitVec.toNat_ofNat, Nat.mod_eq_of_lt hx]

theorem toNat_packF (sign : Bool) {m : Nat} (h : m < 2 ^ 63) :
    (packF sign m).toNat = (if sign then 2 ^ 63 + m else m) := by
  unfold packF
  rw [BitVec.toNat_ofNat]
  split <;> omega

@[simp] theorem magBits_packF (sign : Bool) {m : Nat} (h : m < 2 ^ 63) : magBits (packF sign m) = m := by
  rw [magBits, toNat_packF sign h]
  split <;> omega

@[simp] theorem signBit_packF (sign : Bool) {m : Nat} (h : m < 2 ^ 63) : signBit (packF sign m) = sign := by
  rw [signBit_eq, toNat_packF sign h]
  cases sign <;> simp; omega

/-- `fneg` turns the sign bit over. -/
theorem fneg_eq (x : F64) : fneg x = packF (!signBit x) (magBits x) := by
  apply BitVec.eq_of_getLsbD_eq
  intro i hi
  have hm := magBits_lt x
  rw [fneg, BitVec.getLsbD_xor, BitVec.getLsbD, BitVec.getLsbD, BitVec.getLsbD, toNat_packF _ hm]
  rw [show (0x8000000000000000#64 : BitVec 64).toNat = 2 ^ 63 from rfl, toNat_eq x, Nat.testBit_two_pow]
  by_cases hi63 : i = 63
  · subst hi63
    have ht : (2 ^ 63 + magBits x).testBit 63 = true := by
      rw [Nat.testBit_two_pow_add_eq, Nat.testBit_lt_two_pow hm]; rfl
    cases signBit x
    · simp only [Bool.false_eq_true, if_false, Bool.not_false, if_true, ht, Nat.testBit_lt_two_pow hm]; rfl
    · simp only [Bool.false_eq_true, if_false, Bool.not_true, if_true, ht, Nat.testBit_lt_two_pow hm]; rfl
  · have hlt : i < 63 := by omega
    cases signBit x <;> simp [Ne.symm hi63, Nat.testBit_two_pow_add_gt hlt]

@[simp] theorem magBits_fneg (x : F64) : magBits (fneg x) = magBits x := by
  rw [fneg_eq, magBits_packF _ (magBits_lt x)]

@[simp] theorem signBit_fneg (x : F64) : signBit (fneg x) = !signBit x := by
  rw [fneg_eq, signBit_packF _ (magBits_lt x)]

/-- `fabs` clears the sign bit (00_scope.md R10). -/
theorem fabs_eq (x : F64) : fabs x = packF false (magBits x) := by
  apply BitVec.eq_of_toNat_eq
  rw [toNat_packF false (magBits_lt x), fabs, BitVec.toNat_and]
  exact Nat.and_two_pow_sub_one_eq_mod x.toNat 63

@[simp] theorem magBits_fabs (x : F64) : magBits (fabs x) = magBits x := by
  rw [fabs_eq, magBits_packF _ (magBits_lt x)]

@[simp] theorem signBit_fabs (x : F64) : signBit (fabs x) = false := by
  rw [fabs_eq, signBit_packF _ (magBits_lt x)]

/-- The sign of a value does not show in its magnitude (41_oscillator.md R121). -/
@[simp] theorem fabs_fneg (x : F64) : fabs (fneg x) = fabs x := by
  rw [fabs_eq, fabs_eq, magBits_fneg]

@[simp] theorem isNaN_fneg (x : F64) : isNaN (fneg x) = isNaN x := by simp [isNaN]
@[simp] theorem isNaN_fabs (x : F64) : isNaN (fabs x) = isNaN x := by simp [isNaN]
@[simp] theorem isFinite_fneg (x : F64) : isFinite (fneg x) = isFinite x := by simp [isFinite]
@[simp] theorem isFinite_fabs (x : F64) : isFinite (fabs x) = isFinite x := by simp [isFinite]
@[simp] theorem isZero_fneg (x : F64) : isZero (fneg x) = isZero x := by simp [isZero]
@[simp] theorem units_fneg (x : F64) : units (fneg x) = units x := by simp [units]
@[simp] theorem units_fabs (x : F64) : units (fabs x) = units x := by simp [units]

/-- A finite value is neither NaN nor an infinity. -/
theorem isNaN_isInf_of_isFinite {x : F64} (h : isFinite x = true) : isNaN x = false ∧ isInf x = false := by
  simp only [isFinite, isNaN, isInf, decide_eq_true_eq, decide_eq_false_iff_not] at *
  omega

/-- A rounded magnitude is never past the infinity, so it packs whole. -/
theorem roundUnits_le (n d : Nat) : roundUnits n d ≤ infMag := Nat.min_le_right _ _

theorem roundUnits_lt (n d : Nat) : roundUnits n d < 2 ^ 63 :=
  Nat.lt_of_le_of_lt (roundUnits_le n d) (by decide)

/-- A packed rounding is never NaN (00_scope.md R10). -/
theorem isNaN_packF_roundUnits (sign : Bool) (n d : Nat) : isNaN (packF sign (roundUnits n d)) = false := by
  rw [isNaN, magBits_packF _ (roundUnits_lt n d), decide_eq_false_iff_not]
  exact Nat.not_lt_of_le (roundUnits_le n d)

/-! ### Comparisons -/

theorem fle_iff (x y : F64) :
    fle x y = true ↔ isNaN x = false ∧ isNaN y = false ∧ orderOf x ≤ orderOf y := by
  simp [fle, and_assoc]

theorem flt_iff (x y : F64) :
    flt x y = true ↔ isNaN x = false ∧ isNaN y = false ∧ orderOf x < orderOf y := by
  simp [flt, and_assoc]

theorem feq_iff (x y : F64) :
    feq x y = true ↔ isNaN x = false ∧ isNaN y = false ∧ orderOf x = orderOf y := by
  simp [feq, and_assoc]

/-- Every comparison with NaN is false (00_scope.md R10). -/
theorem compare_nan_left {x : F64} (h : isNaN x = true) (y : F64) :
    fle x y = false ∧ flt x y = false ∧ feq x y = false := by
  simp [fle, flt, feq, h]

/-- Every comparison with NaN is false (00_scope.md R10). -/
theorem compare_nan_right {y : F64} (h : isNaN y = true) (x : F64) :
    fle x y = false ∧ flt x y = false ∧ feq x y = false := by
  simp [fle, flt, feq, h]

/-- Of two values that are not NaN, one is below the other or they are equal. -/
theorem fle_total {x y : F64} (hx : isNaN x = false) (hy : isNaN y = false) :
    fle x y = true ∨ flt y x = true := by
  rcases Int.lt_or_le (orderOf y) (orderOf x) with h | h
  · exact Or.inr ((flt_iff y x).2 ⟨hy, hx, h⟩)
  · exact Or.inl ((fle_iff x y).2 ⟨hx, hy, h⟩)

/-! ### A NaN operand makes the result a NaN -/

@[simp] theorem isNaN_nanMade : isNaN nanMade = true := by decide

theorem isNaN_fadd_left {x : F64} (h : isNaN x = true) (y : F64) : isNaN (fadd x y) = true := by simp [fadd, h]
theorem isNaN_fadd_right {y : F64} (h : isNaN y = true) (x : F64) : isNaN (fadd x y) = true := by simp [fadd, h]
theorem isNaN_fmul_left {x : F64} (h : isNaN x = true) (y : F64) : isNaN (fmul x y) = true := by simp [fmul, h]
theorem isNaN_fmul_right {y : F64} (h : isNaN y = true) (x : F64) : isNaN (fmul x y) = true := by simp [fmul, h]

end Sys2Proof.Machine
end

