-- ==== Sys2Proof/Laws/State.lean ====
section
/-! SUPPORT. One lemma per field per update of a record, true by unfolding, so that no later proof unfolds a
record update. -/

namespace Sys2Proof.Machine

/-! ### Returning a result -/

@[simp] theorem retNone_sys (s : State) : (retNone s).sys = s.sys := rfl
@[simp] theorem retNone_osc (s : State) : (retNone s).osc = s.osc := rfl
@[simp] theorem retNone_env (s : State) : (retNone s).env = s.env := rfl
@[simp] theorem retNone_noise (s : State) : (retNone s).noise = s.noise := rfl
@[simp] theorem retNone_table (s : State) : (retNone s).table = s.table := rfl
@[simp] theorem retNone_queue (s : State) : (retNone s).queue = s.queue := rfl
@[simp] theorem retNone_syn (s : State) : (retNone s).syn = s.syn := rfl
@[simp] theorem retNone_input (s : State) : (retNone s).input = s.input := rfl
@[simp] theorem retNone_free (s : State) : (retNone s).free = s.free := rfl
@[simp] theorem retNone_host (s : State) : (retNone s).host = { s.host with rtag := .none } := rfl

@[simp] theorem retValue_sys (v : Word64) (s : State) : (retValue v s).sys = s.sys := rfl
@[simp] theorem retValue_osc (v : Word64) (s : State) : (retValue v s).osc = s.osc := rfl
@[simp] theorem retValue_env (v : Word64) (s : State) : (retValue v s).env = s.env := rfl
@[simp] theorem retValue_noise (v : Word64) (s : State) : (retValue v s).noise = s.noise := rfl
@[simp] theorem retValue_table (v : Word64) (s : State) : (retValue v s).table = s.table := rfl
@[simp] theorem retValue_queue (v : Word64) (s : State) : (retValue v s).queue = s.queue := rfl
@[simp] theorem retValue_syn (v : Word64) (s : State) : (retValue v s).syn = s.syn := rfl
@[simp] theorem retValue_input (v : Word64) (s : State) : (retValue v s).input = s.input := rfl
@[simp] theorem retValue_free (v : Word64) (s : State) : (retValue v s).free = s.free := rfl
@[simp] theorem retValue_host (v : Word64) (s : State) :
    (retValue v s).host = { s.host with res0 := v, rtag := .value } := rfl

@[simp] theorem retNotFound_sys (s : State) : (retNotFound s).sys = s.sys := rfl
@[simp] theorem retNotFound_osc (s : State) : (retNotFound s).osc = s.osc := rfl
@[simp] theorem retNotFound_env (s : State) : (retNotFound s).env = s.env := rfl
@[simp] theorem retNotFound_noise (s : State) : (retNotFound s).noise = s.noise := rfl
@[simp] theorem retNotFound_table (s : State) : (retNotFound s).table = s.table := rfl
@[simp] theorem retNotFound_queue (s : State) : (retNotFound s).queue = s.queue := rfl
@[simp] theorem retNotFound_syn (s : State) : (retNotFound s).syn = s.syn := rfl
@[simp] theorem retNotFound_input (s : State) : (retNotFound s).input = s.input := rfl
@[simp] theorem retNotFound_free (s : State) : (retNotFound s).free = s.free := rfl
@[simp] theorem retNotFound_host (s : State) :
    (retNotFound s).host = { s.host with res0 := 0xFFFFFFFFFFFFFFFF#64, rtag := .notfound } := rfl

/-! ### Raising a fault -/

@[simp] theorem raiseFault_osc (k : Cause) (w : Word32) (s : State) : (raiseFault k w s).osc = s.osc := rfl
@[simp] theorem raiseFault_env (k : Cause) (w : Word32) (s : State) : (raiseFault k w s).env = s.env := rfl
@[simp] theorem raiseFault_noise (k : Cause) (w : Word32) (s : State) : (raiseFault k w s).noise = s.noise := rfl
@[simp] theorem raiseFault_table (k : Cause) (w : Word32) (s : State) : (raiseFault k w s).table = s.table := rfl
@[simp] theorem raiseFault_queue (k : Cause) (w : Word32) (s : State) : (raiseFault k w s).queue = s.queue := rfl
@[simp] theorem raiseFault_syn (k : Cause) (w : Word32) (s : State) : (raiseFault k w s).syn = s.syn := rfl
@[simp] theorem raiseFault_input (k : Cause) (w : Word32) (s : State) : (raiseFault k w s).input = s.input := rfl
@[simp] theorem raiseFault_free (k : Cause) (w : Word32) (s : State) : (raiseFault k w s).free = s.free := rfl
@[simp] theorem raiseFault_sys (k : Cause) (w : Word32) (s : State) :
    (raiseFault k w s).sys = recordFault k w s.sys := rfl
@[simp] theorem raiseFault_host (k : Cause) (w : Word32) (s : State) :
    (raiseFault k w s).host = { s.host with rtag := .fault } := rfl
@[simp] theorem recordFault_sr (k : Cause) (w : Word32) (s : Sys) : (recordFault k w s).sr = s.sr := rfl
@[simp] theorem recordFault_status (k : Cause) (w : Word32) (s : Sys) :
    (recordFault k w s).status = s.status ||| statusBit k := rfl
@[simp] theorem clearStatus_sr (v : Word64) (s : Sys) : (clearStatus v s).sr = s.sr := rfl
@[simp] theorem clearStatus_fcause (v : Word64) (s : Sys) : (clearStatus v s).fcause = s.fcause := rfl
@[simp] theorem clearStatus_fcmd (v : Word64) (s : Sys) : (clearStatus v s).fcmd = s.fcmd := rfl

/-! ### Reset and the host -/

@[simp] theorem resetState_host (s : State) : (resetState s).host = HostRegs.reset := rfl
@[simp] theorem resetState_sys (s : State) : (resetState s).sys = Sys.reset := rfl
@[simp] theorem resetState_osc (s : State) : (resetState s).osc = Osc.reset := rfl
@[simp] theorem resetState_env (s : State) : (resetState s).env = Env.reset := rfl
@[simp] theorem resetState_noise (s : State) : (resetState s).noise = Noise.reset := rfl
@[simp] theorem resetState_table (s : State) : (resetState s).table = Table.reset s.table.capacity := rfl
@[simp] theorem resetState_queue (s : State) : (resetState s).queue = Queue.reset s.queue.capacity := rfl
@[simp] theorem resetState_syn (s : State) : (resetState s).syn = Syn.reset := rfl
@[simp] theorem resetState_input (s : State) : (resetState s).input = s.input := rfl
@[simp] theorem resetState_free (s : State) : (resetState s).free = s.free := rfl

@[simp] theorem placeWord_host (w : Word32) (s : State) : (placeWord w s).host = s.host := rfl
@[simp] theorem placeWord_sys (w : Word32) (s : State) : (placeWord w s).sys = s.sys := rfl
@[simp] theorem placeWord_osc (w : Word32) (s : State) : (placeWord w s).osc = s.osc := rfl
@[simp] theorem placeWord_env (w : Word32) (s : State) : (placeWord w s).env = s.env := rfl
@[simp] theorem placeWord_noise (w : Word32) (s : State) : (placeWord w s).noise = s.noise := rfl
@[simp] theorem placeWord_table (w : Word32) (s : State) : (placeWord w s).table = s.table := rfl
@[simp] theorem placeWord_queue (w : Word32) (s : State) : (placeWord w s).queue = s.queue := rfl
@[simp] theorem placeWord_syn (w : Word32) (s : State) : (placeWord w s).syn = s.syn := rfl
@[simp] theorem placeWord_free (w : Word32) (s : State) : (placeWord w s).free = s.free := rfl
@[simp] theorem placeWord_input (w : Word32) (s : State) : (placeWord w s).input = .issue w :: s.input := rfl

/-- The written operand register holds the value. -/
@[simp] theorem argOf_setArg (n : Fin 4) (v : Word64) (h : HostRegs) : argOf (setArg n v h) n = v := by
  fin_cases n <;> rfl

/-- The other operand registers keep theirs. -/
theorem argOf_setArg_ne {n k : Fin 4} (h : k ≠ n) (v : Word64) (r : HostRegs) :
    argOf (setArg n v r) k = argOf r k := by
  fin_cases n <;> fin_cases k <;> first | rfl | exact absurd rfl h

@[simp] theorem resOf_setArg (n k : Fin 4) (v : Word64) (h : HostRegs) :
    resOf (setArg n v h) k = resOf h k := by
  fin_cases n <;> rfl

@[simp] theorem setArg_rtag (n : Fin 4) (v : Word64) (h : HostRegs) : (setArg n v h).rtag = h.rtag := by
  fin_cases n <;> rfl

/-! ### Oscillator, envelope and noise -/

@[simp] theorem recomputeA_t (o : Osc) : (recomputeA o).t = o.t := rfl
@[simp] theorem recomputeA_dt (o : Osc) : (recomputeA o).dt = o.dt := rfl
@[simp] theorem recomputeA_pw (o : Osc) : (recomputeA o).pw = o.pw := rfl
@[simp] theorem recomputeA_wave (o : Osc) : (recomputeA o).wave = o.wave := rfl
@[simp] theorem recomputeA_a (o : Osc) : (recomputeA o).a = gain (fabs o.dt) (familyOf o.wave) := rfl
@[simp] theorem advancePhase_dt (q : Nat) (o : Osc) : (advancePhase q o).dt = o.dt := by
  cases o; rfl
@[simp] theorem advancePhase_a (q : Nat) (o : Osc) : (advancePhase q o).a = o.a := by
  cases o; rfl
@[simp] theorem advancePhase_pw (q : Nat) (o : Osc) : (advancePhase q o).pw = o.pw := by
  cases o; rfl
@[simp] theorem advancePhase_wave (q : Nat) (o : Osc) : (advancePhase q o).wave = o.wave := by
  cases o; rfl
@[simp] theorem triggerAttack_a (v : F64) (e : Env) : (triggerAttack v e).a = e.a := by
  unfold triggerAttack; split <;> rfl
@[simp] theorem triggerAttack_d (v : F64) (e : Env) : (triggerAttack v e).d = e.d := by
  unfold triggerAttack; split <;> rfl
@[simp] theorem triggerAttack_r (v : F64) (e : Env) : (triggerAttack v e).r = e.r := by
  unfold triggerAttack; split <;> rfl
@[simp] theorem triggerAttack_s (v : F64) (e : Env) : (triggerAttack v e).s = e.s := by
  unfold triggerAttack; split <;> rfl
@[simp] theorem triggerAttack_scale (v : F64) (e : Env) : (triggerAttack v e).scale = v := by
  unfold triggerAttack; split <;> rfl
@[simp] theorem triggerRelease_a (e : Env) : (triggerRelease e).a = e.a := by
  unfold triggerRelease; split <;> rfl
@[simp] theorem triggerRelease_d (e : Env) : (triggerRelease e).d = e.d := by
  unfold triggerRelease; split <;> rfl
@[simp] theorem triggerRelease_r (e : Env) : (triggerRelease e).r = e.r := by
  unfold triggerRelease; split <;> rfl
@[simp] theorem triggerRelease_s (e : Env) : (triggerRelease e).s = e.s := by
  unfold triggerRelease; split <;> rfl
@[simp] theorem triggerRelease_scale (e : Env) : (triggerRelease e).scale = e.scale := by
  unfold triggerRelease; split <;> rfl
@[simp] theorem envStep_a (q : Nat) (e : Env) : (envStep q e).a = e.a := by
  unfold envStep; split <;> dsimp only <;> (try split) <;> rfl
@[simp] theorem envStep_d (q : Nat) (e : Env) : (envStep q e).d = e.d := by
  unfold envStep; split <;> dsimp only <;> (try split) <;> rfl
@[simp] theorem envStep_r (q : Nat) (e : Env) : (envStep q e).r = e.r := by
  unfold envStep; split <;> dsimp only <;> (try split) <;> rfl
@[simp] theorem envStep_s (q : Nat) (e : Env) : (envStep q e).s = e.s := by
  unfold envStep; split <;> dsimp only <;> (try split) <;> rfl
@[simp] theorem envStep_scale (q : Nat) (e : Env) : (envStep q e).scale = e.scale := by
  unfold envStep; split <;> dsimp only <;> (try split) <;> rfl

@[simp] theorem lcgStep_seed (n : Noise) : (lcgStep n).seed = lcgNext n.seed := rfl
@[simp] theorem lcgStep_b0 (n : Noise) : (lcgStep n).b0 = n.b0 := by
  cases n; rfl
@[simp] theorem lcgStep_b1 (n : Noise) : (lcgStep n).b1 = n.b1 := by
  cases n; rfl
@[simp] theorem lcgStep_b2 (n : Noise) : (lcgStep n).b2 = n.b2 := by
  cases n; rfl
@[simp] theorem lcgStep_lp (n : Noise) : (lcgStep n).lp = n.lp := by
  cases n; rfl
@[simp] theorem lcgStep_rc (n : Noise) : (lcgStep n).rc = n.rc := by
  cases n; rfl
@[simp] theorem lcgStep_bluePrev (n : Noise) : (lcgStep n).bluePrev = n.bluePrev := by
  cases n; rfl
@[simp] theorem lcgStep_violetPrev (n : Noise) : (lcgStep n).violetPrev = n.violetPrev := by
  cases n; rfl
@[simp] theorem lcgStep_lsZ1 (n : Noise) : (lcgStep n).lsZ1 = n.lsZ1 := by
  cases n; rfl
@[simp] theorem lcgStep_lsZ2 (n : Noise) : (lcgStep n).lsZ2 = n.lsZ2 := by
  cases n; rfl
@[simp] theorem lcgStep_pkZ1 (n : Noise) : (lcgStep n).pkZ1 = n.pkZ1 := by
  cases n; rfl
@[simp] theorem lcgStep_pkZ2 (n : Noise) : (lcgStep n).pkZ2 = n.pkZ2 := by
  cases n; rfl
@[simp] theorem lcgStep_density (n : Noise) : (lcgStep n).density = n.density := by
  cases n; rfl

/-! ### Rows and entries -/

@[simp] theorem appendRow_count (r : VoiceRow) (t : Table) : (appendRow r t).count = t.count + 1 := rfl
@[simp] theorem appendRow_capacity (r : VoiceRow) (t : Table) : (appendRow r t).capacity = t.capacity := rfl
@[simp] theorem insertRow_count (i : Nat) (r : VoiceRow) (t : Table) :
    (insertRow i r t).count = t.count + 1 := rfl
@[simp] theorem insertRow_capacity (i : Nat) (r : VoiceRow) (t : Table) :
    (insertRow i r t).capacity = t.capacity := rfl
@[simp] theorem removeRow_count (i : Nat) (t : Table) : (removeRow i t).count = t.count - 1 := rfl
@[simp] theorem removeRow_capacity (i : Nat) (t : Table) : (removeRow i t).capacity = t.capacity := rfl
@[simp] theorem rewindQueue_head (q : Queue) : (rewindQueue q).head = 0 := rfl
@[simp] theorem rewindQueue_tail (q : Queue) : (rewindQueue q).tail = 0 := rfl
@[simp] theorem rewindQueue_counter (q : Queue) : (rewindQueue q).counter = 0 := rfl
@[simp] theorem rewindQueue_capacity (q : Queue) : (rewindQueue q).capacity = q.capacity := rfl
@[simp] theorem rewindQueue_ev (q : Queue) : (rewindQueue q).ev = q.ev := rfl
@[simp] theorem fieldOf_setField (c : Column) (v : Word64) (r : VoiceRow) : fieldOf c (setField c v r) = v := by
  cases c <;> rfl
theorem fieldOf_setField_ne {c c' : Column} (h : c' ≠ c) (v : Word64) (r : VoiceRow) :
    fieldOf c' (setField c v r) = fieldOf c' r := by
  cases c <;> cases c' <;> first | rfl | exact absurd rfl h

end Sys2Proof.Machine
end

