-- ==== Sys2Proof/Laws/Ops.lean ====
section
/-! SUPPORT. What each shared operation can do, said once: the free NaN, the fault record, the register map,
the queue, and the row storage with the invariants of 10_state.md R37. -/

namespace Sys2Proof.Machine

/-! ### Free values and faults -/

@[simp] theorem isNaN_someNaN (bits : BitVec 64) : isNaN (someNaN bits) = true := by
  unfold someNaN
  split
  · assumption
  · exact isNaN_nanMade

/-- A value that is not NaN is written as it is. -/
theorem pin_of_not_nan {q : Nat} {site : Site} {x : F64} (h : isNaN x = false) : pin q site x = x := by
  simp [pin, h]

@[simp] theorem isNaN_pin (q : Nat) (site : Site) (x : F64) : isNaN (pin q site x) = isNaN x := by
  unfold pin
  split
  · rename_i h
    rw [isNaN_someNaN, h]
  · rfl

/-- What is written holds the value (93_implementation_defined.md U18). -/
theorem sameValue_pin (q : Nat) (site : Site) (x : F64) : SameValue x (pin q site x) := by
  unfold SameValue
  split
  · rename_i h
    rw [isNaN_pin, h]
  · rename_i h
    exact pin_of_not_nan (by simpa using h)

/-- A fault leaves what 60_exceptions.md R302 and R303 say. -/
theorem raiseFault_eq_faulted (k : Cause) (w : Word32) (s : State) :
    raiseFault k w s = faulted (causeCode k) w s := by
  cases k <;> rfl

/-! ### Registers and row references -/

@[simp] theorem regOfNumber_regNumber (r : Reg) : regOfNumber (regNumber r) = some r := by
  cases r <;> rfl

/-- Only its own number names a register. -/
theorem regNumber_of_regOfNumber {n : Nat} {r : Reg} (h : regOfNumber n = some r) : regNumber r = n := by
  unfold regOfNumber at h
  split at h <;> cases h <;> rfl

/-- A write of one register leaves what every other one reads (10_state.md R25). -/
theorem readReg_writeReg_ne {r r' : Reg} (h : r' ≠ r) (v : Word64) (s : State) :
    readReg r' (writeReg r v s) = readReg r' s := by
  cases r <;> first | (cases r' <;> first | rfl | exact absurd rfl h)

/-- A row reference is a live row's index (44_voice_table.md R231). -/
theorem isRow_iff (i : Word64) (t : Table) : isRow i t = true ↔ NamesRow i t := by
  simp [isRow, NamesRow]

/-- A row reference read as a number. -/
theorem toInt_eq_toNat_of_namesRow {i : Word64} {t : Table} (h : NamesRow i t) :
    i.toInt = (i.toNat : Int) ∧ i.toNat < t.count := by
  obtain ⟨h0, h1⟩ := h
  have hi := i.isLt
  have e : i.toInt = (i.toNat : Int) := by
    rw [BitVec.toInt_eq_toNat_cond] at h0 ⊢
    split at h0 <;> split <;> omega
  exact ⟨e, by omega⟩

/-! ### The queue -/

/-- Visible: the head entry leaves. Else: the counter advances (45_event_queue.md R263). -/
theorem popEvent_cases (q : Queue) :
    (headVisible q = true ∧ q.head < q.tail ∧
      popEvent q = (some (eventAt q q.head), { q with head := q.head + 1 })) ∨
    (headVisible q = false ∧ popEvent q = (none, { q with
      counter := if q.counter < counterMax then q.counter + 1 else q.counter })) := by
  unfold popEvent
  by_cases h : headVisible q = true
  · refine Or.inl ⟨h, ?_, by simp [h]⟩
    simp only [headVisible, Bool.and_eq_true, decide_eq_true_eq] at h
    exact h.1
  · simp only [Bool.not_eq_true] at h
    exact Or.inr ⟨h, by simp [h]⟩

theorem queueWf_popEvent {q : Queue} (h : QueueWf q) : QueueWf (popEvent q).2 := by
  obtain ⟨h1, h2, h3, h4, h5, h6⟩ := h
  obtain ⟨-, hv, he⟩ | ⟨-, he⟩ := popEvent_cases q
  · rw [he]
    exact ⟨h1, h2, hv, h4, h5, h6⟩
  · rw [he]
    refine ⟨h1, h2, h3, h4, h5, ?_⟩
    dsimp only
    split <;> omega

theorem queueWf_pushEvent (e : Event) {q : Queue} (h : QueueWf q) : QueueWf (pushEvent e q) := by
  obtain ⟨h1, h2, h3, h4, h5, h6⟩ := h
  unfold pushEvent
  split
  · refine ⟨h1, h2, Nat.le_succ_of_le h3, ?_, ?_, h6⟩ <;>
      simp only [List.length_append, List.length_take, List.length_cons, List.length_drop] <;> omega
  · exact ⟨h1, h2, h3, h4, h5, h6⟩

theorem queueWf_rewindQueue {q : Queue} (h : QueueWf q) : QueueWf (rewindQueue q) := by
  obtain ⟨h1, h2, h3, h4, h5, h6⟩ := h
  exact ⟨h1, h2, Nat.le_refl 0, Nat.zero_le _, h5, Nat.zero_le _⟩

/-! ### Row storage -/

theorem length_putRow {i : Nat} {rows : List VoiceRow} (r : VoiceRow) (h : i < rows.length) :
    (putRow i r rows).length = rows.length := by
  simp only [putRow, List.length_append, List.length_take, List.length_cons, List.length_drop]
  omega

theorem putRow_eq_set {i : Nat} {rows : List VoiceRow} (r : VoiceRow) (h : i < rows.length) :
    putRow i r rows = rows.set i r := by
  rw [putRow, List.set_eq_take_append_cons_drop, if_pos h]

/-- The row that was put reads back. -/
theorem rowAt_putRow_self {t : Table} {i : Nat} (r : VoiceRow) (h : i < t.rows.length) :
    rowAt { t with rows := putRow i r t.rows } i = r := by
  simp [rowAt, putRow_eq_set r h, h]

/-- Every other row reads as before. -/
theorem rowAt_putRow_ne {t : Table} {i k : Nat} (r : VoiceRow) (h : i < t.rows.length) (hk : k ≠ i) :
    rowAt { t with rows := putRow i r t.rows } k = rowAt t k := by
  simp [rowAt, putRow_eq_set r h, List.getElem?_set_ne hk.symm]

theorem tableWf_putRow {t : Table} {i : Nat} (r : VoiceRow) (h : TableWf t) (hi : i < t.count) :
    TableWf { t with rows := putRow i r t.rows } := by
  obtain ⟨h1, h2, h3, h4⟩ := h
  have hl := length_putRow r (Nat.lt_of_lt_of_le hi h3)
  exact ⟨h1, h2, by simpa [hl] using h3, by simpa [hl] using h4⟩

theorem tableWf_clear {t : Table} (h : TableWf t) : TableWf { t with count := 0 } := by
  obtain ⟨h1, h2, -, h4⟩ := h
  exact ⟨h1, h2, Nat.zero_le _, h4⟩

theorem tableWf_appendRow (r : VoiceRow) {t : Table} (h : TableWf t) (hc : t.count < t.capacity) :
    TableWf (appendRow r t) := by
  obtain ⟨h1, h2, h3, h4⟩ := h
  refine ⟨h1, h2, ?_, ?_⟩ <;>
    simp only [appendRow, putRow, List.length_append, List.length_take, List.length_cons, List.length_drop] <;>
    omega

theorem tableWf_insertRow {i : Nat} (r : VoiceRow) {t : Table} (h : TableWf t) (hc : t.count < t.capacity)
    (hi : i ≤ t.count) : TableWf (insertRow i r t) := by
  obtain ⟨h1, h2, h3, h4⟩ := h
  refine ⟨h1, h2, ?_, ?_⟩ <;>
    simp only [insertRow, List.length_append, List.length_take, List.length_cons, List.length_drop] <;>
    omega

theorem tableWf_removeRow {i : Nat} {t : Table} (h : TableWf t) (hi : i < t.count) :
    TableWf (removeRow i t) := by
  obtain ⟨h1, h2, h3, h4⟩ := h
  refine ⟨h1, h2, ?_, ?_⟩ <;>
    simp only [removeRow, List.length_append, List.length_take, List.length_drop] <;>
    omega

/-- Appending adds one live row, at the end (44_voice_table.md R234). -/
theorem liveRows_appendRow (r : VoiceRow) {t : Table} (h : t.count ≤ t.rows.length) :
    liveRows (appendRow r t) = liveRows t ++ [r] := by
  have hl : (t.rows.take t.count).length = t.count := by simp [h]
  simp [liveRows, appendRow, putRow, List.take_append, hl, List.take_take]

theorem take_append_of_le {α : Type} {xs : List α} {n m : Nat} (h : xs.length = m) (hm : m ≤ n) (ys : List α) :
    (xs ++ ys).take n = xs ++ ys.take (n - m) := by
  rw [List.take_append, h, List.take_of_length_le (by omega)]

/-- Inserting opens a row and keeps the order of the others (44_voice_table.md R235). -/
theorem liveRows_insertRow {i : Nat} (r : VoiceRow) {t : Table} (h : t.count ≤ t.rows.length)
    (hi : i ≤ t.count) :
    liveRows (insertRow i r t) = (liveRows t).take i ++ r :: (liveRows t).drop i := by
  have h1 : (t.rows.take i).length = i := by simp; omega
  have h2 : ((t.rows.drop i).take (t.count - i)).length = t.count - i := by simp; omega
  have h3 : t.count + 1 - i = (t.count - i) + 1 := by omega
  simp only [liveRows, insertRow]
  rw [take_append_of_le h1 (by omega), h3, List.take_succ_cons, take_append_of_le h2 (by omega), Nat.sub_self,
    List.take_zero, List.append_nil, List.take_take, Nat.min_eq_left hi, List.drop_take]

/-- Removing closes the gap and keeps the order of the others (44_voice_table.md R236). -/
theorem liveRows_removeRow {i : Nat} {t : Table} (h : t.count ≤ t.rows.length) (hi : i < t.count) :
    liveRows (removeRow i t) = (liveRows t).eraseIdx i := by
  have h1 : (t.rows.take i).length = i := by simp; omega
  have h2 : ((t.rows.drop (i + 1)).take (t.count - 1 - i)).length = t.count - 1 - i := by simp; omega
  simp only [liveRows, removeRow]
  rw [take_append_of_le h1 (by omega), take_append_of_le h2 (by omega), Nat.sub_self, List.take_zero,
    List.append_nil, List.eraseIdx_eq_take_drop_succ, List.take_take, Nat.min_eq_left (by omega),
    List.drop_take, Nat.sub_sub, Nat.add_comm 1 i]

/-- A scan that finds: the first match of the rows it looked at (44_voice_table.md R240). -/
theorem scanRows_some {c : Column} {v : Word64} {t : Table} {n : Nat} : ∀ {j k : Nat},
    scanRows c v t n j = some k →
      j ≤ k ∧ k < j + n ∧ fieldMatches c v (rowAt t k) = true ∧
        ∀ l, j ≤ l → l < k → fieldMatches c v (rowAt t l) = false := by
  induction n with
  | zero => intro j k h; cases h
  | succ n ih =>
    intro j k h
    unfold scanRows at h
    split at h
    · rename_i hm
      cases h
      exact ⟨Nat.le_refl _, by omega, hm, fun l h1 h2 => by omega⟩
    · rename_i hm
      obtain ⟨h1, h2, h3, h4⟩ := ih h
      refine ⟨by omega, by omega, h3, fun l hl hk => ?_⟩
      by_cases hj : l = j
      · subst hj
        simpa using hm
      · exact h4 l (by omega) hk

/-- A scan that does not find: no row it looked at matches (44_voice_table.md R240). -/
theorem scanRows_none {c : Column} {v : Word64} {t : Table} {n : Nat} : ∀ {j : Nat},
    scanRows c v t n j = none → ∀ l, j ≤ l → l < j + n → fieldMatches c v (rowAt t l) = false := by
  induction n with
  | zero => intro j _ l h1 h2; omega
  | succ n ih =>
    intro j h l h1 h2
    unfold scanRows at h
    split at h
    · cases h
    · rename_i hm
      by_cases hj : l = j
      · subst hj
        simpa using hm
      · exact ih h l (by omega) (by omega)

/-- What `findRow` answers is a live row. -/
theorem findRow_some {c : Column} {v : Word64} {start k : Nat} {t : Table} (h : findRow c v start t = some k) :
    start ≤ k ∧ k < t.count ∧ fieldMatches c v (rowAt t k) = true := by
  obtain ⟨h1, h2, h3, -⟩ := scanRows_some h
  exact ⟨h1, by omega, h3⟩

end Sys2Proof.Machine
end

