-- ==== Sys2Proof/Laws/PerInstr.lean ====
section
/-! SUPPORT. The family Fields: the four fields of a command's word are the ones the opcode map of
30_encoding.md R86 gives it. -/

namespace Sys2Proof.Laws.Fields

/-- The word of a command holds its `OPC`, `SEL` and `IMM`, and a zero `RSV` (30_encoding.md R80). -/
def Statement (i : Instr) : Prop :=
  opcOf (encode i) = i.opc ∧ rsvOf (encode i) = 0#4 ∧ selOf (encode i) = i.sel ∧ immOf (encode i) = i.imm

/-- The one proof, which every command's lemma cites. -/
theorem all (i : Instr) : Statement i :=
  ⟨opcOf_packWord _ _ _ _, rsvOf_packWord _ _ _ _, selOf_packWord _ _ _ _, immOf_packWord _ _ _ _⟩

theorem nop : Statement .nop := all _
theorem reset : Statement .reset := all _
theorem rdreg (imm : BitVec 16) : Statement (.rdreg imm) := all _
theorem wrreg (imm : BitVec 16) : Statement (.wrreg imm) := all _
theorem oscSync : Statement .oscSync := all _
theorem oscSetfreq : Statement .oscSetfreq := all _
theorem oscSetinc : Statement .oscSetinc := all _
theorem oscSetpw : Statement .oscSetpw := all _
theorem oscSetwave (sel : BitVec 4) : Statement (.oscSetwave sel) := all _
theorem oscInc : Statement .oscInc := all _
theorem oscRun : Statement .oscRun := all _
theorem oscSine : Statement .oscSine := all _
theorem oscTri : Statement .oscTri := all _
theorem oscSquare : Statement .oscSquare := all _
theorem oscSaw : Statement .oscSaw := all _
theorem oscRamp : Statement .oscRamp := all _
theorem oscRect : Statement .oscRect := all _
theorem oscTrap : Statement .oscTrap := all _
theorem oscTrappw : Statement .oscTrappw := all _
theorem oscTripulse : Statement .oscTripulse := all _
theorem oscHwrsine : Statement .oscHwrsine := all _
theorem oscFwrsine : Statement .oscFwrsine := all _
theorem oscCircle : Statement .oscCircle := all _
theorem oscHammond : Statement .oscHammond := all _
theorem oscStair : Statement .oscStair := all _
theorem envSetatk : Statement .envSetatk := all _
theorem envSetdec : Statement .envSetdec := all _
theorem envSetrel : Statement .envSetrel := all _
theorem envSetsus : Statement .envSetsus := all _
theorem envAttack : Statement .envAttack := all _
theorem envRelease : Statement .envRelease := all _
theorem envStep : Statement .envStep := all _
theorem nzInit : Statement .nzInit := all _
theorem nzLcg : Statement .nzLcg := all _
theorem nzWhite : Statement .nzWhite := all _
theorem nzPink : Statement .nzPink := all _
theorem nzBrown : Statement .nzBrown := all _
theorem nzBlue : Statement .nzBlue := all _
theorem nzViolet : Statement .nzViolet := all _
theorem nzGrey : Statement .nzGrey := all _
theorem nzBlack : Statement .nzBlack := all _
theorem nzSetrc : Statement .nzSetrc := all _
theorem nzSetdens : Statement .nzSetdens := all _
theorem vtGet : Statement .vtGet := all _
theorem vtAppend : Statement .vtAppend := all _
theorem vtInsert : Statement .vtInsert := all _
theorem vtRemove : Statement .vtRemove := all _
theorem vtFirst : Statement .vtFirst := all _
theorem vtLast : Statement .vtLast := all _
theorem vtNext : Statement .vtNext := all _
theorem vtFind (sel : BitVec 4) : Statement (.vtFind sel) := all _
theorem vtClear : Statement .vtClear := all _
theorem vtRdf (sel : BitVec 4) : Statement (.vtRdf sel) := all _
theorem vtWrf (sel : BitVec 4) : Statement (.vtWrf sel) := all _
theorem eqRewind : Statement .eqRewind := all _
theorem eqPush : Statement .eqPush := all _
theorem eqPop : Statement .eqPop := all _
theorem synTick : Statement .synTick := all _

end Sys2Proof.Laws.Fields
end

