-- ==== Sys2Proof/Laws/VoiceLoop.lean ====
section
/-! SUPPORT. What the parts of a tick can do: an event moves only the table and the envelope, the drain also
the queue's head and counter, the voices only phases (46_voice_loop.md R281, R282, R290). -/

namespace Sys2Proof.Machine

/-- The fields that no event touches (46_voice_loop.md R282 to R287). -/
def SameButTableEnv (s t : State) : Prop :=
  t.host = s.host ∧ t.sys = s.sys ∧ t.osc = s.osc ∧ t.noise = s.noise ∧ t.queue = s.queue ∧
    t.syn = s.syn ∧ t.input = s.input ∧ t.free = s.free ∧ t.table.capacity = s.table.capacity

theorem noteOn_frame (entry : Nat) (n v : BitVec 8) (s : State) : SameButTableEnv s (noteOn entry n v s) := by
  cases s
  refine ⟨rfl, rfl, rfl, rfl, rfl, rfl, rfl, rfl, ?_⟩
  simp only [noteOn, appendRow_capacity]
  split <;> rfl

theorem noteOff_frame (n : BitVec 8) (s : State) : SameButTableEnv s (noteOff n s) := by
  cases s
  unfold noteOff
  split <;> exact ⟨rfl, rfl, rfl, rfl, rfl, rfl, rfl, rfl, rfl⟩

theorem allNotesOff_frame (s : State) : SameButTableEnv s (allNotesOff s) := by
  cases s
  exact ⟨rfl, rfl, rfl, rfl, rfl, rfl, rfl, rfl, rfl⟩

theorem handleEvent_frame (entry : Nat) (e : Event) (s : State) :
    SameButTableEnv s (handleEvent entry e s) := by
  unfold handleEvent
  split
  · exact noteOn_frame _ _ _ _
  · exact noteOff_frame _ _
  · exact allNotesOff_frame _
  · exact ⟨rfl, rfl, rfl, rfl, rfl, rfl, rfl, rfl, rfl⟩

theorem tableWf_noteOn (entry : Nat) (n v : BitVec 8) {s : State} (h : TableWf s.table) :
    TableWf (noteOn entry n v s).table := by
  obtain ⟨h1, h2, h3, h4⟩ := h
  unfold noteOn
  dsimp only
  split
  · rename_i hc
    exact tableWf_appendRow _ (tableWf_removeRow ⟨h1, h2, h3, h4⟩ (by omega))
      (by simp only [removeRow_count, removeRow_capacity]; omega)
  · exact tableWf_appendRow _ ⟨h1, h2, h3, h4⟩ (by omega)

theorem tableWf_noteOff (n : BitVec 8) {s : State} (h : TableWf s.table) : TableWf (noteOff n s).table := by
  unfold noteOff
  split
  · exact h
  · rename_i hf
    exact tableWf_removeRow h (findRow_some hf).2.1

/-- Every event keeps the table's bounds (10_state.md R37). -/
theorem tableWf_handleEvent (entry : Nat) (e : Event) {s : State} (h : TableWf s.table) :
    TableWf (handleEvent entry e s).table := by
  unfold handleEvent
  split
  · exact tableWf_noteOn _ _ _ h
  · exact tableWf_noteOff _ h
  · exact tableWf_clear h
  · exact h

/-- What any number of turns of the drain leaves alone (46_voice_loop.md R281). -/
theorem drainLoop_frame (fuel : Nat) : ∀ s : State,
    (drainLoop fuel s).host = s.host ∧ (drainLoop fuel s).sys = s.sys ∧ (drainLoop fuel s).osc = s.osc ∧
      (drainLoop fuel s).noise = s.noise ∧ (drainLoop fuel s).syn = s.syn ∧
      (drainLoop fuel s).input = s.input ∧ (drainLoop fuel s).free = s.free ∧
      (drainLoop fuel s).table.capacity = s.table.capacity ∧
      (drainLoop fuel s).queue.tail = s.queue.tail ∧ (drainLoop fuel s).queue.capacity = s.queue.capacity ∧
      (drainLoop fuel s).queue.ev = s.queue.ev := by
  induction fuel with
  | zero => intro s; exact ⟨rfl, rfl, rfl, rfl, rfl, rfl, rfl, rfl, rfl, rfl, rfl⟩
  | succ n ih =>
    intro s
    unfold drainLoop
    obtain ⟨-, -, he⟩ | ⟨-, he⟩ := popEvent_cases s.queue
    · rw [he]
      dsimp only
      obtain ⟨a1, a2, a3, a4, a5, a6, a7, a8, a9, a10, a11⟩ := ih (handleEvent s.queue.head
        (eventAt s.queue s.queue.head) { s with queue := { s.queue with head := s.queue.head + 1 } })
      obtain ⟨f1, f2, f3, f4, f5, f6, f7, f8, f9⟩ := handleEvent_frame s.queue.head
        (eventAt s.queue s.queue.head) { s with queue := { s.queue with head := s.queue.head + 1 } }
      refine ⟨a1.trans f1, a2.trans f2, a3.trans f3, a4.trans f4, a5.trans f6, a6.trans f7, a7.trans f8,
        a8.trans f9, ?_, ?_, ?_⟩
      · rw [a9, f5]
      · rw [a10, f5]
      · rw [a11, f5]
    · rw [he]
      exact ⟨rfl, rfl, rfl, rfl, rfl, rfl, rfl, rfl, rfl, rfl, rfl⟩

/-- Any number of turns of the drain keeps the bounds of the table and the queue (10_state.md R37). -/
theorem drainLoop_wf (fuel : Nat) : ∀ {s : State}, TableWf s.table → QueueWf s.queue →
    TableWf (drainLoop fuel s).table ∧ QueueWf (drainLoop fuel s).queue := by
  induction fuel with
  | zero => intro s ht hq; exact ⟨ht, hq⟩
  | succ n ih =>
    intro s ht hq
    have hp := queueWf_popEvent hq
    unfold drainLoop
    obtain ⟨-, -, he⟩ | ⟨-, he⟩ := popEvent_cases s.queue
    · rw [he] at hp ⊢
      refine ih (tableWf_handleEvent _ _ ht) ?_
      rw [(handleEvent_frame _ _ _).2.2.2.2.1]
      exact hp
    · rw [he] at hp ⊢
      exact ⟨ht, hp⟩

/-- A turn of the drain that pops an event: the event is handled and the drain goes on (46_voice_loop.md R281). -/
theorem drain_of_visible {s : State} (h : headVisible s.queue = true) :
    drain s = drain (handleEvent s.queue.head (eventAt s.queue s.queue.head)
      { s with queue := { s.queue with head := s.queue.head + 1 } }) := by
  have hq := (handleEvent_frame s.queue.head (eventAt s.queue s.queue.head)
    { s with queue := { s.queue with head := s.queue.head + 1 } }).2.2.2.2.1
  obtain ⟨-, hlt, he⟩ | ⟨hf, -⟩ := popEvent_cases s.queue
  · conv_lhs => unfold drain drainLoop
    rw [he]
    dsimp only
    unfold drain
    rw [hq]
    congr 1
    dsimp only
    omega
  · simp [hf] at h

/-- A drain without an arrived event advances the counter and does nothing else (46_voice_loop.md R281). -/
theorem drain_of_not_visible {s : State} (h : headVisible s.queue = false) :
    drain s = { s with queue := { s.queue with
      counter := if s.queue.counter < counterMax then s.queue.counter + 1 else s.queue.counter } } := by
  unfold drain drainLoop
  simp [popEvent, h]

/-- The voices move no row and change no count (46_voice_loop.md R290). -/
theorem renderVoices_table (q : Nat) (o : Osc) (e nf : F64) (l : List Nat) : ∀ (acc : F64) (t : Table),
    TableWf t → (∀ i ∈ l, i < t.count) →
    (renderVoices q o e nf l acc t).2.count = t.count ∧
      (renderVoices q o e nf l acc t).2.capacity = t.capacity ∧ TableWf (renderVoices q o e nf l acc t).2 := by
  induction l with
  | nil => intro acc t h _; exact ⟨rfl, rfl, h⟩
  | cons i rest ih =>
    intro acc t h hl
    have hi := hl i List.mem_cons_self
    have hr : ∀ k ∈ rest, k < t.count := fun k hk => hl k (List.mem_cons_of_mem i hk)
    unfold renderVoices
    exact ih (fadd acc (voiceSample q o e nf i (rowAt t i)))
      { t with rows := putRow i (advanceRow q i (rowAt t i)) t.rows }
      (tableWf_putRow _ h hi) hr

/-- A voice that is rendered is a live row (46_voice_loop.md R289). -/
theorem lt_of_mem_voicesOf {mode : VoiceMode} {count i : Nat} (h : i ∈ voicesOf mode count) : i < count := by
  unfold voicesOf at h
  split at h
  · cases h
  · cases mode <;> simp at h <;> omega

/-- The sum over voices is a fold over the rows as they were before the rendering: a voice changes its own row
only (46_voice_loop.md R280, R290). -/
theorem renderVoices_sum (q : Nat) (o : Osc) (e nf : F64) (l : List Nat) : ∀ (acc : F64) (t : Table),
    TableWf t → l.Nodup → (∀ i ∈ l, i < t.count) →
    (renderVoices q o e nf l acc t).1 =
      l.foldl (fun acc i => fadd acc (voiceSample q o e nf i (rowAt t i))) acc := by
  induction l with
  | nil => intro acc t _ _ _; rfl
  | cons i rest ih =>
    intro acc t h hn hl
    have hi := hl i List.mem_cons_self
    unfold renderVoices
    rw [List.nodup_cons] at hn
    rw [ih _ _ (tableWf_putRow (advanceRow q i (rowAt t i)) h hi) hn.2
      (fun k hk => hl k (List.mem_cons_of_mem i hk)), List.foldl_cons]
    refine List.foldl_ext _ _ _ fun a k hk => ?_
    have hki : k ≠ i := fun hc => hn.1 (hc ▸ hk)
    rw [rowAt_putRow_ne _ (Nat.lt_of_lt_of_le hi h.2.2.1) hki]

theorem nodup_voicesOf (mode : VoiceMode) (count : Nat) : (voicesOf mode count).Nodup := by
  unfold voicesOf
  split
  · exact List.nodup_nil
  · cases mode
    · exact List.nodup_range
    · simp
    · simp

/-- A NaN term makes the sum NaN. -/
theorem isNaN_foldl_fadd {f : Nat → F64} {l : List Nat} {i : Nat} (hi : i ∈ l) (h : isNaN (f i) = true) :
    ∀ acc, isNaN (l.foldl (fun acc k => fadd acc (f k)) acc) = true := by
  have keep : ∀ (l : List Nat) acc, isNaN acc = true → isNaN (l.foldl (fun acc k => fadd acc (f k)) acc) = true := by
    intro l
    induction l with
    | nil => intro acc h; exact h
    | cons k rest ih => intro acc h; exact ih _ (isNaN_fadd_left h _)
  induction l with
  | nil => cases hi
  | cons k rest ih =>
    intro acc
    rw [List.foldl_cons]
    obtain rfl | hm := List.mem_cons.1 hi
    · exact keep _ _ (isNaN_fadd_right h _)
    · exact ih hm _
/-- Where a NaN phase or a NaN increment makes the value of a waveform NaN (41_oscillator.md R140 to R153). -/
theorem isNaN_waveValue (sin : Nat → F64 → F64) (c : Wave) (t dt a pw : F64)
    (h : ((isNaN t = true ∧ c ∈ [Wave.tri, .saw, .ramp, .trap, .trappw, .circle]) ∨
      (isNaN dt = true ∧ c ∈ [Wave.tri, .trap, .trappw, .tripulse, .hwrsine, .fwrsine]))) :
    isNaN (waveValue sin c t dt a pw) = true := by
  have sq : ∀ {x : F64}, isNaN x = true → isNaN (fsqrt x) = true := by intro x h; simp [fsqrt, h]
  have dv : ∀ {x y : F64}, isNaN x = true → isNaN (fdiv x y) = true := by intro x y h; simp [fdiv, h]
  have sbl : ∀ {x y : F64}, isNaN x = true → isNaN (fsub x y) = true := by intro x y h; simp [fsub, fadd, h]
  have sbr : ∀ {x y : F64}, isNaN y = true → isNaN (fsub x y) = true := by intro x y h; simp [fsub, fadd, h]
  have al : ∀ {x y : F64}, isNaN x = true → isNaN (fadd x y) = true := fun h => isNaN_fadd_left h _
  have ar : ∀ {x y : F64}, isNaN y = true → isNaN (fadd x y) = true := fun h => isNaN_fadd_right h _
  have ml : ∀ {x y : F64}, isNaN x = true → isNaN (fmul x y) = true := fun h => isNaN_fmul_left h _
  have mr : ∀ {x y : F64}, isNaN y = true → isNaN (fmul x y) = true := fun h => isNaN_fmul_right h _
  obtain ⟨h, hc⟩ | ⟨h, hc⟩ := h
  · have hw : isNaN (wrap t) = true := by
      simp [wrap, fge, fle, sbl h]
    have hl : ∀ y, flt (wrap t) y = false := fun y => by simp [flt, hw]
    have hcn : ∀ {d p s v}, isNaN v = true → isNaN (addCorner d (wrap t) p s v) = true := fun h => al h
    have hst : ∀ {d p s v}, isNaN v = true → isNaN (addStep d (wrap t) p s v) = true := fun h => al h
    have fn : ∀ {x : F64}, isNaN x = true → isNaN (fneg x) = true := by intro x h; simpa using h
    simp only [List.mem_cons, List.not_mem_nil, or_false] at hc
    rcases hc with rfl | rfl | rfl | rfl | rfl | rfl
    · simp only [waveValue, waveTri, hl]; exact mr (hcn (hcn (sbl (mr hw))))
    · simp only [waveValue, waveSaw]; exact mr (hst (sbl (mr hw)))
    · simp only [waveValue, waveRamp]; exact mr (hst (sbr (mr hw)))
    · simp only [waveValue, waveTrap, hl]; exact mr (hcn (hcn (hcn (hcn (sbl (mr hw))))))
    · simp only [waveValue, waveTrappw, hl]; exact mr (hcn (hcn (hcn (hcn (mr (sbl hw))))))
    · simp only [waveValue, waveCircle, hl]; exact mr (fn (sq (sbr (ml (sbl (mr hw))))))
  · have hd : isNaN (fabs dt) = true := by simpa using h
    have hcn : ∀ {t p s v}, isNaN (addCorner (fabs dt) t p s v) = true := fun {t p s v} => ar (ml (mr hd))
    simp only [List.mem_cons, List.not_mem_nil, or_false] at hc
    rcases hc with rfl | rfl | rfl | rfl | rfl | rfl <;> exact mr hcn

/-- One draw advances the seed by one Lehmer step, whatever the colour (43_noise.md R203). -/
theorem drawColour_seed (c : Colour) (q : Nat) (sr : F64) (n : Noise) :
    (drawColour c q sr n).2.seed = lcgNext n.seed := by
  cases n
  cases c <;> rfl

/-- The Lehmer step keeps the seed domain: 48271 has an inverse modulo the prime 2147483647
(43_noise.md R200). -/
theorem seedLegal_lcgNext {seed : Word64} (h : SeedLegal seed) : SeedLegal (lcgNext seed) := by
  obtain ⟨h1, h2⟩ := h
  have hlt : seed.toNat * 48271 % 2147483647 < 2147483647 := Nat.mod_lt _ (by decide)
  have e : (lcgNext seed).toNat = seed.toNat * 48271 % 2147483647 := by
    rw [lcgNext, BitVec.toNat_ofNat]
    exact Nat.mod_eq_of_lt (Nat.lt_trans hlt (by decide))
  have hne : seed.toNat * 48271 % 2147483647 ≠ 0 := fun h0 =>
    have hc : Nat.Coprime 2147483647 48271 := by decide
    Nat.not_le_of_lt (Nat.lt_succ_of_le h2)
      (Nat.le_of_dvd h1 (hc.dvd_of_dvd_mul_right (Nat.dvd_of_mod_eq_zero h0)))
  unfold SeedLegal
  rw [e]
  exact ⟨Nat.pos_of_ne_zero hne, Nat.le_of_lt_succ hlt⟩

end Sys2Proof.Machine
end

