-- ==== Sys2Proof/Tests/Slice0.lean ====
section
/-! SUPPORT. Tests of one step each. Every expected value is from spec/95_test_vectors.md (the section is named)
or written out from the encoding tables of spec/30_encoding.md; the last part has, for every obligation with
hypotheses, a state and operands that meet them. -/

namespace Sys2Proof.Tests

open Sys2Proof Sys2Proof.Machine

/-- The outcome is a next state with the property. -/
def holds (o : Host.Outcome State Fault Refusal) (p : State → Bool) : Bool :=
  match o with
  | .next t => p t
  | .fault _ => false
  | .refused _ => false

/-- The outcome's `RTAG` and `RES0`. -/
def gives (o : Host.Outcome State Fault Refusal) (tag : Tag) (v : Word64) : Bool :=
  holds o fun t => t.host.rtag == tag && t.host.res0 == v

/-- The outcome is the fault of this cause, recorded from `STATUS` = 0. -/
def faults (o : Host.Outcome State Fault Refusal) (code : Nat) : Bool :=
  holds o fun t => t.host.rtag == .fault && t.sys.fcause == BitVec.ofNat 64 code

/-- 0.01. -/
def dtShort : F64 := 0x3F847AE147AE147B#64

/-- The three rows of 95_test_vectors.md section 2.7, in a table of this capacity. -/
def withRows (capacity : Nat) : State :=
  { State.reset with
    table :=
      { count := 3, capacity := capacity
        rows := [⟨60#64, 0#64, dtShort⟩, ⟨64#64, 0#64, dtShort⟩, ⟨67#64, 0#64, dtShort⟩] }
    queue := Queue.reset 2 }

/-- The host has written `ARG0`. -/
def arg (v : Word64) (s : State) : State := { s with host := { s.host with arg0 := v } }

/-- The host has written `ARG1`. -/
def arg1 (v : Word64) (s : State) : State := { s with host := { s.host with arg1 := v } }

/-- Reset with a table of 3 rows and a queue of 2 entries. -/
def base : State := { State.reset with table := Table.reset 3, queue := Queue.reset 2 }

/-- Reset with this phase and increment. -/
def phaseAt (t dt : F64) : State := { base with osc := { base.osc with t := t, dt := dt } }

/-! ### Well-formedness: one ill-formed term for each check -/

theorem test_wellFormed_setwave : (Instr.oscSetwave 14#4).WellFormed = false ∧
    (Instr.oscSetwave 15#4).WellFormed = false ∧ (Instr.oscSetwave 13#4).WellFormed = true := by decide

theorem test_wellFormed_find : (Instr.vtFind 3#4).WellFormed = false ∧ (Instr.vtFind 2#4).WellFormed = true := by
  decide

theorem test_wellFormed_rdf : (Instr.vtRdf 3#4).WellFormed = false ∧ (Instr.vtRdf 2#4).WellFormed = true := by
  decide

theorem test_wellFormed_wrf : (Instr.vtWrf 3#4).WellFormed = false ∧ (Instr.vtWrf 2#4).WellFormed = true := by
  decide

/-! ### Decoding: every constructor, from a word of 30_encoding.md R80 and R86 to R89 -/

theorem test_decode_control :
    decode 0x00000000#32 = .ok .nop ∧
    decode 0x01000000#32 = .ok .reset ∧
    decode 0x02000003#32 = .ok (.rdreg 3#16) ∧
    decode 0x03000060#32 = .ok (.wrreg 0x60#16) := by
  decide

theorem test_decode_oscillator :
    decode 0x10000000#32 = .ok .oscSync ∧
    decode 0x11000000#32 = .ok .oscSetfreq ∧
    decode 0x12000000#32 = .ok .oscSetinc ∧
    decode 0x13000000#32 = .ok .oscSetpw ∧
    decode 0x140D0000#32 = .ok (.oscSetwave 13#4) ∧
    decode 0x15000000#32 = .ok .oscInc ∧
    decode 0x16000000#32 = .ok .oscRun := by
  decide

theorem test_decode_waveforms_low :
    decode 0x17000000#32 = .ok .oscSine ∧
    decode 0x17010000#32 = .ok .oscTri ∧
    decode 0x17020000#32 = .ok .oscSquare ∧
    decode 0x17030000#32 = .ok .oscSaw ∧
    decode 0x17040000#32 = .ok .oscRamp ∧
    decode 0x17050000#32 = .ok .oscRect ∧
    decode 0x17060000#32 = .ok .oscTrap := by
  decide

theorem test_decode_waveforms_high :
    decode 0x17070000#32 = .ok .oscTrappw ∧
    decode 0x17080000#32 = .ok .oscTripulse ∧
    decode 0x17090000#32 = .ok .oscHwrsine ∧
    decode 0x170A0000#32 = .ok .oscFwrsine ∧
    decode 0x170B0000#32 = .ok .oscCircle ∧
    decode 0x170C0000#32 = .ok .oscHammond ∧
    decode 0x170D0000#32 = .ok .oscStair := by
  decide

theorem test_decode_envelope :
    decode 0x20000000#32 = .ok .envSetatk ∧
    decode 0x21000000#32 = .ok .envSetdec ∧
    decode 0x22000000#32 = .ok .envSetrel ∧
    decode 0x23000000#32 = .ok .envSetsus ∧
    decode 0x24000000#32 = .ok .envAttack ∧
    decode 0x25000000#32 = .ok .envRelease ∧
    decode 0x26000000#32 = .ok .envStep := by
  decide

theorem test_decode_noise :
    decode 0x30000000#32 = .ok .nzInit ∧
    decode 0x31000000#32 = .ok .nzLcg ∧
    decode 0x32010000#32 = .ok .nzWhite ∧
    decode 0x32020000#32 = .ok .nzPink ∧
    decode 0x32030000#32 = .ok .nzBrown ∧
    decode 0x32040000#32 = .ok .nzBlue ∧
    decode 0x32050000#32 = .ok .nzViolet ∧
    decode 0x32060000#32 = .ok .nzGrey ∧
    decode 0x32070000#32 = .ok .nzBlack ∧
    decode 0x33000000#32 = .ok .nzSetrc ∧
    decode 0x34000000#32 = .ok .nzSetdens := by
  decide

theorem test_decode_table :
    decode 0x40000000#32 = .ok .vtGet ∧
    decode 0x41000000#32 = .ok .vtAppend ∧
    decode 0x42000000#32 = .ok .vtInsert ∧
    decode 0x43000000#32 = .ok .vtRemove ∧
    decode 0x44000000#32 = .ok .vtFirst ∧
    decode 0x45000000#32 = .ok .vtLast ∧
    decode 0x46000000#32 = .ok .vtNext ∧
    decode 0x47010000#32 = .ok (.vtFind 1#4) ∧
    decode 0x48000000#32 = .ok .vtClear ∧
    decode 0x49020000#32 = .ok (.vtRdf 2#4) ∧
    decode 0x4A000000#32 = .ok (.vtWrf 0#4) := by
  decide

theorem test_decode_queue_loop :
    decode 0x50000000#32 = .ok .eqRewind ∧
    decode 0x51000000#32 = .ok .eqPush ∧
    decode 0x52000000#32 = .ok .eqPop ∧
    decode 0x60000000#32 = .ok .synTick := by
  decide

/-- The tests of 30_encoding.md R90 in their order (section 2.1). -/
theorem test_decode_rejects :
    decode 0x04000000#32 = .error .opc ∧ decode 0xFF000000#32 = .error .opc ∧
    decode 0x00100000#32 = .error .rsv ∧ decode 0x17FF0000#32 = .error .rsv ∧
    decode 0x00010000#32 = .error .sel ∧ decode 0x140E0000#32 = .error .sel ∧
    decode 0x32000000#32 = .error .sel ∧ decode 0x32080000#32 = .error .sel ∧
    decode 0x47030000#32 = .error .sel ∧ decode 0x4A030000#32 = .error .sel ∧
    decode 0x600F0000#32 = .error .sel ∧
    decode 0x00000001#32 = .error .imm ∧ decode 0x01000001#32 = .error .imm := by
  decide

/-- The byte order of 20_memory.md R62: the `OPC` byte is the last one carried. -/
theorem test_decodeBytes : decodeBytes [0x03#8, 0x00#8, 0x00#8, 0x02#8, 0xAA#8] =
    .ok (.rdreg 3#16, [0xAA#8]) ∧ decodeBytes [0x03#8, 0x00#8, 0x00#8] = .error .short := by
  decide

/-! ### Literals: each pattern is the binary64 value nearest to its decimal -/

/-- The magnitude of the value nearest to `n / d`. -/
def nearest (n d : Nat) : Nat := roundUnits (n * oneUnits) d

theorem test_literals_shared :
    nearest 2 10 = fFifth.toNat ∧
    nearest 1 1000 = pwEps.toNat ∧
    nearest 6283185307179586 1000000000000000 = twoPi.toNat ∧
    nearest 3141592653589793 1000000000000000 = piF.toNat ∧
    nearest 44100 1 = srReset.toNat ∧
    nearest 82 10000 = rcDefault.toNat ∧
    nearest 6737946999085467 1000000000000000000 = epsA.toNat ∧
    nearest 1 1000000 = epsR.toNat ∧
    nearest 2147483645 1 = whiteSpan.toNat ∧
    nearest 440 1 = f440.toNat ∧
    nearest 12 1 = f12.toNat ∧
    nearest 127 1 = f127.toNat := by
  decide +kernel

theorem test_literals_pink :
    nearest 99765 100000 = kpL0.toNat ∧
    nearest 990460 10000000 = kpG0.toNat ∧
    nearest 96300 100000 = kpL1.toNat ∧
    nearest 2965164 10000000 = kpG1.toNat ∧
    nearest 57000 100000 = kpL2.toNat ∧
    nearest 10526913 10000000 = kpG2.toNat ∧
    nearest 1848 10000 = kpGW.toNat := by
  decide +kernel

theorem test_literals_exact :
    nearest 1 1 = fOne.toNat ∧
    nearest 2 1 = fTwo.toNat ∧
    nearest 3 1 = fThree.toNat ∧
    nearest 4 1 = fFour.toNat ∧
    nearest 8 1 = fEight.toNat ∧
    nearest 1 2 = fHalf.toNat ∧
    nearest 1 4 = fQuarter.toNat ∧
    nearest 3 4 = fThreeQuarters.toNat ∧
    nearest 1 8 = fEighth.toNat ∧
    nearest 3 8 = fThreeEighths.toNat ∧
    nearest 5 8 = fFiveEighths.toNat ∧
    nearest 7 8 = fSevenEighths.toNat ∧
    fMinusOne = fneg fOne ∧ fMinusTwo = fneg fTwo ∧ fMinusEight = fneg fEight := by
  decide +kernel

/-! ### Arithmetic and the oscillator primitives (sections 2.2 and 2.3) -/

theorem test_wrap :
    wrap 0xBFD0000000000000#64 = 0x3FE8000000000000#64 ∧
    wrap 0x3FF4000000000000#64 = 0x3FD0000000000000#64 ∧
    wrap 0x3FF0000000000000#64 = 0x0000000000000000#64 ∧
    wrap 0xBFF0000000000000#64 = 0x0000000000000000#64 ∧
    wrap 0xBBC79CA10C924223#64 = 0x0000000000000000#64 ∧
    wrap 0x3FF199999999999A#64 = 0x3FB99999999999A0#64 ∧
    isNaN (wrap 0x7FF0000000000000#64) = true := by
  decide +kernel

theorem test_gain :
    gain 0x3FC999999999999A#64 .saw = 0x3FF0000000000000#64 ∧
    gain 0x3FCAE147AE147AE1#64 .saw = 0x3FE999999999999D#64 ∧
    gain 0x3FD0000000000000#64 .saw = 0x0000000000000000#64 ∧
    gain 0x3FD0000000000000#64 .sine = 0x3FF0000000000000#64 ∧
    gain 0x3FD010624DD2F1AA#64 .sine = 0x3FEFDF3B645A1CAC#64 ∧
    gain 0x3FE0000000000000#64 .sine = 0x0000000000000000#64 ∧
    gain 0x7FF8000000000000#64 .sine = 0x0000000000000000#64 := by
  decide +kernel

theorem test_residuals :
    polyblep 0x0000000000000000#64 0x3F847AE147AE147B#64 = 0xBFF0000000000000#64 ∧
    polyblep 0x3F747AE147AE147B#64 0x3F847AE147AE147B#64 = 0xBFD0000000000000#64 ∧
    polyblep 0x3F847AE147AE147B#64 0x3F847AE147AE147B#64 = 0x0000000000000000#64 ∧
    polyblep 0x3FEFD70A3D70A3D7#64 0x3F847AE147AE147B#64 = 0x3FCFFFFFFFFFFFF0#64 ∧
    blamp 0x0000000000000000#64 0x3F847AE147AE147B#64 = 0x3FD5555555555555#64 ∧
    blamp 0x3FEFF7CED916872B#64 0x3F847AE147AE147B#64 = 0x3FCF1A9FBE76C8B1#64 := by
  decide +kernel

/-! ### Control and faults (section 2.1) -/

theorem test_nop :
    (gives (exec .nop base) .none 0#64) = true := by
  decide

theorem test_reset :
    (holds (exec .reset (withRows 4)) fun t => t.table.count == 0 && t.table.capacity == 4 && t.sys.sr == srReset) = true := by
  decide

theorem test_rdreg :
    (gives (exec (.rdreg 3#16) base) .value 0x40E5888000000000#64 && gives (exec (.rdreg 0x14#16) base) .value 3#64) = true := by
  decide

theorem test_rdreg_fault :
    (faults (exec (.rdreg 4#16) base) 4 && faults (exec (.rdreg 0xFFFF#16) base) 4) = true := by
  decide

theorem test_wrreg :
    (holds (exec (.wrreg 0x10#16) (arg 0x4004000000000000#64 base)) fun t => t.osc.t == 0x4004000000000000#64 && t.host.rtag == .none) = true := by
  decide

theorem test_wrreg_fault :
    (faults (exec (.wrreg 0x40#16) base) 4 && faults (exec (.wrreg 0x30#16) base) 5 &&
    faults (exec (.wrreg 0x20#16) (arg 3#64 base)) 5) = true := by
  decide

theorem test_status :
    (holds (exec (.wrreg 0#16) (arg 0x10#64 { base with sys := { base.sys with status := 0x11#5 } })) fun t =>
    t.sys.status == 1#5) = true := by
  decide

theorem test_first_fault :
    (holds (exec .vtGet (arg 5#64 { base with sys := { base.sys with status := 0x10#5, fcause := 1#64 } })) fun t =>
    t.sys.status == 0x14#5 && t.sys.fcause == 1#64) = true := by
  decide

theorem test_illegal_word :
    (holds (step (base.withFetchWord 32 0x01000001)) fun t =>
    t.sys.status == 1#5 && t.sys.fcmd == 0x01000001#64 && t.host.rtag == .fault) = true := by
  decide

/-! ### Oscillator (sections 2.3 and 2.4) -/

theorem test_osc_setwave :
    (holds (exec (.oscSetwave 0#4) (phaseAt 0#64 0x3FCCCCCCCCCCCCCD#64)) fun t => t.osc.wave == .sine && t.osc.a == fOne) = true := by
  decide

theorem test_osc_settings :
    (holds (exec .oscSync (arg 0xBFD0000000000000#64 base)) fun t => t.osc.t == 0x3FE8000000000000#64) = true ∧
    (holds (exec .oscSetfreq (arg 0x407B800000000000#64 base)) fun t => t.osc.dt == 0x3F846EFDCB4A6B82#64 && t.osc.a == fOne) = true ∧
    (holds (exec .oscSetinc (arg 0x3FCCCCCCCCCCCCCD#64 base)) fun t => t.osc.dt == 0x3FCCCCCCCCCCCCCD#64 && t.osc.a == fHalf) = true ∧
    (holds (exec (.oscSetwave 3#4) (phaseAt 0#64 0x3FCCCCCCCCCCCCCD#64)) fun t => t.osc.wave == .saw && t.osc.a == fHalf) = true := by
  decide +kernel

theorem test_osc_setpw :
    (holds (exec .oscSetpw (arg fOne base)) fun t => t.osc.pw == fOne) = true := by
  decide

theorem test_osc_inc_run :
    (holds (exec .oscInc (phaseAt 0x3FE6666666666666#64 0x3FD999999999999A#64)) fun t => t.osc.t == 0x3FB99999999999A0#64) = true ∧
    (holds (exec .oscInc (phaseAt 0#64 0xBFB999999999999A#64)) fun t => t.osc.t == 0x3FECCCCCCCCCCCCD#64) = true ∧
    (holds (exec .oscRun (phaseAt 0#64 0x3F847AE147AE147B#64)) fun t => t.host.res0 == 0#64 && t.osc.t == 0x3F847AE147AE147B#64) = true := by
  decide +kernel

theorem test_osc_sine_family :
    (holds (exec .oscTri (phaseAt 0x3FD0000000000000#64 0x3F847AE147AE147B#64)) fun t =>
    t.host.res0 == 0x3FEF92C5F92C5F93#64 && t.osc.t == 0x3FD0A3D70A3D70A4#64 && t.osc.wave == .saw) = true ∧
    (gives (exec .oscTrap (phaseAt 0x3FB999999999999A#64 0x3F847AE147AE147B#64)) .value 0x3FE999999999999A#64 &&
    gives (exec .oscTrap (phaseAt 0x3FECCCCCCCCCCCCD#64 0x0000000000000000#64)) .value 0xBFE9999999999998#64) = true ∧
    (gives (exec .oscTrappw (let s := phaseAt 0x3F747AE147AE147B#64 0x3F847AE147AE147B#64; { s with osc := { s.osc with pw := fQuarter } })) .value 0x3F9B4E81B4E81B4E#64 &&
    gives (exec .oscTrappw (let s := phaseAt 0x3FEFD70A3D70A3D7#64 0x3F847AE147AE147B#64; { s with osc := { s.osc with pw := fQuarter } })) .value 0xBF9B4E81B4E81B55#64) = true ∧
    (gives (exec .oscTripulse (let s := phaseAt 0x0000000000000000#64 0x3F847AE147AE147B#64; { s with osc := { s.osc with pw := fQuarter } })) .value 0xBFEF258BF258BF26#64 &&
    gives (exec .oscTripulse (phaseAt 0x3FD3333333333333#64 0x3F847AE147AE147B#64)) .value 0x3FE3333333333334#64) = true ∧
    (gives (exec .oscCircle (phaseAt 0x3FD3333333333333#64 0x3F847AE147AE147B#64)) .value 0x3FEF5A7CECDB684A#64 &&
    gives (exec .oscCircle (phaseAt 0x3FE0000000000000#64 0x3F847AE147AE147B#64)) .value 0x8000000000000000#64) = true := by
  decide +kernel

theorem test_osc_square_family :
    (gives (exec .oscSquare (phaseAt 0x3FEFD70A3D70A3D7#64 0x3F847AE147AE147B#64)) .value 0xBFE8000000000004#64 &&
    gives (exec .oscSquare (phaseAt 0x3FE0000000000000#64 0x3F847AE147AE147B#64)) .value 0x0000000000000000#64) = true ∧
    (gives (exec .oscSaw (phaseAt 0x3FEFD70A3D70A3D7#64 0xBF847AE147AE147B#64)) .value 0x3FE7AE147AE147B2#64 &&
    gives (exec .oscSaw (phaseAt 0x3FD3333333333333#64 0x0000000000000000#64)) .value 0xBFD999999999999A#64) = true ∧
    (gives (exec .oscRamp (phaseAt 0x3F747AE147AE147B#64 0x3F847AE147AE147B#64)) .value 0x3FE7AE147AE147AE#64 &&
    gives (exec .oscRamp (phaseAt 0x0000000000000000#64 0x0000000000000000#64)) .value 0x3FF0000000000000#64) = true ∧
    (gives (exec .oscRect (phaseAt 0x3FD0000000000000#64 0x3F847AE147AE147B#64)) .value 0x3FF0000000000000#64 &&
    gives (exec .oscRect (let s := phaseAt 0x3FEFFBE76C8B4396#64 0#64; { s with osc := { s.osc with pw := fOne } })) .value fMinusOne) = true ∧
    (gives (exec .oscStair (phaseAt 0x3FD3333333333333#64 0x3F847AE147AE147B#64)) .value 0x3FD5555555555555#64 &&
    gives (exec .oscStair (phaseAt 0x3FE199999999999A#64 0x0000000000000000#64)) .value 0xBFD5555555555555#64) = true := by
  decide +kernel

/-- The sample rests on `NUM.sin`, which is open; the advance does not. -/
theorem test_osc_open_sines :
    (holds (exec .oscSine (phaseAt 0x3FD0000000000000#64 0x3F847AE147AE147B#64)) fun t => t.osc.t == 0x3FD0A3D70A3D70A4#64 && t.host.rtag == .value) = true ∧
    (holds (exec .oscHwrsine (phaseAt 0x3FD0000000000000#64 0x3F847AE147AE147B#64)) fun t => t.osc.t == 0x3FD0A3D70A3D70A4#64 && t.host.rtag == .value) = true ∧
    (holds (exec .oscFwrsine (phaseAt 0x3FD0000000000000#64 0x3F847AE147AE147B#64)) fun t => t.osc.t == 0x3FD0A3D70A3D70A4#64 && t.host.rtag == .value) = true ∧
    (holds (exec .oscHammond (phaseAt 0x3FD0000000000000#64 0x3F847AE147AE147B#64)) fun t => t.osc.t == 0x3FD0A3D70A3D70A4#64 && t.host.rtag == .value) = true := by
  decide +kernel

/-! ### Envelope (section 2.5) -/

theorem test_env_coefficients :
    (holds (exec .envSetatk (arg 0x3F50624DD2F1A9FC#64 base)) fun t => t.env.a == 0x3FBA11BA226951DB#64) = true ∧
    (holds (exec .envSetdec (arg 0x3F847AE147AE147B#64 base)) fun t => t.env.d == 0x3F86F5AB0CA0B7AD#64) = true ∧
    (holds (exec .envSetrel (arg 0x3FF0000000000000#64 base)) fun t => t.env.r == 0x3F1DB7DA27E03139#64) = true := by
  decide +kernel

theorem test_env_set_guard :
    (holds (exec .envSetatk (arg 0x7FF8000000000000#64 base)) fun t => t.env.a == fOne) = true := by
  decide

theorem test_env_setsus :
    (holds (exec .envSetsus (arg fHalf base)) fun t => t.env.s == fHalf && t.env.env == fZero) = true := by
  decide

theorem test_env_attack_zero_time :
    (holds (exec .envAttack (arg fOne base)) fun t =>
    t.env.state == .decay && t.env.env == fOne && t.env.scale == fOne) = true := by
  decide

theorem test_env_attack_nan :
    (holds (exec .envAttack (arg fOne { base with env := { base.env with a := 0x7FF8000000000000#64 } })) fun t => t.env.state == .attack) = true := by
  decide

theorem test_env_release :
    (holds (exec .envRelease { base with env := { base.env with state := .sustain, env := fHalf } }) fun t =>
    t.env.state == .idle && t.env.env == fZero) = true := by
  decide

theorem test_env_release_timed :
    (holds (exec .envRelease { base with env := { base.env with r := 0x3FBA11BA226951DB#64, env := fHalf } }) fun t => t.env.state == .release && t.env.env == fHalf) = true := by
  decide

theorem test_env_step :
    (holds (exec .envStep { base with env := { base.env with state := .attack, scale := fOne, a := 0x3FBA11BA226951DB#64, env := 0x3FBA11BA226951DB#64 } }) fun t =>
    t.host.res0 == 0x3FC8BDEC9DCAAB8A#64 && t.host.res1 == 1#64) = true ∧
    (holds (exec .envStep { base with env := { base.env with state := .decay, scale := fOne, env := fOne } }) fun t =>
    t.host.res0 == fOne && t.host.res1 == 4#64) = true ∧
    (holds (exec .envStep { base with env := { base.env with state := .release, scale := fOne, r := 0x3FBA11BA226951DB#64, env := 0x3FC8BDEC9DCAAB8A#64 } }) fun t =>
    t.host.res0 == 0x3FC638EBFBBC49C7#64 && t.host.res1 == 8#64) = true := by
  decide +kernel

/-! ### Noise (section 2.6) -/

theorem test_nz_init :
    (holds (exec .nzInit (arg 2147483647#64 base)) (fun t => t.noise.seed == 1#64) &&
    holds (exec .nzInit (arg 0xFFFFFFFFFFFFFFFF#64 base)) (fun t => t.noise.seed == 2147483645#64)) = true := by
  decide

theorem test_nz_lcg :
    (gives (exec .nzLcg base) .value 48271#64 &&
    gives (exec .nzLcg { base with noise := { base.noise with seed := 48271#64 } }) .value 182605794#64) = true := by
  decide

theorem test_nz_integrated_samples :
    (gives (exec .nzWhite base) .value 0xBFEFFFA1B8FFFDCA#64 &&
    gives (exec .nzWhite { base with noise := { base.noise with seed := 1899818559#64 } }) .value fMinusOne) = true ∧
    (holds (exec .nzPink base) fun t => t.host.res0 == 0xBFFA20AFEFC1A5B8#64 &&
    t.noise.b0 == 0xBFB95AC96EFF76FB#64 && t.noise.b2 == 0xBFF0D7A135CA5B15#64) = true ∧
    (gives (exec .nzBrown base) .value 0xBF6697128A6D5CFF#64 &&
    gives (exec .nzBrown { base with noise := { base.noise with rc := fZero } }) .value 0xBF6697128A6D5CFF#64) = true := by
  decide +kernel

/-- The sample rests on the open coefficients; the seed does not. -/
theorem test_nz_grey :
    (holds (exec .nzGrey base) fun t => t.noise.seed == 48271#64 && t.host.rtag == .value) = true := by
  decide

theorem test_nz_other_samples :
    (gives (exec .nzBlue { base with noise :=
    { base.noise with seed := 48271#64, b0 := 0xBFB95AC96EFF76FB#64, b1 := 0xBFD2F9E80355D3F8#64
                      b2 := 0xBFF0D7A135CA5B15#64, bluePrev := 0xBFFA20AFEFC1A5B8#64 } }) .value 0xBFE69D423E5FEF78#64) = true ∧
    (gives (exec .nzViolet { base with noise :=
    { base.noise with seed := 48271#64, violetPrev := 0xBFEFFFA1B8FFFDCA#64 } }) .value 0x3FC5C336A6829348#64) = true ∧
    (gives (exec .nzBlack { base with noise := { base.noise with seed := 182605794#64 } }) .value 0#64 &&
    gives (exec .nzBlack base) .value 0xBFEFFFA1B8FFFDCA#64) = true := by
  decide +kernel

theorem test_nz_setrc :
    (holds (exec .nzSetrc (arg fHalf base)) fun t => t.noise.rc == fHalf) = true := by
  decide

theorem test_nz_setdens :
    (holds (exec .nzSetdens (arg fOne base)) fun t => t.noise.density == fOne) = true := by
  decide

/-! ### Voice table (section 2.7) -/

theorem test_vt_first_last :
    (gives (exec .vtFirst (withRows 3)) .value 0#64 && gives (exec .vtLast (withRows 3)) .value 2#64 &&
    gives (exec .vtFirst base) .notfound 0xFFFFFFFFFFFFFFFF#64 && gives (exec .vtLast base) .notfound 0xFFFFFFFFFFFFFFFF#64) = true := by
  decide

theorem test_vt_next :
    (gives (exec .vtNext (arg 1#64 (withRows 3))) .value 2#64 &&
    gives (exec .vtNext (arg 2#64 (withRows 3))) .notfound 0xFFFFFFFFFFFFFFFF#64 && faults (exec .vtNext (arg 0xFFFFFFFFFFFFFFFF#64 (withRows 3))) 3) = true := by
  decide

theorem test_vt_get :
    (gives (exec .vtGet (arg 2#64 (withRows 3))) .value 2#64 && faults (exec .vtGet (arg 3#64 (withRows 3))) 3) = true := by
  decide

theorem test_vt_append :
    (faults (exec .vtAppend (withRows 3)) 2 && gives (exec .vtAppend (withRows 4)) .value 3#64) = true := by
  decide

theorem test_vt_insert :
    (holds (exec .vtInsert (arg 1#64 (withRows 4))) fun t => t.host.res0 == 1#64 && t.table.count == 4 &&
    (rowAt t.table 0).note == 60#64 && (rowAt t.table 2).note == 64#64 && (rowAt t.table 3).note == 67#64) = true := by
  decide

theorem test_vt_insert_fault :
    (faults (exec .vtInsert (arg 3#64 (withRows 3))) 2 && faults (exec .vtInsert (arg 4#64 (withRows 3))) 3) = true := by
  decide

theorem test_vt_remove :
    (holds (exec .vtRemove (arg 0#64 (withRows 3))) fun t => t.host.res0 == 0#64 && t.table.count == 2 &&
    (rowAt t.table 0).note == 64#64 && (rowAt t.table 1).note == 67#64) = true := by
  decide

theorem test_vt_remove_last :
    (gives (exec .vtRemove (arg 2#64 (withRows 3))) .notfound 0xFFFFFFFFFFFFFFFF#64) = true := by
  decide

theorem test_vt_find :
    (gives (exec (.vtFind 0#4) (arg 64#64 (withRows 3))) .value 1#64 &&
    gives (exec (.vtFind 1#4) (arg 0x8000000000000000#64 (withRows 3))) .value 0#64) = true := by
  decide

theorem test_vt_find_start :
    (gives (exec (.vtFind 0#4) (arg 64#64 (arg1 3#64 (withRows 3)))) .notfound 0xFFFFFFFFFFFFFFFF#64 &&
    faults (exec (.vtFind 0#4) (arg 64#64 (arg1 4#64 (withRows 3)))) 3 &&
    gives (exec (.vtFind 0#4) (arg 64#64 (arg1 0xFFFFFFFFFFFFFFFF#64 (withRows 3)))) .notfound 0xFFFFFFFFFFFFFFFF#64) = true := by
  decide

theorem test_vt_clear :
    (holds (exec .vtClear (withRows 3)) fun t => t.table.count == 0) = true := by
  decide

theorem test_vt_rdf :
    (gives (exec (.vtRdf 2#4) (arg 0#64 (withRows 3))) .value 0x3F847AE147AE147B#64 && faults (exec (.vtRdf 0#4) base) 3) = true := by
  decide

theorem test_vt_wrf :
    (holds (exec (.vtWrf 1#4) (arg 1#64 (arg1 0x3FF8000000000000#64 (withRows 3)))) fun t =>
    rowAt t.table 1 == ⟨64#64, 0x3FF8000000000000#64, 0x3F847AE147AE147B#64⟩ && rowAt t.table 2 == ⟨67#64, 0#64, 0x3F847AE147AE147B#64⟩) = true := by
  decide

/-! ### Event queue (section 2.8) -/

/-- A queue of 2 entries with the note-on of section 2.8 pending, and the results of an earlier command. -/
def queued (offset : Word64) : State :=
  { base with
    queue := { base.queue with tail := 1, ev := [⟨offset, 0x90#8, 0x6445#16⟩] }
    host := { base.host with res1 := 7#64, res2 := 8#64, res3 := 9#64 } }

theorem test_eq_rewind :
    (holds (exec .eqRewind (queued 0#64)) fun t => t.queue.tail == 0 && t.queue.ev.length == 1) = true := by
  decide

theorem test_eq_push :
    (holds (exec .eqPush { base with host :=
    { base.host with arg0 := 3#64, arg1 := 0x1F0#64, arg2 := 0x1FF#64, arg3 := 0x102#64 } }) fun t =>
    t.queue.tail == 1 && eventAt t.queue 0 == ⟨3#64, 0xF0#8, 0x02FF#16⟩) = true := by
  decide

theorem test_eq_push_full :
    (holds (exec .eqPush { base with queue := { base.queue with tail := 2 } }) fun t =>
    t.queue.tail == 2 && t.sys.status == 0#5 && t.host.rtag == .none) = true := by
  decide

theorem test_eq_pop :
    (holds (exec .eqPop (queued 0#64)) fun t => t.host.rtag == .value && t.host.res0 == 0#64 &&
    t.host.res1 == 144#64 && t.host.res2 == 69#64 && t.host.res3 == 100#64 && t.queue.head == 1) = true := by
  decide

theorem test_eq_pop_none :
    (holds (exec .eqPop (queued 1#64)) fun t => t.host.rtag == .notfound && t.queue.counter == 1 &&
    t.host.res1 == 7#64 && t.host.res3 == 9#64 && t.queue.head == 0) = true := by
  decide

/-! ### Voice loop (sections 1.8 and 2.9) -/

/-- An empty tick under a negative volume, and the second sample of section 1.8. -/
theorem test_syn_tick :
    (holds (exec .synTick { base with syn := { base.syn with vol := fMinusOne } }) fun t =>
    t.host.res0 == 0x8000000000000000#64 && t.syn.outL == t.host.res0 && t.queue.counter == 1) = true ∧
    (holds (exec .synTick { base with
    table := { count := 1, capacity := 3
               rows := [⟨69#64, 0x3F846EFDCB4A6B82#64, 0x3F846EFDCB4A6B82#64⟩] }
    env := { base.env with state := .sustain, env := 0x3FE93264C993264D#64 } }) fun t =>
    t.host.res0 == 0xBFE8B1ADA91BA62D#64 && t.syn.outR == t.host.res0) = true := by
  decide +kernel

/-- A velocity-0 note-on is a note-off, on any channel (section 2.9). -/
theorem test_syn_tick_velocity_zero :
    (holds (exec .synTick { withRows 3 with queue :=
    { base.queue with tail := 1, ev := [⟨0#64, 0x95#8, 0x0040#16⟩] } }) fun t =>
    t.table.count == 2 && (rowAt t.table 1).note == 67#64 && t.queue.head == 1 && t.queue.counter == 1) = true := by
  decide
/-! ### Witnesses: for every obligation with hypotheses, values that meet them, clause by clause -/

/-- A state whose invariants hold, with three rows in a table of four and one pending note-on. -/
def busy : State :=
  { withRows 4 with queue := { Queue.reset 2 with tail := 1, ev := [⟨5#64, 0x90#8, 0x6445#16⟩] } }

/-- The event of a status and packed data bytes. -/
def event (status : BitVec 8) (packed : BitVec 16) : Event := ⟨0#64, status, packed⟩

theorem witness_RdregReadsTheNumberedRegister :
    registerValue base 0x0000 = some 0#64 ∧ registerValue base 0x0065 = some 0#64 ∧
    registerValue base 0x0004 = none ∧ registerValue base 0x0066 = none ∧ registerValue base 0xFFFF = none := by
  decide

theorem witness_WrregStoresAnyValueInAnRwRegister :
    (0x0001#16).toNat ∈ rwNumbers ∧ (0x0063#16).toNat ∈ rwNumbers := by decide

theorem witness_WrregChecksTheLegalSet :
    rwlLegal 0x0014 (13#64).toInt ∧ ¬ rwlLegal 0x0014 (14#64).toInt ∧ ¬ rwlLegal 0x0014 (BitVec.ofInt 64 (-1)).toInt ∧
    rwlLegal 0x0020 (8#64).toInt ∧ ¬ rwlLegal 0x0020 (3#64).toInt ∧
    rwlLegal 0x0030 (2147483646#64).toInt ∧ ¬ rwlLegal 0x0030 (0#64).toInt ∧
    rwlLegal 0x0060 (2#64).toInt ∧ ¬ rwlLegal 0x0060 (3#64).toInt ∧
    rwlLegal 0x0062 (7#64).toInt ∧ ¬ rwlLegal 0x0062 (8#64).toInt := by
  refine ⟨?_, ?_, ?_, ?_, ?_, ?_, ?_, ?_, ?_, ?_, ?_⟩ <;> unfold rwlLegal <;> decide

theorem witness_WrregRefusesReadOnlyAndUnassignedNumbers :
    (0x0065#16).toNat ∈ roNumbers ∧ registerValue base (0x0066#16).toNat = none := by decide

theorem witness_BadRowReferencesFaultVtIndex :
    ¬ NamesRow 3#64 (withRows 3).table ∧ ¬ NamesRow (BitVec.ofInt 64 (-1)) (withRows 3).table ∧
    ¬ (0 ≤ (4#64).toInt ∧ (4#64).toInt ≤ ((withRows 3).table.count : Int)) ∧
    ¬ (-1 ≤ (4#64).toInt ∧ (4#64).toInt ≤ ((withRows 3).table.count : Int)) ∧
    ¬ (-1 ≤ (BitVec.ofInt 64 (-2)).toInt ∧ (BitVec.ofInt 64 (-2)).toInt ≤ ((withRows 3).table.count : Int)) ∧
    (2#4).toNat ≤ 2 := by decide

theorem witness_GrowingAFullTableFaultsVtFull :
    (withRows 3).table.count = (withRows 3).table.capacity ∧ 0 ≤ (3#64).toInt ∧
    (3#64).toInt ≤ ((withRows 3).table.count : Int) := by decide

/-- A first fault, and one with `STATUS` not 0. -/
theorem witness_AFaultChangesOnlyItsRecord :
    (∃ t, exec .vtGet (arg 3#64 (withRows 3)) = .next t ∧ t.host.rtag = .fault) ∧
    (∃ t, exec .vtGet { base with sys := { base.sys with status := 1#5 } } = .next t ∧ t.host.rtag = .fault) :=
  ⟨⟨_, rfl, by decide⟩, ⟨_, rfl, by decide⟩⟩

theorem witness_IllegalWordsFaultIllegalCmd :
    LegalWord 0x4A020000#32 ∧ ¬ LegalWord 0x17FF0000#32 :=
  ⟨⟨⟨(0x4A, 0, 2), by decide, by decide⟩, by decide, by decide⟩, fun h => absurd h.2.1 (by decide)⟩

theorem witness_OscSettingCommandsSetTheirRegisters :
    (0#4).toNat = waveCode .sine ∧ (13#4).toNat = waveCode .stair := by decide

theorem witness_OscRenderProducesThenAdvances : base.osc.wave = .saw := by decide

theorem witness_SawIsTheNaiveRampAwayFromTheJump :
    flt fZero fQuarter = true ∧ flt fQuarter fOne = true ∧ fle (fabs (fneg fQuarter)) fQuarter = true ∧
    fle fQuarter (fsub fOne (fabs (fneg fQuarter))) = true ∧
    flt fThreeQuarters fOne = true ∧ fle (fabs fQuarter) fThreeQuarters = true ∧
    fle fThreeQuarters (fsub fOne (fabs fQuarter)) = true := by decide +kernel

theorem witness_ResidualsAtTheirLandmarks :
    inUnit fZero = true ∧ inUnit 0x3FEFFFFFFFFFFFFF#64 = true ∧ inUnit fOne = false ∧ flt fZero 1#64 = true ∧
    flt fQuarter fHalf = true ∧
    (flt fThreeQuarters fHalf = false ∧ fgt fThreeQuarters (fsub fOne fHalf) = true) ∧
    (flt fHalf fHalf = false ∧ fgt fHalf (fsub fOne fHalf) = false) := by
  decide +kernel

/-- Every range of both families, at its ends. -/
theorem witness_GainFollowsItsThresholds :
    fle fFifth fFifth = true ∧ flt fFifth 0x3FC999999999999B#64 = true ∧ flt 0x3FC999999999999B#64 fQuarter = true ∧
    fle fQuarter fQuarter = true ∧ flt fQuarter 0x3FD0000000000001#64 = true ∧
    flt 0x3FD0000000000001#64 fHalf = true ∧ fle fHalf fHalf = true ∧ isNaN nanMade = true := by decide

theorem witness_WrapLandsInTheUnitInterval :
    isFinite 0xFFEFFFFFFFFFFFFF#64 = true ∧ inUnit fHalf = true ∧ isFinite 0x7FF0000000000000#64 = false := by decide

theorem witness_PulseWidthIsClamped :
    isNaN nanMade = true ∧ flt fZero pwEps = true ∧ fle pwEps pwEps = true ∧ fle pwEps (fsub fOne pwEps) = true ∧
    flt (fsub fOne pwEps) fOne = true := by decide +kernel

theorem witness_EnvSettingCommandsSetTheirCoefficients :
    fgt 1#64 fZero = true ∧ fgt fZero fZero = false ∧ fgt nanMade fZero = false := by decide

theorem witness_EnvTriggersEnterTheirSegments :
    fge fOne fOne = true ∧ fge 0x3FEFFFFFFFFFFFFF#64 fOne = false ∧ flt 0x3FEFFFFFFFFFFFFF#64 fOne = true ∧
    flt fOne fOne = false := by decide

/-- An exit and a stay in each of the three moving segments, from (env, coefficient, scale). -/
theorem witness_EnvStepIntegratesThenTestsItsExit :
    fle (fabs (fsub (integrate fZero fOne fOne) fOne)) (fmul fOne epsA) = true ∧
    fle (fabs (fsub (integrate fZero fHalf fOne) fOne)) (fmul fOne epsA) = false ∧
    fle (fabs (fsub (integrate fZero fOne (fmul fOne fHalf)) (fmul fOne fHalf))) (fmul fOne epsR) = true ∧
    fle (fabs (fsub (integrate fOne fHalf (fmul fOne fHalf)) (fmul fOne fHalf))) (fmul fOne epsR) = false ∧
    fle (fabs (integrate fOne fOne fZero)) (fmul fOne epsR) = true ∧
    fle (fabs (integrate fOne fHalf fZero)) (fmul fOne epsR) = false := by decide +kernel

/-- A trigger, and a step that leaves its segment. -/
theorem witness_OnlyTheseCommandsMoveTheSegment :
    (∃ t, exec .envAttack base = .next t ∧ t.env.state ≠ base.env.state) ∧
    (∃ t, exec .envStep { base with env := { base.env with state := .decay } } = .next t ∧ t.env.state ≠ .decay) :=
  ⟨⟨_, rfl, by decide⟩, ⟨_, rfl, by decide +kernel⟩⟩

theorem witness_CoefficientsLieInTheUnitInterval :
    isFinite srReset = true ∧ flt fZero srReset = true ∧ fgt fOne fZero = true ∧
    isFinite (fmul (fmul fFifth fOne) srReset) = true := by decide +kernel

theorem witness_TheSeedStaysInItsDomain :
    1 ≤ (1#64).toInt ∧ (2147483646#64).toInt ≤ 2147483646 ∧ SeedLegal 1#64 ∧ SeedLegal 2147483646#64 := by decide

theorem witness_WhiteLiesInTheClosedInterval :
    SeedLegal 1899818559#64 ∧ SeedLegal 247665088#64 ∧
    ({ base with noise := { base.noise with seed := 1899818559#64 } } : State).noise.seed = 1899818559#64 := by decide

theorem witness_FullDensityMakesBlackEqualWhite : fle fOne fOne = true ∧ isNaN nanMade = true := by decide

theorem witness_NoiseSettingsAreStoredAsWritten : fgt rcDefault fZero = true ∧ fgt fZero fZero = false := by decide

theorem witness_RowReferenceCommandsNameRows :
    NamesRow 0#64 (withRows 3).table ∧ NamesRow 2#64 (withRows 3).table ∧ 0 < (withRows 3).table.count ∧
    base.table.count = 0 ∧ (1#64).toInt + 1 < ((withRows 3).table.count : Int) ∧
    ¬ (2#64).toInt + 1 < ((withRows 3).table.count : Int) := by decide

theorem witness_VtAppendAddsARowAtTheEnd :
    TableWf (withRows 4).table ∧ (withRows 4).table.count < (withRows 4).table.capacity := by decide

theorem witness_VtInsertOpensARow :
    TableWf (withRows 4).table ∧ (withRows 4).table.count < (withRows 4).table.capacity ∧ 0 ≤ (0#64).toInt ∧
    (3#64).toInt ≤ ((withRows 4).table.count : Int) := by decide

theorem witness_VtRemoveClosesTheGap :
    TableWf (withRows 3).table ∧ NamesRow 0#64 (withRows 3).table ∧ NamesRow 2#64 (withRows 3).table ∧
    (0#64).toInt + 1 < ((withRows 3).table.count : Int) ∧ ¬ (2#64).toInt + 1 < ((withRows 3).table.count : Int) := by
  decide

/-- A first match at index 1 from start 0, and no match from start 2 and from start 3 = `VT_COUNT`. -/
theorem witness_VtFindReturnsTheFirstMatch :
    (0#4).toNat = columnCode .note ∧ (2#4).toNat = columnCode .dt ∧ (BitVec.ofInt 64 (-1)).toInt = -1 ∧
    ColumnEquals .note 64#64 (rowAt (withRows 3).table 1) ∧ ¬ ColumnEquals .note 64#64 (rowAt (withRows 3).table 0) ∧
    ¬ ColumnEquals .note 64#64 (rowAt (withRows 3).table 2) ∧ (3#64).toInt ≤ ((withRows 3).table.count : Int) := by
  unfold ColumnEquals
  decide

theorem witness_VtClearReadAndWriteFields :
    (2#4).toNat = columnCode .dt ∧ NamesRow 2#64 (withRows 3).table ∧ TableWf (withRows 3).table ∧
    Column.note ≠ Column.dt ∧ 1 < (withRows 3).table.count ∧ 1 ≠ (2#64).toNat := by decide

theorem witness_OnlyTableCommandsChangeTheTable :
    ∃ t, exec .vtClear (withRows 3) = .next t ∧ t.table ≠ (withRows 3).table := ⟨_, rfl, by decide⟩

theorem witness_EqRewindAndPush :
    QueueWf busy.queue ∧ busy.queue.tail < busy.queue.capacity ∧ 0 ≠ busy.queue.tail ∧ 2 ≠ busy.queue.tail ∧
    (Queue.reset 0).capacity ≤ (Queue.reset 0).tail := by decide

/-- Visible; pending and not arrived; nothing pending; and the counter at its greatest value. -/
theorem witness_EqPopIsGatedByTheCounter :
    (let q := { busy.queue with counter := 5 };
      q.head < q.tail ∧ (eventAt q q.head).offset.toInt ≤ (q.counter : Int)) ∧
    (let q := { busy.queue with counter := 4 };
      ¬ (q.head < q.tail ∧ (eventAt q q.head).offset.toInt ≤ (q.counter : Int))) ∧
    ¬ base.queue.head < base.queue.tail ∧ ¬ 9223372036854775807 < 9223372036854775807 := by decide

/-- The voices of each mode, noise off and on, phases that are no NaN, and a NaN phase and a NaN increment. -/
theorem witness_SynTickRendersAfterTheDrain :
    TableWf busy.table ∧ headVisible busy.queue = false ∧ (∃ u, exec .envStep busy = .next u) ∧
    busy.syn.noise = none ∧ (∃ v, exec (colourCommandOf .white) busy = .next v) ∧
    ({ busy with syn := { busy.syn with noise := some .white } } : State).syn.noise = some .white ∧
    selectedVoices .poly 3 = [0, 1, 2] ∧ selectedVoices .monoNewest 3 = [2] ∧ selectedVoices .monoOldest 3 = [0] ∧
    selectedVoices .monoNewest 0 = [] ∧ (∀ i ∈ selectedVoices .poly 3, isNaN (rowAt busy.table i).phase = false) ∧
    isNaN (rowAt { busy.table with rows := [⟨60#64, nanMade, dtShort⟩] } 0).phase = true ∧
    busy.osc.wave ∈ [Wave.tri, .saw, .ramp, .trap, .trappw, .circle] ∧
    isNaN (rowAt { busy.table with rows := [⟨60#64, fZero, nanMade⟩] } 0).dt = true ∧
    ({ busy with osc := { busy.osc with wave := .tri } } : State).osc.wave ∈
      [Wave.tri, .trap, .trappw, .tripulse, .hwrsine, .fwrsine] :=
  ⟨by decide, by decide, ⟨_, rfl⟩, by decide, ⟨_, rfl⟩, by decide, by decide, by decide, by decide, by decide,
    by decide, by decide, by decide, by decide, by decide⟩

/-- What R142 (`−1.0 otherwise`, with R10) and R123 (`also for d = NaN`) give for a NaN phase and a NaN increment,
where 70_reset_and_hazards.md R339 says NaN (log 22). -/
theorem test_nan_phase_of_a_square_and_gain_of_a_nan_increment :
    waveValue (fun _ x => x) .square nanMade dtShort fOne fHalf = fMinusOne ∧
    gain (fabs nanMade) .saw = fZero := by decide +kernel

/-- A tick that leaves an entry pending, and one that handles an entry. -/
theorem witness_ATickDrainsAndCountsOnce :
    (drain busy).queue.head < (drain busy).queue.tail ∧ busy.queue.head ≤ busy.queue.tail ∧
    (let s := { base with queue := { busy.queue with counter := 5 } };
      s.queue.head ≤ 0 ∧ 0 < (drain s).queue.head ∧ s.queue.head < s.queue.tail ∧
        (eventAt s.queue s.queue.head).offset.toInt ≤ (s.queue.counter : Int)) := by decide

/-- A rendered and a silent row in each mode. -/
theorem witness_OnlyTheSelectedVoicesAdvance :
    TableWf busy.table ∧ headVisible busy.queue = false ∧ 0 < busy.table.count ∧ 2 < busy.table.count ∧
    2 + 1 = busy.table.count ∧ 1 + 1 < busy.table.count ∧ busy.syn.mode = .poly ∧
    ({ busy with syn := { busy.syn with mode := .monoNewest } } : State).syn.mode = .monoNewest ∧
    ({ busy with syn := { busy.syn with mode := .monoOldest } } : State).syn.mode = .monoOldest := by decide

theorem witness_AnEmptyTickIsSilent :
    headVisible base.queue = false ∧ base.table.count = 0 ∧
    ({ base with syn := { base.syn with noise := some .pink } } : State).syn.noise = some .pink := by decide

/-- A full table, and one with room. -/
theorem witness_ANoteOnAppendsARow :
    TableWf (withRows 3).table ∧ (withRows 3).table.count = (withRows 3).table.capacity ∧
    TableWf (withRows 4).table ∧ (withRows 4).table.count ≠ (withRows 4).table.capacity ∧
    (event 0x9F#8 0x0145#16).status.toNat / 16 = 9 ∧ 0 < (event 0x9F#8 0x0145#16).packed.toNat / 256 := by decide

/-- Both note-off forms, with and without a row; all notes off; and three ignored events. -/
theorem witness_NoteOffAllNotesOffAndIgnoredEvents :
    TableWf (withRows 3).table ∧ (event 0x80#8 0x0040#16).status.toNat / 16 = 8 ∧
    (event 0x9F#8 0x0040#16).status.toNat / 16 = 9 ∧ (event 0x9F#8 0x0040#16).packed.toNat / 256 = 0 ∧
    (rowAt (withRows 3).table 1).note = BitVec.ofNat 64 ((event 0x80#8 0x0040#16).packed.toNat % 256) ∧
    (rowAt (withRows 3).table 0).note ≠ BitVec.ofNat 64 ((event 0x80#8 0x0040#16).packed.toNat % 256) ∧
    (∀ k, k < (withRows 3).table.count →
      (rowAt (withRows 3).table k).note ≠ BitVec.ofNat 64 ((event 0x80#8 0x0032#16).packed.toNat % 256)) ∧
    (event 0xB5#8 0x007B#16).status.toNat / 16 = 11 ∧ (event 0xB5#8 0x007B#16).packed.toNat % 256 = 123 ∧
    (event 0xA0#8 0x3245#16).status.toNat / 16 = 10 ∧ (event 0xB0#8 0x007A#16).packed.toNat % 256 = 122 := by decide

theorem witness_ATickDrawsNoiseOnce :
    base.syn.noise = none ∧
    ({ base with syn := { base.syn with noise := some .black } } : State).syn.noise ≠ none := by decide

/-- A state that is not reset, and a step of it. -/
theorem witness_EveryStepKeepsTheInvariants :
    Invariant busy ∧ ∃ t, step (busy.withFetchWord 32 0x31000000) = .next t :=
  ⟨by decide, ⟨_, rfl⟩⟩

theorem witness_PhasesStayInTheUnitInterval :
    Invariant busy ∧ Instr.oscRun ≠ .wrreg 0x0010#16 ∧ Instr.oscRun ≠ .vtWrf 1#4 ∧ Instr.oscRun ≠ .vtAppend ∧
    Instr.oscRun ≠ .vtInsert ∧ PhaseOk busy.osc.t ∧ (∀ r ∈ liveRows busy.table, PhaseOk r.phase) ∧
    liveRows busy.table ≠ [] ∧ ∃ t, exec .oscRun busy = .next t :=
  ⟨by decide, by decide, by decide, by decide, by decide, by decide, by decide, by decide, ⟨_, rfl⟩⟩

/-- A value, a fault and a not-found. -/
theorem witness_OperandAndResultRegistersAreKept :
    (∃ t, exec .eqPop busy = .next t ∧ t.host.rtag = .notfound) ∧
    (∃ t, exec .nop busy = .next t ∧ t.host.rtag = .none) ∧
    (∃ t, exec .vtGet (arg 3#64 busy) = .next t ∧ t.host.rtag = .fault) :=
  ⟨⟨_, rfl, by decide⟩, ⟨_, rfl, by decide⟩, ⟨_, rfl, by decide⟩⟩

theorem witness_StatusBitsAreSticky :
    ∃ t, exec .vtGet (arg 3#64 busy) = .next t ∧ t.sys.status ≠ busy.sys.status ∧
      Instr.vtGet ≠ .reset ∧ Instr.vtGet ≠ .wrreg 0x0000#16 := ⟨_, rfl, by decide, by decide, by decide⟩

theorem witness_DecodeOfEncodeIsTheCommand :
    (Instr.oscSetwave 13#4).WellFormed = true ∧ (Instr.rdreg 0xFFFF#16).WellFormed = true := by decide

theorem witness_EncodeOfDecodeIsTheWord :
    decode 0x4A020000#32 = .ok (.vtWrf 2#4) ∧ decode 0x0300FFFF#32 = .ok (.wrreg 0xFFFF#16) := by decide

theorem witness_AStepRunsTheDecodedCommand :
    (placeWord 0x52000000#32 busy).input = .issue 0x52000000#32 :: [] ∧ decode 0x52000000#32 = .ok .eqPop :=
  ⟨rfl, by decide⟩

theorem witness_HostMovesWriteOneOperandRegister :
    busy.input = [] ∧ ({ busy with input := [.li 2 7#64] } : State).input = .li 2 7#64 :: [] ∧
    ({ busy with input := [.mov 0 0] } : State).input = .mov 0 0 :: [] ∧
    ({ busy with input := [.mov 3 1] } : State).input = .mov 3 1 :: [] ∧
    busy.host.res1 = resOf busy.host 1 ∧ (3 : Fin 4) ≠ 2 := by decide

theorem witness_ArithmeticRoundsToANearestValue :
    isFinite fFifth = true ∧ isFinite fThree = true ∧ isFinite (fadd fFifth fThree) = true ∧
    isFinite (fsub fFifth fThree) = true ∧ isFinite (fmul fFifth fThree) = true ∧ isZero fThree = false ∧
    isFinite (fdiv fFifth fThree) = true := by decide +kernel

/-! ### From reset, as the first command: what the interface needs the kernel to evaluate -/

theorem test_first_command_append :
    holds (step (State.reset.withFetchWord 32 0x41000000)) (fun t => t.table.count == 1 && t.host.res0 == 0#64) = true := by
  decide +kernel

theorem test_first_command_push :
    holds (step (State.reset.withFetchWord 32 0x51000000)) (fun t => t.queue.tail == 1) = true := by
  decide +kernel

end Sys2Proof.Tests
end

section
/-! SUPPORT. The host's moves: a step is the move at the front of `input` (00_scope.md R7, 60_exceptions.md
R313), and an issued word runs the command it decodes to (30_encoding.md R90). -/

namespace Sys2Proof.Machine

/-- Without a move FWCORE is idle (60_exceptions.md R313). -/
theorem step_of_input_nil {s : State} (h : s.input = []) : step s = .next s := by
  simp only [step, h]

/-- A step takes the move at the front of `input`. -/
theorem step_of_input_cons {s : State} {m : HostMove} {rest : List HostMove} (h : s.input = m :: rest) :
    step s = takeMove m { s with input := rest } := by
  simp only [step, h]

/-- A word that decodes runs its command (30_encoding.md R90). -/
theorem issueWord_of_decode {w : Word32} {i : Instr} (h : decode w = .ok i) (s : State) :
    issueWord w s = exec i s := by
  simp only [issueWord, h]

/-- `li` and `mov` write one operand register: with what value, and what they keep. -/
theorem setArg_writes_one_register (n : Fin 4) (v : Word64) (h : HostRegs) :
    argOf (setArg n v h) n = v ∧ (∀ k, k ≠ n → argOf (setArg n v h) k = argOf h k) ∧
      (∀ k, resOf (setArg n v h) k = resOf h k) ∧ (setArg n v h).rtag = h.rtag :=
  ⟨argOf_setArg n v h, fun _ hk => argOf_setArg_ne hk v h, fun k => resOf_setArg n k v h, setArg_rtag n v h⟩

end Sys2Proof.Machine

open Sys2Proof Sys2Proof.Machine

/-- Settles O58: the front move issues the word, and `issueWord` runs the command it decodes to. -/
theorem aStepRunsTheDecodedCommand : Obligations.AStepRunsTheDecodedCommand := by
  unfold Obligations.AStepRunsTheDecodedCommand
  intro s w rest hinput
  have hstep : step s = issueWord w { s with input := rest, free := s.free + 1 } := step_of_input_cons hinput
  exact ⟨hstep, fun i hdecode => hstep.trans (issueWord_of_decode hdecode _)⟩

/-- Settles O59: a write and a copy are `setArg` on the host registers, which keeps all but one of them. -/
theorem hostMovesWriteOneOperandRegister : Obligations.HostMovesWriteOneOperandRegister := by
  unfold Obligations.HostMovesWriteOneOperandRegister
  intro s
  refine ⟨step_of_input_nil, fun rest v h => step_of_input_cons h, fun rest h => step_of_input_cons h, ?_⟩
  intro n m v rest hmove
  have hstep : step s = .next { s with input := rest, host := setArg n v s.host } := by
    rcases hmove with hli | ⟨hmov, rfl⟩
    · exact step_of_input_cons hli
    · exact step_of_input_cons hmov
  obtain ⟨hwritten, hothers, hres, htag⟩ := setArg_writes_one_register n v s.host
  exact ⟨_, hstep, hwritten, hothers, hres, htag, rfl⟩
end

section
/-! SUPPORT. Rounding (00_scope.md R10): a magnitude is a significand times a power of two, `roundUnits` gives the
one nearest to `n / d` units, and a value's sign is carried by `signed`. -/

namespace Sys2Proof.Machine

/-! ### The significand and the exponent of a magnitude -/

/-- The units of the magnitude with exponent field `e` and significand `r`. A significand of `2 ^ 53` carries
into the exponent field and gives the same value. -/
theorem units_eq_of_magBits {x : F64} {e r : Nat} (hx : magBits x = e * 2 ^ 52 + r) (hr : r ≤ 2 ^ 53)
    (he : e = 0 ∨ 2 ^ 52 ≤ r) : units x = r * 2 ^ e := by
  unfold units
  rcases Nat.lt_or_ge r (2 ^ 52) with hlow | hhigh
  · obtain rfl : e = 0 := by omega
    rw [if_pos (by omega)]
    omega
  · rcases hr.lt_or_eq with hlt | rfl
    · have hexp : magBits x / 2 ^ 52 = e + 1 := by omega
      have hfrac : magBits x % 2 ^ 52 = r - 2 ^ 52 := by omega
      rw [if_neg (by omega), hexp, hfrac, Nat.add_sub_cancel, Nat.add_sub_cancel' hhigh]
    · have hexp : magBits x / 2 ^ 52 = e + 2 := by omega
      have hfrac : magBits x % 2 ^ 52 = 0 := by omega
      rw [if_neg (by omega), hexp, hfrac, show e + 2 - 1 = e + 1 from rfl, pow_succ]
      ring

/-- Every magnitude is a significand below `2 ^ 53` times a power of two. -/
theorem exists_units_eq (x : F64) : ∃ e r, r < 2 ^ 53 ∧ units x = r * 2 ^ e := by
  unfold units
  split
  · exact ⟨0, magBits x % 2 ^ 52, by omega, by omega⟩
  · exact ⟨_, _, by omega, rfl⟩

/-- A value that is not a zero has units. -/
theorem units_pos {x : F64} (h : isZero x = false) : 0 < units x := by
  have hmag : magBits x ≠ 0 := by simpa [isZero] using h
  unfold units
  split
  · omega
  · exact Nat.mul_pos (by omega) (Nat.two_pow_pos _)

/-! ### Rounding to a nearest whole number -/

/-- `roundHalfEven` goes down when the remainder is at most half the divisor, and up when it is at least that. -/
theorem roundHalfEven_cases (n d : Nat) :
    (roundHalfEven n d = n / d ∧ 2 * (n % d) ≤ d) ∨ (roundHalfEven n d = n / d + 1 ∧ d ≤ 2 * (n % d)) := by
  unfold roundHalfEven
  split_ifs <;> omega

theorem abs_roundHalfEven_sub_div_le_half {n d : Nat} (hd : 0 < d) :
    |(roundHalfEven n d : ℚ) - n / d| ≤ 1 / 2 := by
  have hdq : (0 : ℚ) < d := by exact_mod_cast hd
  have hn : (n : ℚ) = (n / d : Nat) * d + (n % d : Nat) := by exact_mod_cast (Nat.div_add_mod' n d).symm
  have hmod : (0 : ℚ) ≤ (n % d : Nat) ∧ ((n % d : Nat) : ℚ) ≤ d :=
    ⟨Nat.cast_nonneg _, by exact_mod_cast (Nat.mod_lt n hd).le⟩
  have hcases : (roundHalfEven n d = n / d ∧ 2 * ((n % d : Nat) : ℚ) ≤ d) ∨
      (roundHalfEven n d = n / d + 1 ∧ (d : ℚ) ≤ 2 * (n % d : Nat)) := by
    exact_mod_cast roundHalfEven_cases n d
  rw [sub_div' hdq.ne', abs_div, abs_of_pos hdq, div_le_iff₀ hdq, abs_le, hn]
  rcases hcases with ⟨hr, hhalf⟩ | ⟨hr, hhalf⟩
  · rw [hr]
    constructor <;> linarith
  · rw [hr, Nat.cast_succ]
    constructor <;> linarith

/-- A whole number at most a half away is a nearest one. -/
theorem abs_sub_le_of_abs_sub_le_half {r : ℤ} {v : ℚ} (h : |r - v| ≤ 1 / 2) (k : ℤ) : |r - v| ≤ |k - v| := by
  rcases eq_or_ne k r with rfl | hne
  · exact le_rfl
  · have hone : (1 : ℚ) ≤ |(k : ℚ) - r| := by exact_mod_cast Int.one_le_abs (sub_ne_zero.2 hne)
    have htriangle := abs_sub_le (k : ℚ) v r
    rw [abs_sub_comm v] at htriangle
    linarith

/-- `roundHalfEven n d` is as near to `n / d` as any whole number is. -/
theorem abs_roundHalfEven_sub_div_le {n d : Nat} (hd : 0 < d) (k : ℤ) :
    |(roundHalfEven n d : ℚ) - n / d| ≤ |(k : ℚ) - n / d| :=
  abs_sub_le_of_abs_sub_le_half (abs_roundHalfEven_sub_div_le_half hd) k

/-! ### Rounding to a nearest magnitude -/

/-- The exponent of `roundUnits`: the quotient's significand has 53 bits, fewer only when the exponent is 0. -/
theorem div_scale_bounds (n d : Nat) :
    n / (d * 2 ^ (Nat.log2 (n / d) - 52)) < 2 ^ 53 ∧
      (Nat.log2 (n / d) - 52 = 0 ∨ 2 ^ 52 * 2 ^ (Nat.log2 (n / d) - 52) ≤ n / d) := by
  rw [← Nat.div_div_eq_div_mul]
  refine ⟨Nat.div_lt_of_lt_mul ?_, ?_⟩
  · calc n / d < 2 ^ (Nat.log2 (n / d) + 1) := Nat.lt_log2_self
      _ ≤ 2 ^ (Nat.log2 (n / d) - 52 + 53) := Nat.pow_le_pow_right two_pos (by omega)
      _ = 2 ^ (Nat.log2 (n / d) - 52) * 2 ^ 53 := pow_add _ _ _
  · rcases Nat.eq_zero_or_pos (Nat.log2 (n / d) - 52) with hzero | hpos
    · exact Or.inl hzero
    · have hquot : n / d ≠ 0 := by
        intro h
        simp [h] at hpos
      right
      rw [← pow_add, Nat.add_sub_cancel' (by omega)]
      exact Nat.log2_self_le hquot

/-- A finite rounding is the whole number of steps of `2 ^ e` units that `roundHalfEven` gives, and a positive
`e` is no greater than 53 bits of the quotient allow. -/
theorem units_roundUnits {x : F64} {n d : Nat} (hx : magBits x = roundUnits n d) (hfin : isFinite x = true) :
    ∃ e, units x = roundHalfEven n (d * 2 ^ e) * 2 ^ e ∧ (e = 0 ∨ 2 ^ 52 * 2 ^ e ≤ n / d) := by
  obtain ⟨hlt, he⟩ := div_scale_bounds n d
  have hmag : magBits x = (Nat.log2 (n / d) - 52) * 2 ^ 52 +
      roundHalfEven n (d * 2 ^ (Nat.log2 (n / d) - 52)) := by
    have hinf : magBits x < infMag := by simpa [isFinite] using hfin
    unfold roundUnits at hx
    omega
  refine ⟨_, units_eq_of_magBits hmag ?_ ?_, he⟩
  · have := roundHalfEven_cases n (d * 2 ^ (Nat.log2 (n / d) - 52))
    omega
  · refine he.imp_right fun h => ?_
    have hdown := (Nat.le_div_iff_mul_le (Nat.two_pow_pos _)).2 h
    rw [Nat.div_div_eq_div_mul] at hdown
    have := roundHalfEven_cases n (d * 2 ^ (Nat.log2 (n / d) - 52))
    omega

/-- Multiples of one step: the rounding is as near to `n / d` as any of them. -/
theorem abs_roundHalfEven_mul_sub_le {n d : Nat} (hd : 0 < d) (e k : Nat) :
    |((roundHalfEven n (d * 2 ^ e) * 2 ^ e : Nat) : ℚ) - n / d| ≤ |((k * 2 ^ e : Nat) : ℚ) - n / d| := by
  have hstep : (0 : ℚ) < 2 ^ e := by positivity
  have hscale (j : Nat) :
      |((j * 2 ^ e : Nat) : ℚ) - n / d| = |(j : ℚ) - n / (d * 2 ^ e : Nat)| * 2 ^ e := by
    have hfactor : ((j * 2 ^ e : Nat) : ℚ) - n / d = ((j : ℚ) - n / (d * 2 ^ e : Nat)) * 2 ^ e := by
      push_cast
      field_simp
    rw [hfactor, abs_mul, abs_of_pos hstep]
  rw [hscale, hscale]
  exact mul_le_mul_of_nonneg_right (abs_roundHalfEven_sub_div_le (by positivity) k) hstep.le

/-- A finite rounding of `n / d` units is as near to it as the magnitude of any value is. A magnitude below the
rounding's own exponent is no nearer than `2 ^ 52` steps are, which lie between it and `n / d`. -/
theorem abs_units_sub_div_le {x : F64} {n d : Nat} (hx : magBits x = roundUnits n d)
    (hfin : isFinite x = true) (hd : 0 < d) (z : F64) :
    |(units x : ℚ) - n / d| ≤ |(units z : ℚ) - n / d| := by
  obtain ⟨e, hunits, he⟩ := units_roundUnits hx hfin
  obtain ⟨e', r, hr, hz⟩ := exists_units_eq z
  rw [hunits]
  rcases Nat.lt_or_ge e' e with hlt | hge
  · have hquot : 2 ^ 52 * 2 ^ e ≤ n / d := he.resolve_left (by omega)
    have hbelow : units z ≤ 2 ^ 52 * 2 ^ e := by
      calc units z = r * 2 ^ e' := hz
        _ ≤ 2 ^ 53 * 2 ^ e' := Nat.mul_le_mul_right _ hr.le
        _ = 2 ^ 52 * 2 ^ (e' + 1) := by rw [pow_succ]; ring
        _ ≤ 2 ^ 52 * 2 ^ e := Nat.mul_le_mul_left _ (Nat.pow_le_pow_right two_pos hlt)
    have hexact : ((2 ^ 52 * 2 ^ e : Nat) : ℚ) ≤ n / d := le_trans (by exact_mod_cast hquot) Nat.cast_div_le
    have hbelowq : (units z : ℚ) ≤ (2 ^ 52 * 2 ^ e : Nat) := by exact_mod_cast hbelow
    refine (abs_roundHalfEven_mul_sub_le hd e (2 ^ 52)).trans ?_
    rw [abs_sub_comm, abs_sub_comm (units z : ℚ)]
    exact Set.abs_sub_right_of_mem_uIcc (Set.mem_uIcc_of_le hbelowq hexact)
  · have hmul : units z = r * 2 ^ (e' - e) * 2 ^ e := by
      rw [hz, mul_assoc, ← pow_add, Nat.sub_add_cancel hge]
    rw [hmul]
    exact abs_roundHalfEven_mul_sub_le hd e _

/-! ### Signs -/

/-- The number with this sign and this magnitude. -/
def signed (sign : Bool) (a : ℚ) : ℚ := if sign then -a else a

theorem signed_mul_signed (s t : Bool) (a b : ℚ) : signed s a * signed t b = signed (s != t) (a * b) := by
  cases s <;> cases t <;> simp [signed]

theorem signed_div_signed (s t : Bool) (a b : ℚ) : signed s a / signed t b = signed (s != t) (a / b) := by
  cases s <;> cases t <;> simp [signed, neg_div, div_neg]

theorem signed_not (s : Bool) (a : ℚ) : signed (!s) a = -signed s a := by
  cases s <;> simp [signed]

theorem signed_div (s : Bool) (a b : ℚ) : signed s (a / b) = signed s a / b := by
  cases s <;> simp [signed, neg_div]

/-- The sign `fadd` gives a sum is the sum's own, and a zero sum may have either. -/
theorem signed_natAbs (k : ℤ) (zeroSign : Bool) :
    signed (if k = 0 then zeroSign else decide (k < 0)) k.natAbs = k := by
  unfold signed
  rw [Nat.cast_natAbs]
  rcases lt_trichotomy k 0 with hneg | rfl | hpos
  · simp [hneg.ne, hneg, abs_of_neg hneg]
  · simp
  · simp [hpos.ne', hpos.not_gt, abs_of_pos hpos]

theorem abs_signed_sub_signed (s : Bool) (a b : ℚ) : |signed s a - signed s b| = |a - b| := by
  cases s
  · rfl
  · simp only [signed, if_true, neg_sub_neg, abs_sub_comm]

/-- Two magnitudes are no farther apart than two numbers that have them. -/
theorem abs_sub_le_abs_signed_sub_signed (s t : Bool) {a b : ℚ} (ha : 0 ≤ a) (hb : 0 ≤ b) :
    |a - b| ≤ |signed s a - signed t b| := by
  have habs (u : Bool) {c : ℚ} (hc : 0 ≤ c) : |signed u c| = c := by
    cases u <;> simp [signed, abs_of_nonneg hc]
  simpa only [habs s ha, habs t hb] using abs_abs_sub_abs_le_abs_sub (signed s a) (signed t b)

/-! ### The value of a pattern as a rational number -/

theorem oneUnits_pos : 0 < oneUnits := pow_pos two_pos 1074

theorem toRat_eq_signedUnits (x : F64) : toRat x = signedUnits x / oneUnits := by
  rw [toRat, oneUnits, Nat.cast_pow, Nat.cast_ofNat]

theorem toRat_eq_signed (x : F64) : toRat x = signed (signBit x) (units x / oneUnits) := by
  rw [toRat_eq_signedUnits, signedUnits, signed]
  split
  · rw [Int.cast_neg, Int.cast_natCast, neg_div]
  · rw [Int.cast_natCast]

theorem toRat_fneg (x : F64) : toRat (fneg x) = -toRat x := by
  rw [toRat_eq_signed, toRat_eq_signed, signBit_fneg, units_fneg, signed_not]

/-- A finite rounding of a signed ratio is as near to it as any value is (00_scope.md R10). -/
theorem abs_toRat_packF_roundUnits_sub_le {sign : Bool} {n d : Nat} {v : ℚ} (hd : 0 < d)
    (hv : v = signed sign (n / d / oneUnits)) (hfin : isFinite (packF sign (roundUnits n d)) = true) (z : F64) :
    |toRat (packF sign (roundUnits n d)) - v| ≤ |toRat z - v| := by
  have hone : (0 : ℚ) < oneUnits := by exact_mod_cast oneUnits_pos
  have hnear := abs_units_sub_div_le (magBits_packF sign (roundUnits_lt n d)) hfin hd z
  have hdist (a : ℚ) : |a / oneUnits - n / d / oneUnits| = |a - n / d| / oneUnits := by
    rw [← sub_div, abs_div, abs_of_pos hone]
  rw [hv, toRat_eq_signed, toRat_eq_signed z, signBit_packF sign (roundUnits_lt n d), abs_signed_sub_signed]
  refine le_trans ?_ (abs_sub_le_abs_signed_sub_signed _ _ (div_nonneg (Nat.cast_nonneg _) hone.le)
    (div_nonneg (div_nonneg (Nat.cast_nonneg _) (Nat.cast_nonneg _)) hone.le))
  rw [hdist, hdist]
  exact div_le_div_of_nonneg_right hnear hone.le

/-! ### The operations on finite values -/

section
variable {x y : F64} (hx : isFinite x = true) (hy : isFinite y = true)
include hx hy

theorem fadd_of_isFinite :
    fadd x y = packF (if signedUnits x + signedUnits y = 0 then signBit x && signBit y
      else decide (signedUnits x + signedUnits y < 0)) (roundUnits (signedUnits x + signedUnits y).natAbs 1) := by
  obtain ⟨hxn, hxi⟩ := isNaN_isInf_of_isFinite hx
  obtain ⟨hyn, hyi⟩ := isNaN_isInf_of_isFinite hy
  simp only [fadd, hxn, hxi, hyn, hyi, Bool.or_self, Bool.false_eq_true, if_false]

theorem fmul_of_isFinite :
    fmul x y = packF (signBit x != signBit y) (roundUnits (units x * units y) oneUnits) := by
  obtain ⟨hxn, hxi⟩ := isNaN_isInf_of_isFinite hx
  obtain ⟨hyn, hyi⟩ := isNaN_isInf_of_isFinite hy
  simp only [fmul, hxn, hxi, hyn, hyi, Bool.or_self, Bool.false_eq_true, if_false]

theorem fdiv_of_isFinite (hzero : isZero y = false) :
    fdiv x y = packF (signBit x != signBit y) (roundUnits (units x * oneUnits) (units y)) := by
  obtain ⟨hxn, hxi⟩ := isNaN_isInf_of_isFinite hx
  obtain ⟨hyn, hyi⟩ := isNaN_isInf_of_isFinite hy
  simp only [fdiv, hxn, hxi, hyn, hyi, hzero, Bool.or_self, Bool.false_eq_true, if_false]

theorem abs_toRat_fadd_sub_le (hfin : isFinite (fadd x y) = true) (z : F64) :
    |toRat (fadd x y) - (toRat x + toRat y)| ≤ |toRat z - (toRat x + toRat y)| := by
  rw [fadd_of_isFinite hx hy] at hfin ⊢
  refine abs_toRat_packF_roundUnits_sub_le one_pos ?_ hfin z
  rw [toRat_eq_signedUnits, toRat_eq_signedUnits, ← add_div, ← Int.cast_add, Nat.cast_one, div_one, signed_div,
    signed_natAbs]

theorem abs_toRat_fsub_sub_le (hfin : isFinite (fsub x y) = true) (z : F64) :
    |toRat (fsub x y) - (toRat x - toRat y)| ≤ |toRat z - (toRat x - toRat y)| := by
  rw [sub_eq_add_neg (toRat x), ← toRat_fneg]
  exact abs_toRat_fadd_sub_le hx ((isFinite_fneg y).trans hy) hfin z

theorem abs_toRat_fmul_sub_le (hfin : isFinite (fmul x y) = true) (z : F64) :
    |toRat (fmul x y) - toRat x * toRat y| ≤ |toRat z - toRat x * toRat y| := by
  rw [fmul_of_isFinite hx hy] at hfin ⊢
  refine abs_toRat_packF_roundUnits_sub_le oneUnits_pos ?_ hfin z
  rw [toRat_eq_signed, toRat_eq_signed, signed_mul_signed, Nat.cast_mul, div_mul_div_comm, div_div]

theorem abs_toRat_fdiv_sub_le (hzero : isZero y = false) (hfin : isFinite (fdiv x y) = true) (z : F64) :
    |toRat (fdiv x y) - toRat x / toRat y| ≤ |toRat z - toRat x / toRat y| := by
  rw [fdiv_of_isFinite hx hy hzero] at hfin ⊢
  refine abs_toRat_packF_roundUnits_sub_le (units_pos hzero) ?_ hfin z
  have hone : (oneUnits : ℚ) ≠ 0 := by exact_mod_cast oneUnits_pos.ne'
  rw [toRat_eq_signed, toRat_eq_signed, signed_div_signed, div_div_div_cancel_right₀ hone, Nat.cast_mul,
    div_right_comm, mul_div_cancel_right₀ _ hone]

end

end Sys2Proof.Machine

open Sys2Proof Sys2Proof.Machine

/-- Settles O60: each operation is `roundUnits` of the exact value, with its sign. -/
theorem arithmeticRoundsToANearestValue : Obligations.ArithmeticRoundsToANearestValue := by
  unfold Obligations.ArithmeticRoundsToANearestValue
  intro x y hx hy
  exact ⟨fun hfin z _ => abs_toRat_fadd_sub_le hx hy hfin z, fun hfin z _ => abs_toRat_fsub_sub_le hx hy hfin z,
    fun hfin z _ => abs_toRat_fmul_sub_le hx hy hfin z,
    fun hzero hfin z _ => abs_toRat_fdiv_sub_le hx hy hzero hfin z⟩
end

section
/-! SUPPORT. What one command can do, said once (`exec_effect`): the part of the state it changes, how, and what it
answers. What every command keeps (10_state.md R22 to R27, R37) is read off from it, one effect at a time. -/

namespace Sys2Proof.Machine

/-- What a command that takes no fault leaves in the host registers (10_state.md R23, R24). -/
inductive Reply (h : HostRegs) : HostRegs → Prop
  | none : Reply h { h with rtag := .none }
  | value (v : Word64) : Reply h { h with res0 := v, rtag := .value }
  | notFound : Reply h { h with res0 := 0xFFFFFFFFFFFFFFFF#64, rtag := .notfound }

/-- What a command leaves in the voice table (44_voice_table.md R234 to R244). -/
inductive TableEffect (s : State) : Instr → Table → Prop
  | append (hroom : s.table.count ≠ s.table.capacity) :
      TableEffect s .vtAppend (appendRow (freshRow s.free s.table.count) s.table)
  | insert (i : Nat) (hroom : s.table.count ≠ s.table.capacity) (hi : i ≤ s.table.count) :
      TableEffect s .vtInsert (insertRow i (freshRow s.free i) s.table)
  | remove (i : Nat) (hi : i < s.table.count) : TableEffect s .vtRemove (removeRow i s.table)
  | clear : TableEffect s .vtClear { s.table with count := 0 }
  | writeField (sel : BitVec 4) (c : Column) (v : Word64) (i : Nat) (hc : columnOfCode sel.toNat = some c)
      (hi : i < s.table.count) :
      TableEffect s (.vtWrf sel)
        { s.table with rows := putRow i (setField c v (rowAt s.table i)) s.table.rows }

/-- What a command leaves in the event queue (45_event_queue.md R262 to R264). -/
inductive QueueEffect (q : Queue) : Queue → Prop
  | rewind : QueueEffect q (rewindQueue q)
  | push (e : Event) : QueueEffect q (pushEvent e q)
  | pop : QueueEffect q (popEvent q).2

/-- A phase as a command leaves it: kept, or wrapped (41_oscillator.md R120, R129, R130). -/
def PhaseEffect (q : Nat) (site : Site) (old new : F64) : Prop :=
  new = old ∨ ∃ x, new = pin q site (wrap x)

/-- The next states of a command. A command that answers changes one part of the state besides the host registers;
`ENV.STEP` and `EQ.POP` answer in more result registers than `RES0`. The numbers a command computes, and which
command takes which fault, are left open here: no invariant of 10_state.md depends on them. -/
inductive Effect (s : State) : Instr → State → Prop
  | fault (i : Instr) (k : Cause) : Effect s i (raiseFault k (encode i) s)
  | reset : Effect s .reset (retNone (resetState s))
  | answer (i : Instr) (h : HostRegs) (hr : Reply s.host h) : Effect s i { s with host := h }
  | register (imm : BitVec 16) (r : Reg) (hnum : regOfNumber imm.toNat = some r) (hro : accessOf r ≠ .ro)
      (hlegal : accessOf r = .rwl → legalFor r s.host.arg0 = true) :
      Effect s (.wrreg imm) (retNone (writeReg r s.host.arg0 s))
  | osc (i : Instr) (o : Osc) (h : HostRegs) (hphase : PhaseEffect s.free (.reg 0x10) s.osc.t o.t)
      (hr : Reply s.host h) : Effect s i { s with osc := o, host := h }
  | env (i : Instr) (e : Env) (h : HostRegs) (hr : Reply s.host h) : Effect s i { s with env := e, host := h }
  | envStep (e : Env) (res0 res1 : Word64) :
      Effect s .envStep { s with
        env := e, host := { s.host with res0 := res0, res1 := res1, rtag := .value } }
  | noise (i : Instr) (n : Noise) (h : HostRegs)
      (hseed : n.seed = s.noise.seed ∨ n.seed = lcgNext s.noise.seed ∨ n.seed = foldSeed s.host.arg0)
      (hr : Reply s.host h) : Effect s i { s with noise := n, host := h }
  | table (i : Instr) (t : Table) (h : HostRegs) (ht : TableEffect s i t) (hr : Reply s.host h) :
      Effect s i { s with table := t, host := h }
  | queue (i : Instr) (q : Queue) (h : HostRegs) (hq : QueueEffect s.queue q) (hr : Reply s.host h) :
      Effect s i { s with queue := q, host := h }
  | eventPopped (res0 res1 res2 res3 : Word64) :
      Effect s .eqPop { s with
        queue := (popEvent s.queue).2
        host := { s.host with res0 := res0, res1 := res1, res2 := res2, res3 := res3, rtag := .value } }
  | tick : Effect s .synTick (renderTick (drain s))

theorem effect_render (i : Instr) (c : Wave) (s : State) : Effect s i (renderOsc c s) :=
  .osc i (advancePhase s.free s.osc) _ (.inr ⟨_, rfl⟩) (.value _)

theorem effect_draw (i : Instr) (c : Colour) (s : State) : Effect s i (drawCommand c s) :=
  .noise i _ _ (.inr (.inl (drawColour_seed c s.free s.sys.sr s.noise))) (.value _)

theorem effect_rdreg (imm : BitVec 16) {s t : State} (h : execRdreg imm s = .next t) :
    Effect s (.rdreg imm) t := by
  cases h
  split
  · exact .fault _ _
  · exact .answer _ _ (.value _)

theorem effect_wrreg (imm : BitVec 16) {s t : State} (h : execWrreg imm s = .next t) :
    Effect s (.wrreg imm) t := by
  cases h
  split
  · exact .fault _ _
  · rename_i r hnum
    split_ifs with hro hlegal
    · exact .fault _ _
    · exact .fault _ _
    · exact .register imm r hnum hro (by simpa using hlegal)

theorem effect_setwave (sel : BitVec 4) {s t : State} (h : execOscSetwave sel s = .next t) :
    Effect s (.oscSetwave sel) t := by
  cases h
  split
  · exact .fault _ _
  · exact .osc _ _ _ (.inl rfl) .none

theorem effect_append {s t : State} (h : execVtAppend s = .next t) : Effect s .vtAppend t := by
  cases h
  split_ifs with hfull
  · exact .fault _ _
  · exact .table _ _ _ (.append hfull) (.value _)

/-- A row reference that passes its check is the index of a live row. -/
theorem lt_count_of_isRow {i : Word64} {t : Table} (h : isRow i t = true) : i.toNat < t.count :=
  (toInt_eq_toNat_of_namesRow ((isRow_iff i t).1 h)).2

/-- `VT.INSERT` accepts the index of a live row and the one past the last (44_voice_table.md R235). -/
theorem toNat_le_of_toInt_le {i : Word64} {n : Nat} (h : 0 ≤ i.toInt ∧ i.toInt ≤ (n : Int)) : i.toNat ≤ n := by
  have hbits : i.toInt = (i.toNat : Int) := BitVec.toInt_eq_toNat_of_lt (BitVec.toInt_pos_iff.1 h.1)
  omega

theorem effect_insert {s t : State} (h : execVtInsert s = .next t) : Effect s .vtInsert t := by
  cases h
  split_ifs with hindex hfull
  · exact .fault _ _
  · exact .table _ _ _ (.insert _ hfull (toNat_le_of_toInt_le hindex)) (.value _)
  · exact .fault _ _

theorem effect_remove {s t : State} (h : execVtRemove s = .next t) : Effect s .vtRemove t := by
  cases h
  dsimp only
  split_ifs with hrow hnext
  · exact .table _ _ _ (.remove _ (lt_count_of_isRow hrow)) (.value _)
  · exact .table _ _ _ (.remove _ (lt_count_of_isRow hrow)) .notFound
  · exact .fault _ _

theorem effect_find (sel : BitVec 4) {s t : State} (h : execVtFind sel s = .next t) : Effect s (.vtFind sel) t := by
  cases h
  split
  · exact .fault _ _
  · split_ifs
    · exact .answer _ _ .notFound
    · split
      · exact .answer _ _ (.value _)
      · exact .answer _ _ .notFound
    · exact .fault _ _

theorem effect_next {s t : State} (h : execVtNext s = .next t) : Effect s .vtNext t := by
  cases h
  dsimp only
  split_ifs
  · exact .answer _ _ (.value _)
  · exact .answer _ _ .notFound
  · exact .fault _ _

theorem effect_readField (sel : BitVec 4) {s t : State} (h : execVtRdf sel s = .next t) :
    Effect s (.vtRdf sel) t := by
  cases h
  split
  · exact .fault _ _
  · split_ifs
    · exact .answer _ _ (.value _)
    · exact .fault _ _

theorem effect_writeField (sel : BitVec 4) {s t : State} (h : execVtWrf sel s = .next t) :
    Effect s (.vtWrf sel) t := by
  cases h
  split
  · exact .fault _ _
  · rename_i c hc
    split_ifs with hrow
    · exact .table _ _ _ (.writeField sel c _ _ hc (lt_count_of_isRow hrow)) .none
    · exact .fault _ _

theorem effect_pop {s t : State} (h : execEqPop s = .next t) : Effect s .eqPop t := by
  cases h
  have hqueue : Effect s .eqPop (retNotFound { s with queue := (popEvent s.queue).2 }) :=
    .queue _ _ _ .pop .notFound
  have hevent (e : Event) := Effect.eventPopped (s := s) e.offset (e.status.zeroExtend 64)
    ((data1Of e).zeroExtend 64) ((data2Of e).zeroExtend 64)
  split
  · rename_i e q he
    simpa only [he] using hevent e
  · rename_i q he
    simpa only [he] using hqueue

/-- The inversion lemma of `exec`. -/
theorem exec_effect {i : Instr} {s t : State} (h : exec i s = .next t) : Effect s i t := by
  cases i with
  | rdreg imm => exact effect_rdreg imm h
  | wrreg imm => exact effect_wrreg imm h
  | oscSetwave sel => exact effect_setwave sel h
  | vtAppend => exact effect_append h
  | vtInsert => exact effect_insert h
  | vtRemove => exact effect_remove h
  | vtFind sel => exact effect_find sel h
  | vtWrf sel => exact effect_writeField sel h
  | eqPop => exact effect_pop h
  | nop => cases h; exact .answer _ _ .none
  | reset => cases h; exact .reset
  | synTick => cases h; exact .tick
  | envStep => cases h; exact .envStep _ _ _
  | oscSync => cases h; exact .osc _ _ _ (.inr ⟨_, rfl⟩) .none
  | oscInc => cases h; exact .osc _ _ _ (.inr ⟨_, rfl⟩) .none
  | oscSetfreq | oscSetinc | oscSetpw => cases h; exact .osc _ _ _ (.inl rfl) .none
  | oscRun | oscSine | oscTri | oscSquare | oscSaw | oscRamp | oscRect | oscTrap | oscTrappw | oscTripulse
  | oscHwrsine | oscFwrsine | oscCircle | oscHammond | oscStair => cases h; exact effect_render _ _ s
  | envSetatk | envSetdec | envSetrel | envSetsus | envAttack | envRelease => cases h; exact .env _ _ _ .none
  | nzInit => cases h; exact .noise _ _ _ (.inr (.inr rfl)) .none
  | nzLcg => cases h; exact .noise _ _ _ (.inr (.inl rfl)) (.value _)
  | nzWhite | nzPink | nzBrown | nzBlue | nzViolet | nzGrey | nzBlack => cases h; exact effect_draw _ _ s
  | nzSetrc | nzSetdens => cases h; exact .noise _ _ _ (.inl rfl) .none
  | vtClear => cases h; exact .table _ _ _ .clear .none
  | eqRewind => cases h; exact .queue _ _ _ .rewind .none
  | eqPush => cases h; exact .queue _ _ _ (.push _) .none
  | vtRdf sel => exact effect_readField sel h
  | vtNext => exact effect_next h
  | vtGet =>
    cases h
    split_ifs
    · exact .answer _ _ (.value _)
    · exact .fault _ _
  | vtFirst | vtLast =>
    cases h
    split_ifs
    · exact .answer _ _ (.value _)
    · exact .answer _ _ .notFound

end Sys2Proof.Machine
end

section
/-! SUPPORT. The invariant of 10_state.md R37: every effect keeps it, so every command and every move of the host
does. -/

namespace Sys2Proof.Machine

/-! ### What a write of one register leaves -/

@[simp] theorem writeReg_host (r : Reg) (v : Word64) (s : State) : (writeReg r v s).host = s.host := by
  cases r <;> rfl

@[simp] theorem writeReg_table (r : Reg) (v : Word64) (s : State) : (writeReg r v s).table = s.table := by
  cases r <;> rfl

@[simp] theorem writeReg_queue (r : Reg) (v : Word64) (s : State) : (writeReg r v s).queue = s.queue := by
  cases r <;> rfl

/-- A write leaves a legal seed: `NZ_SEED` is an `RWL` register (10_state.md R31, 40_control.md R103). -/
theorem seedLegal_writeReg {r : Reg} {v : Word64} {s : State}
    (hlegal : accessOf r = .rwl → legalFor r v = true) (h : SeedLegal s.noise.seed) :
    SeedLegal (writeReg r v s).noise.seed := by
  by_cases hr : r = .nzSeed
  · subst hr
    have hrange : SeedLegal v := by simpa [legalFor] using hlegal rfl
    exact hrange
  · have hkeep : (writeReg r v s).noise.seed = s.noise.seed :=
      readReg_writeReg_ne (r' := .nzSeed) (Ne.symm hr) v s
    rwa [hkeep]

/-! ### The parts of the state -/

/-- The fold lands in the seed domain (43_noise.md R201). -/
theorem seedLegal_foldSeed (v : Word64) : SeedLegal (foldSeed v) := by
  unfold SeedLegal foldSeed
  rw [BitVec.toNat_ofInt]
  omega

theorem seedLegal_reset : SeedLegal Noise.reset.seed := by decide

theorem tableWf_reset {capacity : Nat} (hlo : 1 ≤ capacity) (hhi : capacity ≤ 65535) :
    TableWf (Table.reset capacity) :=
  ⟨hlo, hhi, Nat.le_refl 0, Nat.zero_le _⟩

theorem queueWf_reset {capacity : Nat} (hlo : 1 ≤ capacity) (hhi : capacity ≤ 65535) :
    QueueWf (Queue.reset capacity) :=
  ⟨hlo, hhi, Nat.le_refl 0, Nat.le_refl 0, Nat.zero_le _, Nat.zero_le _⟩

theorem TableEffect.tableWf {s : State} {i : Instr} {t : Table} (h : TableEffect s i t) (hwf : TableWf s.table) :
    TableWf t := by
  have hcount : s.table.count ≤ s.table.capacity := hwf.2.2.1.trans hwf.2.2.2
  cases h with
  | append hroom => exact tableWf_appendRow _ hwf (by omega)
  | insert i hroom hi => exact tableWf_insertRow _ hwf (by omega) hi
  | remove i hi => exact tableWf_removeRow hwf hi
  | clear => exact tableWf_clear hwf
  | writeField sel c v i hc hi => exact tableWf_putRow _ hwf hi

theorem QueueEffect.queueWf {q q' : Queue} (h : QueueEffect q q') (hwf : QueueWf q) : QueueWf q' := by
  cases h with
  | rewind => exact queueWf_rewindQueue hwf
  | push e => exact queueWf_pushEvent e hwf
  | pop => exact queueWf_popEvent hwf

/-- One draw, or none, keeps the seed domain (46_voice_loop.md R288). -/
theorem seedLegal_noiseFactor {s : State} (h : SeedLegal s.noise.seed) :
    SeedLegal (noiseFactor s).2.seed := by
  unfold noiseFactor
  split
  · exact h
  · rw [drawColour_seed]
    exact seedLegal_lcgNext h

theorem invariant_drain {s : State} (h : Invariant s) : Invariant (drain s) := by
  obtain ⟨htable, hqueue, hseed⟩ := h
  obtain ⟨htable', hqueue'⟩ := drainLoop_wf (s.queue.tail - s.queue.head + 1) htable hqueue
  have hnoise : (drain s).noise = s.noise := (drainLoop_frame _ s).2.2.2.1
  exact ⟨htable', hqueue', hnoise ▸ hseed⟩

theorem invariant_renderTick {s : State} (h : Invariant s) : Invariant (renderTick s) := by
  obtain ⟨htable, hqueue, hseed⟩ := h
  exact ⟨(renderVoices_table _ _ _ _ _ _ _ htable fun _ => lt_of_mem_voicesOf).2.2, hqueue,
    seedLegal_noiseFactor hseed⟩

/-! ### Commands and steps -/

theorem Effect.invariant {s t : State} {i : Instr} (h : Effect s i t) (hinv : Invariant s) : Invariant t := by
  obtain ⟨htable, hqueue, hseed⟩ := id hinv
  cases h with
  | fault | answer | osc | env | envStep => exact hinv
  | reset =>
    obtain ⟨hlo, hhi, -⟩ := htable
    obtain ⟨hlo', hhi', -⟩ := hqueue
    exact ⟨tableWf_reset hlo hhi, queueWf_reset hlo' hhi', seedLegal_reset⟩
  | register imm r hnum hro hlegal =>
    have hseed' := seedLegal_writeReg hlegal hseed
    exact ⟨by simpa using htable, by simpa using hqueue, hseed'⟩
  | noise i n h' hnext hr =>
    refine ⟨htable, hqueue, ?_⟩
    show SeedLegal n.seed
    obtain hsame | hstep | hfold := hnext
    · rwa [hsame]
    · rw [hstep]
      exact seedLegal_lcgNext hseed
    · rw [hfold]
      exact seedLegal_foldSeed _
  | table i t h' ht hr => exact ⟨ht.tableWf htable, hqueue, hseed⟩
  | queue i q h' hq hr => exact ⟨htable, hq.queueWf hqueue, hseed⟩
  | eventPopped => exact ⟨htable, queueWf_popEvent hqueue, hseed⟩
  | tick => exact invariant_renderTick (invariant_drain hinv)

theorem invariant_issueWord {w : Word32} {s t : State} (hinv : Invariant s) (h : issueWord w s = .next t) :
    Invariant t := by
  unfold issueWord at h
  split at h
  · exact (exec_effect h).invariant hinv
  · cases h
    exact hinv

theorem invariant_takeMove {m : HostMove} {s t : State} (hinv : Invariant s) (h : takeMove m s = .next t) :
    Invariant t := by
  cases m with
  | li n v => cases h; exact hinv
  | mov n k => cases h; exact hinv
  | issue w => exact invariant_issueWord (s := { s with free := s.free + 1 }) hinv h

theorem invariant_step {s t : State} (hinv : Invariant s) (h : step s = .next t) : Invariant t := by
  cases hinput : s.input with
  | nil =>
    cases (step_of_input_nil hinput).symm.trans h
    exact hinv
  | cons m rest =>
    exact invariant_takeMove (s := { s with input := rest }) hinv ((step_of_input_cons hinput).symm.trans h)

/-- Each capacity is a remainder by 65535, plus 1 (00_scope.md R8). -/
theorem mod_add_one_range (n : Nat) : 1 ≤ n % 65535 + 1 ∧ n % 65535 + 1 ≤ 65535 := by omega

end Sys2Proof.Machine

open Sys2Proof Sys2Proof.Machine

/-- Settles O51: each effect of a command keeps the bounds, and a move of the host is one command at most. -/
theorem everyStepKeepsTheInvariants : Obligations.EveryStepKeepsTheInvariants := by
  unfold Obligations.EveryStepKeepsTheInvariants
  exact fun s t hinv hstep => invariant_step hinv hstep

/-- Settles O50: nothing is live or pending, the seed is 1, and both capacities are in their range. -/
theorem resetSatisfiesTheInvariants : Obligations.ResetSatisfiesTheInvariants := by
  unfold Obligations.ResetSatisfiesTheInvariants
  obtain ⟨hlo, hhi⟩ := mod_add_one_range Config.vtCapChoice
  obtain ⟨hlo', hhi'⟩ := mod_add_one_range Config.eqCapChoice
  exact ⟨tableWf_reset hlo hhi, queueWf_reset hlo' hhi', seedLegal_reset⟩
end

section
/-! SUPPORT. The host registers (10_state.md R22 to R24) and `STATUS` (R27) after a command, one effect at a
time. -/

namespace Sys2Proof.Machine

/-- A tick answers a value and changes no other host register (46_voice_loop.md R280, R292). -/
theorem reply_tick (s : State) : Reply s.host (renderTick (drain s)).host := by
  have hhost : (drain s).host = s.host := (drainLoop_frame _ s).1
  have hvalue (out : F64) : Reply s.host { (drain s).host with res0 := out, rtag := .value } := by
    rw [hhost]
    exact .value out
  exact hvalue _

/-- The four ways a command other than `RESET` leaves the host registers. -/
theorem Effect.host_cases {s t : State} {i : Instr} (h : Effect s i t) (hreset : i ≠ .reset) :
    Reply s.host t.host ∨ t.host = { s.host with rtag := .fault } ∨
      (i = .envStep ∧ ∃ res0 res1, t.host = { s.host with res0 := res0, res1 := res1, rtag := .value }) ∨
      (i = .eqPop ∧ ∃ res0 res1 res2 res3, t.host =
        { s.host with res0 := res0, res1 := res1, res2 := res2, res3 := res3, rtag := .value }) := by
  cases h with
  | fault => exact .inr (.inl rfl)
  | reset => exact absurd rfl hreset
  | answer i h hr | osc i o h hphase hr | env i e h hr | noise i n h hseed hr | table i t h ht hr
  | queue i q h hq hr => exact .inl hr
  | register imm r =>
    left
    rw [retNone_host, writeReg_host]
    exact .none
  | envStep e res0 res1 => exact .inr (.inr (.inl ⟨rfl, res0, res1, rfl⟩))
  | eventPopped res0 res1 res2 res3 => exact .inr (.inr (.inr ⟨rfl, res0, res1, res2, res3, rfl⟩))
  | tick => exact .inl (reply_tick s)

/-- A write of another register leaves `STATUS` (40_control.md R103). -/
theorem writeReg_status_of_ne {r : Reg} (h : r ≠ .status) (v : Word64) (s : State) :
    (writeReg r v s).sys.status = s.sys.status := by
  cases r with
  | status => exact absurd rfl h
  | _ => rfl

/-- Only number 0 names `STATUS` (10_state.md R27). -/
theorem eq_zero_of_regOfNumber_status {imm : BitVec 16} (h : regOfNumber imm.toNat = some .status) : imm = 0#16 :=
  BitVec.eq_of_toNat_eq (regNumber_of_regOfNumber h).symm

theorem and_or_absorb {w : Nat} (a b : BitVec w) : a &&& (a ||| b) = a := by
  ext i hi
  rw [BitVec.getElem_and, BitVec.getElem_or]
  exact inf_sup_self

/-- A command that neither resets nor writes `STATUS` leaves it, or adds a cause's bit and answers FAULT. -/
theorem Effect.status_cases {s t : State} {i : Instr} (h : Effect s i t) (hreset : i ≠ .reset)
    (hwrite : i ≠ .wrreg 0x0000#16) :
    t.sys.status = s.sys.status ∨
      ∃ k, t.sys.status = s.sys.status ||| statusBit k ∧ t.host.rtag = .fault := by
  cases h with
  | fault i k => exact .inr ⟨k, rfl, rfl⟩
  | reset => exact absurd rfl hreset
  | answer | osc | env | envStep | noise | table | queue | eventPopped => exact .inl rfl
  | register imm r hnum =>
    have hne : r ≠ .status := by
      rintro rfl
      exact hwrite (congrArg Instr.wrreg (eq_zero_of_regOfNumber_status hnum))
    exact .inl (writeReg_status_of_ne hne _ s)
  | tick =>
    have hsys : (drain s).sys = s.sys := (drainLoop_frame _ s).2.1
    exact .inl (congrArg Sys.status hsys)

end Sys2Proof.Machine

open Sys2Proof Sys2Proof.Machine

/-- Settles O53: the clauses hold of each way a command leaves the host registers. -/
theorem operandAndResultRegistersAreKept : Obligations.OperandAndResultRegistersAreKept := by
  unfold Obligations.OperandAndResultRegistersAreKept
  intro i s t hexec hreset
  obtain hreply | hfault | ⟨rfl, res0, res1, hstep⟩ | ⟨rfl, res0, res1, res2, res3, hpop⟩ :=
    (exec_effect hexec).host_cases hreset
  · generalize t.host = h at hreply ⊢
    cases hreply <;> simp
  · simp [hfault]
  · simp [hstep]
  · simp [hpop]

/-- Settles O54: a command that does not write `STATUS` can only add a fault's bit. -/
theorem statusBitsAreSticky : Obligations.StatusBitsAreSticky := by
  unfold Obligations.StatusBitsAreSticky
  intro i s t hexec hreset hwrite
  obtain hsame | ⟨k, hbit, htag⟩ := (exec_effect hexec).status_cases hreset hwrite
  · simp [hsame]
  · refine ⟨?_, fun _ => htag⟩
    rw [hbit, and_or_absorb]
end

section
/-! SUPPORT. Rounding as an order: `roundUnits n d` is at most a magnitude that is at least `n / d` units, and at least
one that is at most `n / d` units (00_scope.md R10). Magnitudes, units and differences of finite values follow. -/

namespace Sys2Proof.Machine

/-! ### Rounding and the order of magnitudes -/

theorem roundHalfEven_le {n d r : Nat} (hd : 0 < d) (h : n ≤ r * d) : roundHalfEven n d ≤ r := by
  have hquot : n / d ≤ r := Nat.div_le_of_le_mul (by rwa [Nat.mul_comm])
  obtain ⟨hdown, -⟩ | ⟨hup, hhalf⟩ := roundHalfEven_cases n d
  · omega
  · have hne : n / d ≠ r := by
      intro hr
      have hsplit := Nat.div_add_mod' n d
      rw [hr] at hsplit
      omega
    omega

theorem le_roundHalfEven {n d r : Nat} (hd : 0 < d) (h : r * d ≤ n) : r ≤ roundHalfEven n d := by
  have hquot : r ≤ n / d := (Nat.le_div_iff_mul_le hd).2 h
  have := roundHalfEven_cases n d
  omega

/-- The exponent and the significand of a magnitude: the significand has 53 bits, fewer only when the exponent
is 0. -/
theorem exists_magBits_units_eq (x : F64) :
    ∃ e r, magBits x = e * 2 ^ 52 + r ∧ units x = r * 2 ^ e ∧ r < 2 ^ 53 ∧ (e = 0 ∨ 2 ^ 52 ≤ r) := by
  have hmag : magBits x = (magBits x / 2 ^ 52 - 1) * 2 ^ 52 +
      (magBits x - (magBits x / 2 ^ 52 - 1) * 2 ^ 52) := by omega
  exact ⟨_, _, hmag, units_eq_of_magBits hmag (by omega) (by omega), by omega, by omega⟩

/-- A magnitude that is at least `n / d` units is at least the rounding of `n / d`. -/
theorem roundUnits_le_magBits {z : F64} {n d : Nat} (hd : 0 < d) (h : n ≤ units z * d) :
    roundUnits n d ≤ magBits z := by
  obtain ⟨e', r, hmag, hunits, hr, he'⟩ := exists_magBits_units_eq z
  obtain ⟨hlt, he⟩ := div_scale_bounds n d
  have hround := roundHalfEven_cases n (d * 2 ^ (Nat.log2 (n / d) - 52))
  have hdef : roundUnits n d ≤ (Nat.log2 (n / d) - 52) * 2 ^ 52 +
      roundHalfEven n (d * 2 ^ (Nat.log2 (n / d) - 52)) := Nat.min_le_left _ _
  generalize Nat.log2 (n / d) - 52 = e at *
  rw [hunits] at h
  have hexp : e ≤ e' := by
    by_contra! hlt'
    have hlow : 2 ^ 52 * 2 ^ e ≤ n / d := he.resolve_left (by omega)
    have hhigh : n / d < 2 ^ 52 * 2 ^ e := by
      calc n / d ≤ r * 2 ^ e' := Nat.div_le_of_le_mul (by rwa [Nat.mul_comm])
        _ < 2 ^ 53 * 2 ^ e' := Nat.mul_lt_mul_of_pos_right hr (Nat.two_pow_pos _)
        _ = 2 ^ 52 * 2 ^ (e' + 1) := by rw [pow_succ]; ring
        _ ≤ 2 ^ 52 * 2 ^ e := Nat.mul_le_mul_left _ (Nat.pow_le_pow_right two_pos hlt')
    omega
  rcases hexp.lt_or_eq with hlt' | rfl
  · omega
  · have hle : roundHalfEven n (d * 2 ^ e) ≤ r :=
      roundHalfEven_le (Nat.mul_pos hd (Nat.two_pow_pos _)) (h.trans_eq (by ring))
    omega

/-- A magnitude up to the infinity that is at most `n / d` units is at most the rounding of `n / d`. -/
theorem magBits_le_roundUnits {z : F64} {n d : Nat} (hz : magBits z ≤ infMag) (hd : 0 < d)
    (h : units z * d ≤ n) : magBits z ≤ roundUnits n d := by
  obtain ⟨e', r, hmag, hunits, hr, he'⟩ := exists_magBits_units_eq z
  obtain ⟨hlt, he⟩ := div_scale_bounds n d
  refine Nat.le_min.2 ⟨?_, hz⟩
  generalize Nat.log2 (n / d) - 52 = e at *
  rw [hunits] at h
  have hscale : 0 < d * 2 ^ e := Nat.mul_pos hd (Nat.two_pow_pos _)
  have hexp : e' ≤ e := by
    by_contra! hlt'
    have hhigh : 2 ^ 53 ≤ n / (d * 2 ^ e) := by
      rw [Nat.le_div_iff_mul_le hscale]
      calc 2 ^ 53 * (d * 2 ^ e) = 2 ^ 52 * 2 ^ (e + 1) * d := by rw [pow_succ]; ring
        _ ≤ r * 2 ^ e' * d := Nat.mul_le_mul_right _
          (Nat.mul_le_mul (by omega) (Nat.pow_le_pow_right two_pos hlt'))
        _ ≤ n := h
    omega
  rcases hexp.lt_or_eq with hlt' | rfl
  · have hlow : 2 ^ 52 ≤ roundHalfEven n (d * 2 ^ e) := by
      refine le_roundHalfEven hscale ?_
      have hbits : 2 ^ 52 * 2 ^ e * d ≤ n :=
        (Nat.mul_le_mul_right _ (he.resolve_left (by omega))).trans (Nat.div_mul_le_self n d)
      exact hbits.trans_eq' (by ring)
    omega
  · have hle : r ≤ roundHalfEven n (d * 2 ^ e') := le_roundHalfEven hscale (h.trans_eq' (by ring))
    omega

/-- Units grow with the magnitude, since the units of a value round to its own magnitude. -/
theorem units_le_units {x y : F64} (hy : magBits y ≤ infMag) (h : magBits x ≤ magBits y) : units x ≤ units y := by
  by_contra! hlt
  have hback : magBits y ≤ magBits x :=
    (magBits_le_roundUnits hy one_pos (by omega)).trans
      (roundUnits_le_magBits (n := units x) (d := 1) one_pos (by omega))
  have hsame : magBits x = magBits y := le_antisymm h hback
  simp [units, hsame] at hlt

/-! ### Signs and comparisons -/

theorem isFinite_iff (x : F64) : isFinite x = true ↔ magBits x < infMag := by simp [isFinite]

theorem isNaN_eq_false_iff (x : F64) : isNaN x = false ↔ magBits x ≤ infMag := by simp [isNaN]

theorem fle_fZero_left {x : F64} (hnan : isNaN x = false) (hsign : signBit x = false) : fle fZero x = true := by
  refine (fle_iff _ _).2 ⟨by decide, hnan, ?_⟩
  rw [show orderOf fZero = 0 by decide, orderOf, hsign]
  exact Int.natCast_nonneg _

theorem fle_fOne_right {x : F64} (hsign : signBit x = false) (h : magBits x ≤ magBits fOne) :
    fle x fOne = true := by
  have hone : magBits fOne = 0x3FF0000000000000 := by decide
  refine (fle_iff _ _).2 ⟨(isNaN_eq_false_iff x).2 (h.trans (by decide)), by decide, ?_⟩
  rw [show orderOf fOne = 0x3FF0000000000000 by decide, orderOf, hsign]
  simp only [Bool.false_eq_true, if_false]
  omega

/-- The positive values. -/
theorem flt_fZero_left_iff (x : F64) :
    flt fZero x = true ↔ isNaN x = false ∧ signBit x = false ∧ 0 < magBits x := by
  rw [flt_iff, show orderOf fZero = 0 by decide, show isNaN fZero = false by decide, orderOf]
  cases signBit x <;> simp

/-! ### Differences -/

/-- The difference of finite values of one sign, the first not the smaller, has a plus sign. -/
theorem fsub_of_signedUnits_le {x y : F64} (hx : isFinite x = true) (hy : isFinite y = true)
    (hsign : signBit x = signBit y) (h : signedUnits y ≤ signedUnits x) :
    fsub x y = packF false (roundUnits (signedUnits x - signedUnits y).natAbs 1) := by
  have hneg : signedUnits (fneg y) = -signedUnits y := by
    simp only [signedUnits, signBit_fneg, units_fneg]
    cases signBit y <;> simp
  have hplus : (if signedUnits x - signedUnits y = 0 then signBit x && signBit (fneg y)
      else decide (signedUnits x - signedUnits y < 0)) = false := by
    split
    · simp [hsign]
    · exact decide_eq_false (by omega)
  rw [fsub, fadd_of_isFinite hx ((isFinite_fneg y).trans hy), hneg, ← sub_eq_add_neg, hplus]

theorem signedUnits_of_signBit_eq_false {x : F64} (h : signBit x = false) : signedUnits x = units x := by
  rw [signedUnits, h]
  rfl

/-- The same for values without a minus sign, in units. -/
theorem fsub_of_magBits_le {x y : F64} (hx : isFinite x = true) (hsx : signBit x = false)
    (hsy : signBit y = false) (h : magBits y ≤ magBits x) :
    fsub x y = packF false (roundUnits (units x - units y) 1) := by
  have hmx : magBits x < infMag := (isFinite_iff x).1 hx
  have hunits : units y ≤ units x := units_le_units hmx.le h
  have hux := signedUnits_of_signBit_eq_false hsx
  have huy := signedUnits_of_signBit_eq_false hsy
  have hnat : (signedUnits x - signedUnits y).natAbs = units x - units y := by omega
  rw [fsub_of_signedUnits_le hx ((isFinite_iff y).2 (by omega)) (hsx.trans hsy.symm) (by omega), hnat]

/-! ### Quotients -/

/-- A quotient of values without a minus sign, the divisor not the smaller and not zero, lies in [0, 1]. -/
theorem fdiv_mem_unit {x y : F64} (hy : isFinite y = true) (hsx : signBit x = false) (hsy : signBit y = false)
    (hzero : isZero y = false) (h : magBits x ≤ magBits y) :
    fle fZero (fdiv x y) = true ∧ fle (fdiv x y) fOne = true := by
  have hmy : magBits y < infMag := (isFinite_iff y).1 hy
  rw [fdiv_of_isFinite ((isFinite_iff x).2 (by omega)) hy hzero, hsx, hsy]
  have hone : units fOne = oneUnits := by decide +kernel
  have hround : roundUnits (units x * oneUnits) (units y) ≤ magBits fOne := by
    refine roundUnits_le_magBits (units_pos hzero) ?_
    rw [hone, Nat.mul_comm]
    exact Nat.mul_le_mul_left _ (units_le_units hmy.le h)
  refine ⟨fle_fZero_left (isNaN_packF_roundUnits _ _ _) (signBit_packF _ (roundUnits_lt _ _)),
    fle_fOne_right (signBit_packF _ (roundUnits_lt _ _)) ?_⟩
  rwa [magBits_packF _ (roundUnits_lt _ _)]

end Sys2Proof.Machine
end

section
/-! SUPPORT. The gain (41_oscillator.md R123) and the time-to-coefficient conversion (42_envelope.md R180) as
quotients that lie in [0, 1]. -/

namespace Sys2Proof.Machine

/-- The span of the thresholds is exact: no rounding enters the divisor of the gain. -/
theorem gain_span_exact (fam : Family) :
    isFinite (fsub (gainHi fam) (gainLo fam)) = true ∧ signBit (fsub (gainHi fam) (gainLo fam)) = false ∧
      isZero (fsub (gainHi fam) (gainLo fam)) = false ∧
      units (fsub (gainHi fam) (gainLo fam)) = units (gainHi fam) - units (gainLo fam) := by
  cases fam <;> decide +kernel

theorem gain_thresholds_finite (fam : Family) :
    isFinite (gainHi fam) = true ∧ signBit (gainHi fam) = false ∧ isNaN (gainLo fam) = false ∧
      signBit (gainLo fam) = false := by
  cases fam <;> decide

/-- Between the thresholds the gain is the rest of the way to the upper one, over the span. -/
theorem gain_ramp_mem_unit {d : F64} {fam : Family} (hlo : fle d (gainLo fam) = false)
    (hhi : flt d (gainHi fam) = true) :
    fle fZero (fdiv (fsub (gainHi fam) d) (fsub (gainHi fam) (gainLo fam))) = true ∧
      fle (fdiv (fsub (gainHi fam) d) (fsub (gainHi fam) (gainLo fam))) fOne = true := by
  obtain ⟨hspan, hspanSign, hspanZero, hspanUnits⟩ := gain_span_exact fam
  obtain ⟨hhiFin, hhiSign, hloNaN, hloSign⟩ := gain_thresholds_finite fam
  obtain ⟨hdNaN, -, hdhi⟩ := (flt_iff _ _).1 hhi
  have hlod : orderOf (gainLo fam) < orderOf d :=
    ((flt_iff _ _).1 ((fle_total hdNaN hloNaN).resolve_left (by simp [hlo]))).2.2
  simp only [orderOf, hloSign, hhiSign, Bool.false_eq_true, if_false] at hlod hdhi
  have hdSign : signBit d = false := by
    by_contra hneg
    simp only [Bool.not_eq_false] at hneg
    simp only [hneg, if_true] at hlod
    omega
  simp only [hdSign, Bool.false_eq_true, if_false, Nat.cast_lt] at hlod hdhi
  have hround : magBits (fsub (gainHi fam) d) ≤ magBits (fsub (gainHi fam) (gainLo fam)) := by
    rw [fsub_of_magBits_le hhiFin hhiSign hdSign hdhi.le, magBits_packF _ (roundUnits_lt _ _)]
    refine roundUnits_le_magBits one_pos ?_
    rw [hspanUnits, Nat.mul_one]
    exact Nat.sub_le_sub_left (units_le_units ((isNaN_eq_false_iff d).1 hdNaN) hlod.le) _
  have hsign : signBit (fsub (gainHi fam) d) = false := by
    rw [fsub_of_magBits_le hhiFin hhiSign hdSign hdhi.le, signBit_packF _ (roundUnits_lt _ _)]
  exact fdiv_mem_unit hspan hsign hspanSign hspanZero hround

/-- The greatest finite value. -/
def maxFinite : F64 := 0x7FEFFFFFFFFFFFFF#64

/-- The units of a finite value are at most those of the greatest one. -/
theorem units_le_maxFinite {x : F64} (h : isFinite x = true) : units x ≤ units maxFinite :=
  units_le_units (by decide) (Nat.le_of_lt_succ (((isFinite_iff x).1 h).trans_eq (by decide)))

theorem units_fOne : units fOne = oneUnits := by decide +kernel

theorem fadd_fOne {p : F64} (hp : isFinite p = true) (hsign : signBit p = false) :
    fadd p fOne = packF false (roundUnits (units p + oneUnits) 1) := by
  have hsum : signedUnits p + signedUnits fOne = ((units p + oneUnits : Nat) : Int) := by
    rw [signedUnits_of_signBit_eq_false hsign, signedUnits_of_signBit_eq_false (by decide), units_fOne, Nat.cast_add]
  have hplus : (if signedUnits p + signedUnits fOne = 0 then signBit p && signBit fOne
      else decide (signedUnits p + signedUnits fOne < 0)) = false := by
    rw [hsum, hsign, Bool.false_and]
    split
    · rfl
    · exact decide_eq_false (by omega)
  rw [fadd_of_isFinite hp (by decide), hplus, hsum, Int.natAbs_natCast]

/-- Adding 1 does not leave the finite values: the greatest one absorbs it, and the others have room for it. -/
theorem roundUnits_add_oneUnits_le {p : F64} (hp : isFinite p = true) :
    roundUnits (units p + oneUnits) 1 ≤ magBits maxFinite := by
  have hmag : magBits p < infMag := (isFinite_iff p).1 hp
  have hmax : magBits maxFinite = infMag - 1 := by decide
  rcases (show magBits p ≤ magBits maxFinite by omega).lt_or_eq with hlt | heq
  · have hunits : units p ≤ units 0x7FEFFFFFFFFFFFFE#64 := by
      refine units_le_units (by decide) ?_
      rw [show magBits 0x7FEFFFFFFFFFFFFE#64 = infMag - 2 by decide]
      omega
    have hroom : units 0x7FEFFFFFFFFFFFFE#64 + oneUnits ≤ units maxFinite := by decide +kernel
    refine roundUnits_le_magBits one_pos ?_
    omega
  · have hunits : units p = units maxFinite := by simp only [units, heq]
    rw [hunits]
    decide +kernel

/-- A finite product has finite factors. -/
theorem isFinite_of_isFinite_fmul {x y : F64} (h : isFinite (fmul x y) = true) :
    isFinite x = true ∧ isFinite y = true := by
  have hnan : isFinite nanMade = false := by decide
  have hinf (sign : Bool) : isFinite (packF sign infMag) = false := by cases sign <;> decide
  unfold fmul at h
  dsimp only at h
  split_ifs at h with hNaN hxInf hyZero hyInf hxZero
  · simp [hnan] at h
  · simp [hnan] at h
  · simp [hinf] at h
  · simp [hnan] at h
  · simp [hinf] at h
  · simp only [isNaN, isInf, isFinite, Bool.or_eq_true, decide_eq_true_eq] at *
    omega

/-- A finite product of values without a minus sign has none. -/
theorem signBit_fmul {x y : F64} (h : isFinite (fmul x y) = true) (hx : signBit x = false)
    (hy : signBit y = false) : signBit (fmul x y) = false := by
  obtain ⟨hxFin, hyFin⟩ := isFinite_of_isFinite_fmul h
  rw [fmul_of_isFinite hxFin hyFin, signBit_packF _ (roundUnits_lt _ _), hx, hy]
  rfl

/-- The coefficient is the reciprocal of a finite value that is at least 1 (42_envelope.md R180). -/
theorem recip_fadd_fOne_mem_unit {p : F64} (hp : isFinite p = true) (hsign : signBit p = false) :
    flt fZero (fdiv fOne (fadd p fOne)) = true ∧ fle (fdiv fOne (fadd p fOne)) fOne = true := by
  have hmag : magBits (fadd p fOne) = roundUnits (units p + oneUnits) 1 := by
    rw [fadd_fOne hp hsign, magBits_packF _ (roundUnits_lt _ _)]
  have hden : signBit (fadd p fOne) = false := by
    rw [fadd_fOne hp hsign, signBit_packF _ (roundUnits_lt _ _)]
  have hfin : isFinite (fadd p fOne) = true :=
    (isFinite_iff _).2 (hmag ▸ (roundUnits_add_oneUnits_le hp).trans_lt (by decide))
  have hge : magBits fOne ≤ magBits (fadd p fOne) := by
    rw [hmag]
    exact magBits_le_roundUnits (by decide) one_pos (by rw [units_fOne]; omega)
  have hzero : isZero (fadd p fOne) = false :=
    decide_eq_false (Nat.ne_of_gt (Nat.lt_of_lt_of_le (by decide) hge))
  refine ⟨(flt_fZero_left_iff _).2 ?_, (fdiv_mem_unit hfin (by decide) hden hzero hge).2⟩
  rw [fdiv_of_isFinite (by decide) hfin hzero, hden, signBit_packF _ (roundUnits_lt _ _),
    magBits_packF _ (roundUnits_lt _ _)]
  refine ⟨isNaN_packF_roundUnits _ _ _, by decide, ?_⟩
  have hsmall : units 1#64 * units (fadd p fOne) ≤ units fOne * oneUnits := by
    have hbound : units 1#64 * units maxFinite ≤ units fOne * oneUnits := by decide +kernel
    exact (Nat.mul_le_mul_left _ (units_le_maxFinite hfin)).trans hbound
  exact Nat.lt_of_lt_of_le (show 0 < magBits 1#64 by decide)
    (magBits_le_roundUnits (by decide) (units_pos hzero) hsmall)

end Sys2Proof.Machine

open Sys2Proof Sys2Proof.Machine

/-- Settles O18: the gain is 1, 0, or a quotient with the greater divisor. -/
theorem gainLiesInTheUnitInterval : Obligations.GainLiesInTheUnitInterval := by
  unfold Obligations.GainLiesInTheUnitInterval
  intro d fam
  unfold gain
  split_ifs with hlo hhi
  · decide
  · exact gain_ramp_mem_unit (Bool.eq_false_iff.2 hlo) hhi
  · decide

/-- Settles O25: the coefficient is 1, or the reciprocal of a finite sum that is at least 1. -/
theorem coefficientsLieInTheUnitInterval : Obligations.CoefficientsLieInTheUnitInterval := by
  unfold Obligations.CoefficientsLieInTheUnitInterval
  intro sr time _ hsr hprod
  unfold coef
  split_ifs with htime
  · obtain ⟨-, hsrSign, -⟩ := (flt_fZero_left_iff sr).1 hsr
    obtain ⟨-, htimeSign, -⟩ := (flt_fZero_left_iff time).1 htime
    have hp := hprod htime
    have hfifth := signBit_fmul (isFinite_of_isFinite_fmul hp).1 (by decide) htimeSign
    exact recip_fadd_fOne_mem_unit hp (signBit_fmul hp hfifth hsrSign)
  · decide
end

section
/-! SUPPORT. The wrap of a phase (41_oscillator.md R120): in [0, 1) for a finite value, NaN for any other. -/

namespace Sys2Proof.Machine

/-! ### The floor -/

/-- The whole multiples of `c` around `n`. -/
theorem div_mul_le_and_le_ceil_mul {c : Nat} (hc : 0 < c) (n : Nat) :
    n / c * c ≤ n ∧ n ≤ (n + (c - 1)) / c * c := by
  have hup := Nat.lt_div_mul_add (a := n + (c - 1)) hc
  exact ⟨Nat.div_mul_le_self n c, by omega⟩

theorem ceil_mul_le {c n k : Nat} (hc : 0 < c) (h : n ≤ k * c) : (n + (c - 1)) / c * c ≤ k * c := by
  refine Nat.mul_le_mul_right _ (Nat.le_of_lt_succ ((Nat.div_lt_iff_lt_mul hc).2 ?_))
  rw [Nat.succ_mul]
  omega

theorem signedUnits_of_signBit_eq_true {x : F64} (h : signBit x = true) : signedUnits x = -units x := by
  rw [signedUnits, h]
  rfl

/-- Rounding a negative value up in magnitude, to a whole number, stays in the finite values: the greatest one is a
whole number. -/
theorem roundUnits_ceil_lt_infMag {x : F64} (h : isFinite x = true) :
    roundUnits ((units x + (oneUnits - 1)) / oneUnits * oneUnits) 1 < infMag := by
  have hwhole : units maxFinite = (2 ^ 53 - 1) * 2 ^ 971 * oneUnits := by decide +kernel
  have hceil := ceil_mul_le oneUnits_pos ((units_le_maxFinite h).trans_eq hwhole)
  rw [← hwhole] at hceil
  exact (roundUnits_le_magBits one_pos (by omega)).trans_lt (show magBits maxFinite < infMag by decide)

/-- The floor of a finite value is finite, has its sign, and is not above it. -/
theorem ffloor_le {x : F64} (h : isFinite x = true) :
    isFinite (ffloor x) = true ∧ signBit (ffloor x) = signBit x ∧ signedUnits (ffloor x) ≤ signedUnits x := by
  obtain ⟨hnan, hinf⟩ := isNaN_isInf_of_isFinite h
  have hmag : magBits x < infMag := (isFinite_iff x).1 h
  obtain ⟨hdown, hup⟩ := div_mul_le_and_le_ceil_mul oneUnits_pos (units x)
  have hpack (sign : Bool) (n : Nat) := magBits_packF sign (roundUnits_lt n 1)
  have hpackSign (sign : Bool) (n : Nat) := signBit_packF sign (roundUnits_lt n 1)
  unfold ffloor
  simp only [hnan, hinf, Bool.false_or, Bool.false_eq_true, if_false]
  split_ifs with hzero hsign
  · exact ⟨h, rfl, le_rfl⟩
  · have hunits : units x ≤ units (packF true
        (roundUnits ((units x + (oneUnits - 1)) / oneUnits * oneUnits) 1)) := by
      refine units_le_units ?_ ?_ <;> rw [hpack]
      · exact roundUnits_le _ _
      · exact magBits_le_roundUnits hmag.le one_pos (by omega)
    refine ⟨(isFinite_iff _).2 ((hpack _ _).trans_lt (roundUnits_ceil_lt_infMag h)),
      (hpackSign _ _).trans hsign.symm, ?_⟩
    rw [signedUnits_of_signBit_eq_true (hpackSign _ _), signedUnits_of_signBit_eq_true hsign]
    omega
  · have hplus : signBit x = false := Bool.eq_false_iff.2 hsign
    have hround : roundUnits (units x / oneUnits * oneUnits) 1 ≤ magBits x :=
      roundUnits_le_magBits one_pos (by omega)
    have hunits := units_le_units hmag.le ((hpack false _).trans_le hround)
    refine ⟨(isFinite_iff _).2 ((hpack _ _).trans_lt (hround.trans_lt hmag)),
      (hpackSign _ _).trans hplus.symm, ?_⟩
    rw [signedUnits_of_signBit_eq_false (hpackSign _ _), signedUnits_of_signBit_eq_false hplus]
    omega

/-! ### The wrap -/

theorem inUnit_wrap {x : F64} (h : isFinite x = true) : inUnit (wrap x) = true := by
  obtain ⟨hfin, hsign, hle⟩ := ffloor_le h
  have hrest := fsub_of_signedUnits_le h hfin hsign.symm hle
  unfold wrap
  dsimp only
  split_ifs with hge
  · decide
  · have hnan : isNaN (fsub x (ffloor x)) = false := by
      rw [hrest]
      exact isNaN_packF_roundUnits _ _ _
    have hplus : signBit (fsub x (ffloor x)) = false := by
      rw [hrest]
      exact signBit_packF _ (roundUnits_lt _ _)
    have hbelow := (fle_total (x := fOne) (by decide) hnan).resolve_left hge
    rw [inUnit, fle_fZero_left hnan hplus, hbelow]
    rfl

/-- An infinity less itself is a NaN, and a NaN stays one. -/
theorem isNaN_fsub_ffloor {x : F64} (h : isFinite x = false) : isNaN (fsub x (ffloor x)) = true := by
  cases hnan : isNaN x
  · have hinf : isInf x = true := by
      simp only [isFinite, isNaN, isInf, decide_eq_true_eq, decide_eq_false_iff_not] at *
      omega
    have hfloor : ffloor x = x := by simp [ffloor, hnan, hinf]
    have hneg : isInf (fneg x) = true := by simpa [isInf] using hinf
    simp [hfloor, fsub, fadd, hnan, hinf, hneg]
  · exact isNaN_fadd_left hnan _

theorem isNaN_wrap {x : F64} (h : isFinite x = false) : isNaN (wrap x) = true := by
  have hrest := isNaN_fsub_ffloor h
  unfold wrap
  dsimp only
  rw [fge, (compare_nan_right hrest fOne).1, if_neg Bool.false_ne_true]
  exact hrest

theorem phaseOk_wrap (x : F64) : PhaseOk (wrap x) := by
  cases h : isFinite x
  · exact .inl (isNaN_wrap h)
  · exact .inr (inUnit_wrap h)

/-- A phase as a command writes it: the NaN may be any (93_implementation_defined.md U18). -/
theorem phaseOk_pin_wrap (q : Nat) (site : Site) (x : F64) : PhaseOk (pin q site (wrap x)) := by
  cases hnan : isNaN (wrap x)
  · rw [pin_of_not_nan hnan]
    exact phaseOk_wrap x
  · exact .inl ((isNaN_pin q site (wrap x)).trans hnan)

end Sys2Proof.Machine
end

section
/-! SUPPORT. The phases of the live rows (10_state.md R37): a command keeps them, wraps them, or starts a row at 0,
except where the host writes one or a new row's fields are free (44_voice_table.md R241, log 17). -/

namespace Sys2Proof.Machine

/-- Every live row's phase is in [0, 1) or NaN (10_state.md R37). -/
def PhasesOk (t : Table) : Prop := ∀ r ∈ liveRows t, PhaseOk r.phase

theorem phaseOk_fZero : PhaseOk fZero := .inr (by decide)

/-! ### The operations on rows -/

theorem rowAt_mem_liveRows {t : Table} {i : Nat} (h : TableWf t) (hi : i < t.count) : rowAt t i ∈ liveRows t := by
  obtain ⟨-, -, hstored, -⟩ := h
  have hlen : i < t.rows.length := hi.trans_le hstored
  have hrow : rowAt t i = t.rows[i] := by simp [rowAt, hlen]
  rw [hrow]
  exact List.mem_take_iff_getElem.2 ⟨i, by omega, rfl⟩

theorem phasesOk_clear (t : Table) : PhasesOk { t with count := 0 } := by
  intro r hr
  simp [liveRows] at hr

theorem phasesOk_appendRow {r : VoiceRow} {t : Table} (hwf : TableWf t) (h : PhasesOk t) (hr : PhaseOk r.phase) :
    PhasesOk (appendRow r t) := by
  obtain ⟨-, -, hstored, -⟩ := hwf
  intro r' hmem
  rw [liveRows_appendRow r hstored, List.mem_append, List.mem_singleton] at hmem
  obtain hold | rfl := hmem
  · exact h r' hold
  · exact hr

theorem phasesOk_removeRow {i : Nat} {t : Table} (hwf : TableWf t) (h : PhasesOk t) (hi : i < t.count) :
    PhasesOk (removeRow i t) := by
  obtain ⟨-, -, hstored, -⟩ := hwf
  intro r hmem
  rw [liveRows_removeRow hstored hi] at hmem
  exact h r (List.mem_of_mem_eraseIdx hmem)

theorem phasesOk_putRow {i : Nat} {r : VoiceRow} {t : Table} (hwf : TableWf t) (h : PhasesOk t) (hi : i < t.count)
    (hr : PhaseOk r.phase) : PhasesOk { t with rows := putRow i r t.rows } := by
  obtain ⟨-, -, hstored, -⟩ := hwf
  intro r' hmem
  rw [liveRows, putRow_eq_set r (hi.trans_le hstored), List.take_set] at hmem
  obtain hold | rfl := List.mem_or_eq_of_mem_set hmem
  · exact h r' hold
  · exact hr

/-! ### A tick -/

/-- A note starts its row at phase 0 (46_voice_loop.md R283). -/
theorem phasesOk_noteOn (entry : Nat) (n v : BitVec 8) {s : State} (hwf : TableWf s.table)
    (h : PhasesOk s.table) : PhasesOk (noteOn entry n v s).table := by
  unfold noteOn
  dsimp only
  split
  · rename_i hfull
    have hlive : 0 < s.table.count := by
      obtain ⟨hcap, -⟩ := hwf
      omega
    exact phasesOk_appendRow (tableWf_removeRow hwf hlive) (phasesOk_removeRow hwf h hlive) phaseOk_fZero
  · exact phasesOk_appendRow hwf h phaseOk_fZero

theorem phasesOk_noteOff (n : BitVec 8) {s : State} (hwf : TableWf s.table) (h : PhasesOk s.table) :
    PhasesOk (noteOff n s).table := by
  unfold noteOff
  split
  · exact h
  · rename_i j hfound
    obtain ⟨-, hj, -⟩ := findRow_some hfound
    exact phasesOk_removeRow hwf h hj

theorem phasesOk_handleEvent (entry : Nat) (e : Event) {s : State} (hwf : TableWf s.table)
    (h : PhasesOk s.table) : PhasesOk (handleEvent entry e s).table := by
  unfold handleEvent
  split
  · exact phasesOk_noteOn _ _ _ hwf h
  · exact phasesOk_noteOff _ hwf h
  · exact phasesOk_clear _
  · exact h

theorem phasesOk_drainLoop (fuel : Nat) : ∀ {s : State}, TableWf s.table → PhasesOk s.table →
    PhasesOk (drainLoop fuel s).table := by
  induction fuel with
  | zero => exact fun _ h => h
  | succ n ih =>
    intro s hwf h
    unfold drainLoop
    obtain ⟨-, -, he⟩ | ⟨-, he⟩ := popEvent_cases s.queue
    · rw [he]
      exact ih (tableWf_handleEvent _ _ hwf) (phasesOk_handleEvent _ _ hwf h)
    · rw [he]
      exact h

theorem phasesOk_renderVoices (q : Nat) (o : Osc) (e nf : F64) (l : List Nat) : ∀ (acc : F64) (t : Table),
    TableWf t → PhasesOk t → (∀ i ∈ l, i < t.count) → PhasesOk (renderVoices q o e nf l acc t).2 := by
  induction l with
  | nil => exact fun _ _ _ h _ => h
  | cons i rest ih =>
    intro acc t hwf h hl
    have hi := hl i List.mem_cons_self
    exact ih _ { t with rows := putRow i (advanceRow q i (rowAt t i)) t.rows } (tableWf_putRow _ hwf hi)
      (phasesOk_putRow hwf h hi (phaseOk_pin_wrap _ _ _)) fun k hk => hl k (List.mem_cons_of_mem i hk)

theorem phasesOk_tick {s : State} (hinv : Invariant s) (h : PhasesOk s.table) :
    PhasesOk (renderTick (drain s)).table := by
  have htable : TableWf s.table := hinv.1
  have hdrain : TableWf (drain s).table := (invariant_drain hinv).1
  exact phasesOk_renderVoices _ _ _ _ _ _ _ hdrain (phasesOk_drainLoop _ htable h) fun _ => lt_of_mem_voicesOf

/-! ### All commands -/

/-- Only its own code names a column (30_encoding.md R89). -/
theorem columnCode_of_columnOfCode {n : Nat} {c : Column} (h : columnOfCode n = some c) : columnCode c = n := by
  unfold columnOfCode at h
  split at h <;> cases h <;> rfl

theorem TableEffect.phasesOk {s : State} {i : Instr} {t : Table} (h : TableEffect s i t) (hwf : TableWf s.table)
    (hphases : PhasesOk s.table) (hwrite : i ≠ .vtWrf 1#4) (happend : i ≠ .vtAppend) (hinsert : i ≠ .vtInsert) :
    PhasesOk t := by
  cases h with
  | append => exact absurd rfl happend
  | insert => exact absurd rfl hinsert
  | remove i hi => exact phasesOk_removeRow hwf hphases hi
  | clear => exact phasesOk_clear _
  | writeField sel c v i hc hi =>
    have hcolumn : .phase ≠ c := by
      rintro rfl
      exact hwrite (congrArg Instr.vtWrf (BitVec.eq_of_toNat_eq (columnCode_of_columnOfCode hc).symm))
    have hkeep : (setField c v (rowAt s.table i)).phase = (rowAt s.table i).phase :=
      fieldOf_setField_ne hcolumn v _
    exact phasesOk_putRow hwf hphases hi (hkeep ▸ hphases _ (rowAt_mem_liveRows hwf hi))

theorem PhaseEffect.phaseOk {q : Nat} {site : Site} {old new : F64} (h : PhaseEffect q site old new)
    (hold : PhaseOk old) : PhaseOk new := by
  obtain rfl | ⟨x, rfl⟩ := h
  · exact hold
  · exact phaseOk_pin_wrap q site x

theorem Effect.oscPhaseOk {s t : State} {i : Instr} (h : Effect s i t) (hwrite : i ≠ .wrreg 0x0010#16)
    (hphase : PhaseOk s.osc.t) : PhaseOk t.osc.t := by
  cases h with
  | fault | answer | env | envStep | noise | table | queue | eventPopped => exact hphase
  | reset => exact phaseOk_fZero
  | register imm r hnum =>
    have hr : .oscT ≠ r := by
      rintro rfl
      exact hwrite (congrArg Instr.wrreg (BitVec.eq_of_toNat_eq (regNumber_of_regOfNumber hnum).symm))
    have hkeep : (writeReg r s.host.arg0 s).osc.t = s.osc.t := readReg_writeReg_ne hr _ s
    exact hkeep ▸ hphase
  | osc i o h' ho hr => exact ho.phaseOk hphase
  | tick =>
    have hosc : (drain s).osc = s.osc := (drainLoop_frame _ s).2.2.1
    exact hosc ▸ hphase

theorem Effect.phasesOk {s t : State} {i : Instr} (h : Effect s i t) (hinv : Invariant s)
    (hphases : PhasesOk s.table) (hwrite : i ≠ .vtWrf 1#4) (happend : i ≠ .vtAppend) (hinsert : i ≠ .vtInsert) :
    PhasesOk t.table := by
  cases h with
  | fault | answer | osc | env | envStep | noise | queue | eventPopped => exact hphases
  | reset => exact phasesOk_clear (Table.reset s.table.capacity)
  | register imm r =>
    rw [retNone_table, writeReg_table]
    exact hphases
  | table i t h' ht hr => exact ht.phasesOk hinv.1 hphases hwrite happend hinsert
  | tick => exact phasesOk_tick hinv hphases

end Sys2Proof.Machine

open Sys2Proof Sys2Proof.Machine

/-- Settles O52: a phase that no listed command writes is kept, wrapped, or 0. -/
theorem phasesStayInTheUnitInterval : Obligations.PhasesStayInTheUnitInterval := by
  unfold Obligations.PhasesStayInTheUnitInterval
  intro i s t hinv hwrreg hwrite happend hinsert hphase hphases hexec
  have heffect := exec_effect hexec
  exact ⟨heffect.oscPhaseOk hwrreg hphase, heffect.phasesOk hinv hphases hwrite happend hinsert⟩
end

section
/-! SUPPORT. The opcode map of 30_encoding.md R86 both ways: a command is well-formed exactly when the decoder gives it
for its own word (R80), no other word gives it (R91), and the words that decode are those of R90. -/

namespace Sys2Proof

/-! ### From a command to its word and back -/

/-- `IMM` is 0 outside `RDREG` and `WRREG` (30_encoding.md R80). -/
theorem imm_eq_zero_or_usesImm (i : Instr) : i.imm = 0#16 ∨ usesImm i = true := by
  cases i with
  | rdreg imm | wrreg imm => exact .inr rfl
  | _ => exact .inl rfl

theorem usesImm_iff_opc (i : Instr) : usesImm i = true ↔ i.opc = 0x02#8 ∨ i.opc = 0x03#8 := by
  cases i <;> simp [usesImm, Instr.opc]

theorem onlySel0_eq_some {s : BitVec 4} {i j : Instr} : onlySel0 s j = some i ↔ s = 0#4 ∧ j = i := by
  simp [onlySel0]

theorem selUpTo_eq_some {b : Nat} {s : BitVec 4} {i j : Instr} :
    selUpTo b s j = some i ↔ s.toNat ≤ b ∧ j = i := by
  simp [selUpTo]

/-- The opcode map at a command's own fields. -/
theorem commandOf_of_wellFormed {i : Instr} (h : i.WellFormed = true) :
    commandOf i.opc i.sel i.imm = some (some i) := by
  cases i with
  | oscSetwave sel | vtFind sel | vtRdf sel | vtWrf sel =>
    exact congrArg some (selUpTo_eq_some.2 ⟨of_decide_eq_true h, rfl⟩)
  | _ => rfl

theorem decode_encode {i : Instr} (h : i.WellFormed = true) : decode (encode i) = .ok i :=
  decode_packWord (commandOf_of_wellFormed h) (imm_eq_zero_or_usesImm i)

/-! ### From a word to its command and back -/

/-- The command is one whose word has these fields. Outside `RDREG` and `WRREG` the opcode map does not look at
`IMM`. -/
structure IsCommandOf (i : Instr) (o : BitVec 8) (s : BitVec 4) (m : BitVec 16) : Prop where
  wellFormed : i.WellFormed = true
  opc : i.opc = o
  sel : i.sel = s
  imm : i.imm = if usesImm i then m else 0#16

section
variable {i j : Instr} {o : BitVec 8} {s : BitVec 4} {m : BitVec 16}

theorem IsCommandOf.of_onlySel0 (h : onlySel0 s j = some i) (hj : IsCommandOf j o 0#4 m) : IsCommandOf i o s m := by
  obtain ⟨rfl, rfl⟩ := onlySel0_eq_some.1 h
  exact hj

theorem IsCommandOf.of_selUpTo {b : Nat} (h : selUpTo b s j = some i)
    (hj : s.toNat ≤ b → IsCommandOf j o s m) : IsCommandOf i o s m := by
  obtain ⟨hs, rfl⟩ := selUpTo_eq_some.1 h
  exact hj hs

theorem IsCommandOf.of_waveCommand (h : waveCommand s = some i) : IsCommandOf i 0x17#8 s m := by
  unfold waveCommand at h
  split at h <;> cases h
  all_goals exact ⟨rfl, rfl, BitVec.eq_of_toNat_eq (Eq.symm ‹_›), rfl⟩

theorem IsCommandOf.of_colourCommand (h : colourCommand s = some i) : IsCommandOf i 0x32#8 s m := by
  unfold colourCommand at h
  split at h <;> cases h
  all_goals exact ⟨rfl, rfl, BitVec.eq_of_toNat_eq (Eq.symm ‹_›), rfl⟩

/-- What the opcode map answers is a command with the fields it was asked for, one row of R86 at a time. -/
theorem isCommandOf_of_commandOf (h : commandOf o s m = some (some i)) : IsCommandOf i o s m := by
  unfold commandOf at h
  split at h <;> rename_i ho
  any_goals exact .of_onlySel0 (Option.some.inj h) ⟨rfl, BitVec.eq_of_toNat_eq ho.symm, rfl, rfl⟩
  any_goals exact .of_selUpTo (Option.some.inj h) fun hs =>
    ⟨decide_eq_true hs, BitVec.eq_of_toNat_eq ho.symm, rfl, rfl⟩
  · obtain rfl : 0x17#8 = o := BitVec.eq_of_toNat_eq ho.symm
    exact .of_waveCommand (Option.some.inj h)
  · obtain rfl : 0x32#8 = o := BitVec.eq_of_toNat_eq ho.symm
    exact .of_colourCommand (Option.some.inj h)
  · cases h

end

/-- A word that decodes has no field that its command does not give (30_encoding.md R91). -/
theorem encode_of_decode {w : Word32} {i : Instr} (h : decode w = .ok i) :
    encode i = w ∧ i.WellFormed = true := by
  obtain ⟨hcommand, hrsv, himm⟩ := decode_ok h
  obtain ⟨hwf, hopc, hsel, himmOf⟩ := isCommandOf_of_commandOf hcommand
  have himmEq : i.imm = immOf w := by
    rcases himm with hzero | huses
    · rw [himmOf, hzero, ite_self]
    · rw [himmOf, if_pos huses]
  refine ⟨?_, hwf⟩
  rw [encode, hopc, hsel, himmEq, ← hrsv, packWord_fields]

/-! ### The words that decode -/

theorem exists_waveCommand : ∀ {s : BitVec 4}, s.toNat ≤ 13 → ∃ i, waveCommand s = some i := by
  simp only [← Option.isSome_iff_exists]
  decide

theorem exists_colourCommand : ∀ {s : BitVec 4}, 1 ≤ s.toNat → s.toNat ≤ 7 → ∃ i, colourCommand s = some i := by
  simp only [← Option.isSome_iff_exists]
  decide

end Sys2Proof

namespace Sys2Proof.Machine

/-- Every row of the table of R86 to R88 gives a command for every `SEL` of its range. -/
theorem exists_commandOf {r : Nat × Nat × Nat} (hr : r ∈ opcodeRanges) {s : BitVec 4} (m : BitVec 16)
    (hlo : r.2.1 ≤ s.toNat) (hhi : s.toNat ≤ r.2.2) : ∃ i, commandOf (BitVec.ofNat 8 r.1) s m = some (some i) := by
  fin_cases hr
  any_goals exact ⟨_, congrArg some (onlySel0_eq_some.2 ⟨BitVec.eq_of_toNat_eq (Nat.le_zero.1 hhi), rfl⟩)⟩
  any_goals exact ⟨_, congrArg some (selUpTo_eq_some.2 ⟨hhi, rfl⟩)⟩
  · exact (exists_waveCommand hhi).imp fun _ => congrArg some
  · exact (exists_colourCommand hlo hhi).imp fun _ => congrArg some

/-- Every well-formed command has a row of the table of R86 to R88. -/
theorem exists_opcodeRange {i : Instr} (h : i.WellFormed = true) :
    ∃ r ∈ opcodeRanges, i.opc.toNat = r.1 ∧ r.2.1 ≤ i.sel.toNat ∧ i.sel.toNat ≤ r.2.2 := by
  cases i with
  | oscSetwave sel => exact ⟨(0x14, 0, 13), by decide, rfl, Nat.zero_le _, of_decide_eq_true h⟩
  | vtFind sel => exact ⟨(0x47, 0, 2), by decide, rfl, Nat.zero_le _, of_decide_eq_true h⟩
  | vtRdf sel => exact ⟨(0x49, 0, 2), by decide, rfl, Nat.zero_le _, of_decide_eq_true h⟩
  | vtWrf sel => exact ⟨(0x4A, 0, 2), by decide, rfl, Nat.zero_le _, of_decide_eq_true h⟩
  | rdreg imm => exact ⟨(0x02, 0, 0), by decide, rfl, le_rfl, le_rfl⟩
  | wrreg imm => exact ⟨(0x03, 0, 0), by decide, rfl, le_rfl, le_rfl⟩
  | _ => decide

theorem legalWord_encode {i : Instr} (h : i.WellFormed = true) : LegalWord (encode i) := by
  obtain ⟨hopc, hrsv, hsel, himm⟩ := Laws.Fields.all i
  rw [LegalWord, hopc, hrsv, hsel, himm, ← usesImm_iff_opc]
  exact ⟨exists_opcodeRange h, rfl, imm_eq_zero_or_usesImm i⟩

theorem exists_decode_of_legalWord {w : Word32} (h : LegalWord w) : ∃ i, decode w = .ok i := by
  obtain ⟨⟨r, hr, hopc, hlo, hhi⟩, hrsv, himm⟩ := h
  obtain ⟨i, hcommand⟩ := exists_commandOf hr (immOf w) hlo hhi
  rw [← hopc, BitVec.ofNat_toNat, BitVec.setWidth_eq] at hcommand
  have huses : immOf w = 0#16 ∨ usesImm i = true := by
    rwa [usesImm_iff_opc, (isCommandOf_of_commandOf hcommand).opc]
  refine ⟨i, ?_⟩
  rw [← packWord_fields w, hrsv]
  exact decode_packWord hcommand huses

/-- The words that decode are those that pass the four tests of 30_encoding.md R90. -/
theorem exists_decode_iff_legalWord (w : Word32) : (∃ i, decode w = .ok i) ↔ LegalWord w := by
  refine ⟨?_, exists_decode_of_legalWord⟩
  rintro ⟨i, h⟩
  obtain ⟨rfl, hwf⟩ := encode_of_decode h
  exact legalWord_encode hwf

/-- A word that is rejected faults with cause code 1 (30_encoding.md R90, 60_exceptions.md R300). -/
theorem issueWord_of_decode_error {w : Word32} {e : DecodeReject} (h : decode w = .error e) (s : State) :
    issueWord w s = .next (faulted 1 w s) := by
  simp only [issueWord, h, raiseFault_eq_faulted, causeCode]

end Sys2Proof.Machine

open Sys2Proof Sys2Proof.Machine

/-- Settles O55: the opcode map at a command's own fields answers the command, and the byte decoder reads what the
word decoder reads. -/
theorem decodeOfEncodeIsTheCommand : Obligations.DecodeOfEncodeIsTheCommand := by
  unfold Obligations.DecodeOfEncodeIsTheCommand
  intro i hwf
  have hdecode := decode_encode hwf
  exact ⟨hdecode, by rw [decodeTableWord_eq, hdecode]⟩

/-- Settles O11: the words of R90 are the words of well-formed commands, and a rejected word faults. -/
theorem illegalWordsFaultIllegalCmd : Obligations.IllegalWordsFaultIllegalCmd := by
  unfold Obligations.IllegalWordsFaultIllegalCmd
  refine ⟨exists_decode_iff_legalWord, fun s w hillegal => ?_⟩
  cases hdecode : decode w with
  | ok i => exact absurd ((exists_decode_iff_legalWord w).1 ⟨i, hdecode⟩) hillegal
  | error e => exact issueWord_of_decode_error hdecode s

/-- Settles O56: each row of the opcode map gives a command with the fields of the word. -/
theorem encodeOfDecodeIsTheWord : Obligations.EncodeOfDecodeIsTheWord := by
  unfold Obligations.EncodeOfDecodeIsTheWord
  exact fun _ _ => encode_of_decode

/-- Settles O57: the words are evaluated; the bytes of a register value make it again for every value. -/
theorem theseWordsDecodeToTheirCommands : Obligations.TheseWordsDecodeToTheirCommands := by
  unfold Obligations.TheseWordsDecodeToTheirCommands
  exact ⟨by decide, by decide, by decide, registerOfBytes_bytesOfRegister, by decide⟩
end

section
/-! SUPPORT. The numbered registers as `RDREG` and `WRREG` see them (10_state.md R25 to R36, 40_control.md R102,
R103): the register map is `readReg` at the numbers of `regOfNumber`, an accepted write is read back and leaves every
other number, and each access class answers in one way. -/

namespace Sys2Proof.Machine

/-! ### The register map -/

/-- The assigned registers in the order of `registerMap`. -/
def assignedRegs : List Reg :=
  [.status, .fcause, .fcmd, .sr, .oscT, .oscDt, .oscA, .oscPw, .oscWave,
   .envState, .envEnv, .envScale, .envA, .envD, .envR, .envS,
   .nzSeed, .nzB0, .nzB1, .nzB2, .nzLp, .nzRc, .nzBluePrev, .nzVioletPrev,
   .nzLsZ1, .nzLsZ2, .nzPkZ1, .nzPkZ2, .nzDensity,
   .vtCount, .vtCapacity, .eqHead, .eqTail, .eqCounter, .eqCapacity,
   .synMode, .synVol, .synNoise, .synPitch, .synOutL, .synOutR]

theorem registerMap_eq_map (s : State) :
    registerMap s = assignedRegs.map fun r => (regNumber r, readReg r s) := rfl

theorem registerValue_regNumber (r : Reg) (s : State) : registerValue s (regNumber r) = some (readReg r s) := by
  cases r <;> rfl

/-- A number reads as the register it names, and as nothing when it names none (40_control.md R102). -/
theorem registerValue_eq (s : State) (n : Nat) :
    registerValue s n = (regOfNumber n).map fun r => readReg r s := by
  cases hnum : regOfNumber n with
  | some r =>
    rw [← regNumber_of_regOfNumber hnum]
    exact registerValue_regNumber r s
  | none =>
    refine List.lookup_eq_none_iff.2 fun row hrow => ?_
    rw [registerMap_eq_map] at hrow
    obtain ⟨r, -, rfl⟩ := List.mem_map.1 hrow
    rw [bne_iff_ne]
    rintro rfl
    rw [regOfNumber_regNumber] at hnum
    cases hnum

theorem registerValue_eq_none_iff {s : State} {n : Nat} : registerValue s n = none ↔ regOfNumber n = none := by
  rw [registerValue_eq, Option.map_eq_none_iff]

@[simp] theorem registerValue_retNone (s : State) (n : Nat) : registerValue (retNone s) n = registerValue s n := rfl

/-! ### The access classes by number -/

theorem access_of_mem_rwNumbers : ∀ n ∈ rwNumbers, (regOfNumber n).map accessOf = some .rw := by decide

theorem access_of_mem_roNumbers : ∀ n ∈ roNumbers, (regOfNumber n).map accessOf = some .ro := by decide

theorem access_of_mem_rwlNumbers :
    ∀ n ∈ [0x0014, 0x0020, 0x0030, 0x0060, 0x0062], (regOfNumber n).map accessOf = some .rwl := by decide

/-! ### Codes -/

theorem waveCode_of_waveOfCode {n : Nat} {w : Wave} (h : waveOfCode n = some w) : waveCode w = n := by
  unfold waveOfCode at h
  split at h <;> cases h <;> rfl

theorem envStateCode_of_envStateOfCode {n : Nat} {e : EnvState} (h : envStateOfCode n = some e) :
    envStateCode e = n := by
  unfold envStateOfCode at h
  split at h <;> cases h <;> rfl

theorem modeCode_of_modeOfCode {n : Nat} {m : VoiceMode} (h : modeOfCode n = some m) : modeCode m = n := by
  unfold modeOfCode at h
  split at h <;> cases h <;> rfl

theorem noiseCode_of_noiseOfCode {n : Nat} {c : Option Colour} (h : noiseOfCode n = some c) : noiseCode c = n := by
  unfold noiseOfCode at h
  split at h <;> cases h <;> rfl

/-- The numbers that are codes, from a property of every code that no other number has. -/
theorem isSome_ofCode_iff {α : Type} {codeOf : α → Nat} {ofCode : Nat → Option α} {P : Nat → Prop}
    (hcode : ∀ {n a}, ofCode n = some a → codeOf a = n) (hP : ∀ a, P (codeOf a))
    (hsome : ∀ n, P n → (ofCode n).isSome = true) (n : Nat) : (ofCode n).isSome = true ↔ P n := by
  refine ⟨fun h => ?_, hsome n⟩
  obtain ⟨a, ha⟩ := Option.isSome_iff_exists.1 h
  exact hcode ha ▸ hP a

theorem isSome_waveOfCode_iff (n : Nat) : (waveOfCode n).isSome = true ↔ n ≤ 13 :=
  isSome_ofCode_iff (P := (· ≤ 13)) waveCode_of_waveOfCode (fun w => by cases w <;> decide) (by decide) n

theorem isSome_envStateOfCode_iff (n : Nat) :
    (envStateOfCode n).isSome = true ↔ n = 0 ∨ n = 1 ∨ n = 2 ∨ n = 4 ∨ n = 8 :=
  isSome_ofCode_iff (P := fun n => n = 0 ∨ n = 1 ∨ n = 2 ∨ n = 4 ∨ n = 8) envStateCode_of_envStateOfCode
    (fun e => by cases e <;> decide) (by rintro n (rfl | rfl | rfl | rfl | rfl) <;> rfl) n

theorem isSome_modeOfCode_iff (n : Nat) : (modeOfCode n).isSome = true ↔ n ≤ 2 :=
  isSome_ofCode_iff (P := (· ≤ 2)) modeCode_of_modeOfCode (fun m => by cases m <;> decide) (by decide) n

theorem isSome_noiseOfCode_iff (n : Nat) : (noiseOfCode n).isSome = true ↔ n ≤ 7 :=
  isSome_ofCode_iff (P := (· ≤ 7)) noiseCode_of_noiseOfCode
    (fun c => by rcases c with - | ⟨⟨⟩⟩ <;> decide) (by decide) n

/-- A code register shows the value it was written with, when that is a code. -/
theorem ofNat_code_getD {α : Type} {codeOf : α → Nat} {ofCode : Nat → Option α} {v : Word64}
    (hcode : ∀ {a}, ofCode v.toNat = some a → codeOf a = v.toNat) (h : (ofCode v.toNat).isSome = true) (old : α) :
    BitVec.ofNat 64 (codeOf ((ofCode v.toNat).getD old)) = v := by
  obtain ⟨a, ha⟩ := Option.isSome_iff_exists.1 h
  rw [ha, Option.getD_some, hcode ha, BitVec.ofNat_toNat, BitVec.setWidth_eq]

/-- A negative `i64` has a pattern past every code. -/
theorem toInt_cases (v : Word64) :
    (v.toInt = v.toNat ∧ v.toNat < 2 ^ 63) ∨ (v.toInt < 0 ∧ 2 ^ 63 ≤ v.toNat) := by
  have hlt := v.isLt
  rw [BitVec.toInt_eq_toNat_cond]
  split <;> omega

/-- The legal sets are those of 10_state.md R28 to R36, read as integers. -/
theorem legalFor_iff_rwlLegal {r : Reg} (h : accessOf r = .rwl) (v : Word64) :
    legalFor r v = true ↔ rwlLegal (regNumber r) v.toInt := by
  have hsign := toInt_cases v
  cases r with
  | oscWave | envState | nzSeed | synMode | synNoise =>
    simp only [legalFor, rwlLegal, regNumber, isSome_waveOfCode_iff, isSome_envStateOfCode_iff,
      isSome_modeOfCode_iff, isSome_noiseOfCode_iff, Bool.and_eq_true, decide_eq_true_eq, Nat.reduceEqDiff, true_and,
      false_and, or_false, false_or, or_self]
    omega
  | _ => cases h

/-! ### What a write leaves -/

@[simp] theorem writeReg_input (r : Reg) (v : Word64) (s : State) : (writeReg r v s).input = s.input := by
  cases r <;> rfl

@[simp] theorem writeReg_free (r : Reg) (v : Word64) (s : State) : (writeReg r v s).free = s.free := by
  cases r <;> rfl

/-- An `RW` register reads as it was written (10_state.md R25). -/
theorem readReg_writeReg_of_rw {r : Reg} (h : accessOf r = .rw) (v : Word64) (s : State) :
    readReg r (writeReg r v s) = v := by
  cases r with
  | status | oscWave | envState | nzSeed | vtCount | vtCapacity | eqHead | eqTail | eqCounter | eqCapacity
  | synMode | synNoise | synOutL | synOutR => cases h
  | _ => rfl

/-- An `RWL` register reads as it was written, when the value is in its legal set (10_state.md R25). -/
theorem readReg_writeReg_of_rwl {r : Reg} (h : accessOf r = .rwl) {v : Word64} (hlegal : legalFor r v = true)
    (s : State) : readReg r (writeReg r v s) = v := by
  cases r with
  | oscWave => exact ofNat_code_getD waveCode_of_waveOfCode hlegal _
  | envState => exact ofNat_code_getD envStateCode_of_envStateOfCode hlegal _
  | nzSeed => rfl
  | synMode => exact ofNat_code_getD modeCode_of_modeOfCode hlegal _
  | synNoise => exact ofNat_code_getD noiseCode_of_noiseOfCode hlegal _
  | _ => cases h

/-- A write of `STATUS` clears the bits that are 1 in the value; bits 63:5 are 0 (10_state.md R27). -/
theorem readReg_writeReg_status (v : Word64) (s : State) :
    readReg .status (writeReg .status v s) = s.sys.status.zeroExtend 64 &&& ~~~v := by
  change (s.sys.status &&& ~~~(v.truncate 5)).zeroExtend 64 = _
  ext i hi
  by_cases h5 : i < 5
  · simp [h5, BitVec.getLsbD_eq_getElem hi]
  · simp [BitVec.getLsbD_of_ge _ _ (not_lt.1 h5)]

/-! ### `RESET`, `RDREG` and `WRREG`, one lemma per answer -/

/-- What `RESET` leaves has the values of 70_reset_and_hazards.md R330. -/
theorem isResetState_resetState (s : State) :
    IsResetState s.table.capacity s.queue.capacity (retNone (resetState s)) :=
  ⟨rfl, rfl, rfl, rfl, rfl, rfl, rfl, rfl, rfl, rfl, rfl, rfl⟩

/-- The word of `RDREG` (40_control.md R102). -/
theorem encode_rdreg (imm : BitVec 16) : encode (.rdreg imm) = 0x0200#16 ++ imm := by
  apply BitVec.eq_of_toNat_eq
  rw [encode, toNat_packWord, toNat_append_add]
  simp [Instr.opc, Instr.sel, Instr.imm]

theorem exec_rdreg_assigned {imm : BitVec 16} {r : Reg} (hnum : regOfNumber imm.toNat = some r) (s : State) :
    exec (.rdreg imm) s = .next (retValue (readReg r s) s) := by
  simp only [exec, execRdreg, hnum]

theorem exec_rdreg_unassigned {imm : BitVec 16} (hnum : regOfNumber imm.toNat = none) (s : State) :
    exec (.rdreg imm) s = .next (faulted 4 (encode (.rdreg imm)) s) := by
  simp only [exec, execRdreg, hnum, raiseFault_eq_faulted, causeCode]

theorem exec_wrreg_unassigned {imm : BitVec 16} (hnum : regOfNumber imm.toNat = none) (s : State) :
    exec (.wrreg imm) s = .next (faulted 4 (encode (.wrreg imm)) s) := by
  simp only [exec, execWrreg, hnum, raiseFault_eq_faulted, causeCode]

section
variable {imm : BitVec 16} {r : Reg} {s : State}

theorem exec_wrreg_readOnly (hnum : regOfNumber imm.toNat = some r) (hro : accessOf r = .ro) :
    exec (.wrreg imm) s = .next (faulted 4 (encode (.wrreg imm)) s) := by
  simp only [exec, execWrreg, hnum, hro, if_true, raiseFault_eq_faulted, causeCode]

theorem exec_wrreg_badValue (hnum : regOfNumber imm.toNat = some r) (hrwl : accessOf r = .rwl)
    (hlegal : legalFor r s.host.arg0 = false) :
    exec (.wrreg imm) s = .next (faulted 5 (encode (.wrreg imm)) s) := by
  simp [exec, execWrreg, hnum, hrwl, hlegal, raiseFault_eq_faulted, causeCode]

theorem exec_wrreg_accepted (hnum : regOfNumber imm.toNat = some r) (hro : accessOf r ≠ .ro)
    (hlegal : accessOf r = .rwl → legalFor r s.host.arg0 = true) :
    exec (.wrreg imm) s = .next (retNone (writeReg r s.host.arg0 s)) := by
  simp only [exec, execWrreg, hnum, if_neg hro]
  rw [if_neg (by simpa using hlegal)]

/-- What 40_control.md R103 says of an accepted `WRREG`: the register reads `v`, every other number reads as before,
`RTAG` is NONE, and the operands, results, rows, entries and the model's own fields are unchanged. -/
def Stores (s : State) (n : Nat) (v : Word64) (t : State) : Prop :=
  registerValue t n = some v ∧
    (∀ m, m ≠ n → registerValue t m = registerValue s m) ∧
    t.host = { s.host with rtag := .none } ∧
    t.table = s.table ∧ t.queue = s.queue ∧ t.input = s.input ∧ t.free = s.free

/-- A write of the register at a number changes what that number reads and no other (10_state.md R25). -/
theorem stores_writeReg {n : Nat} (hnum : regOfNumber n = some r) (v : Word64) (s : State) :
    Stores s n (readReg r (writeReg r v s)) (retNone (writeReg r v s)) := by
  refine ⟨?_, fun m hm => ?_, ?_, ?_⟩
  · rw [registerValue_retNone, registerValue_eq, hnum, Option.map_some]
  · rw [registerValue_retNone, registerValue_eq, registerValue_eq]
    cases hother : regOfNumber m with
    | none => rfl
    | some r' =>
      have hne : r' ≠ r := by
        rintro rfl
        exact hm ((regNumber_of_regOfNumber hother).symm.trans (regNumber_of_regOfNumber hnum))
      rw [Option.map_some, Option.map_some, readReg_writeReg_ne hne]
  · rw [retNone_host, writeReg_host]
  · simp

theorem exec_wrreg_stores (hnum : regOfNumber imm.toNat = some r) (hro : accessOf r ≠ .ro)
    (hlegal : accessOf r = .rwl → legalFor r s.host.arg0 = true) :
    ∃ t, exec (.wrreg imm) s = .next t ∧ Stores s imm.toNat (readReg r (writeReg r s.host.arg0 s)) t :=
  ⟨_, exec_wrreg_accepted hnum hro hlegal, stores_writeReg hnum _ s⟩

end

end Sys2Proof.Machine

open Sys2Proof Sys2Proof.Machine

/-- Settles O3: the number names a register of the map, or none. -/
theorem rdregReadsTheNumberedRegister : Obligations.RdregReadsTheNumberedRegister := by
  unfold Obligations.RdregReadsTheNumberedRegister
  intro s imm
  refine ⟨encode_rdreg imm ▸ decode_encode rfl, fun v hv => ?_, fun hnone => ?_⟩
  · rw [registerValue_eq] at hv
    obtain ⟨r, hnum, rfl⟩ := Option.map_eq_some_iff.1 hv
    exact exec_rdreg_assigned hnum s
  · exact exec_rdreg_unassigned (registerValue_eq_none_iff.1 hnone) s

/-- Settles O4: an `RW` number is accepted with any value and reads it back. -/
theorem wrregStoresAnyValueInAnRwRegister : Obligations.WrregStoresAnyValueInAnRwRegister := by
  unfold Obligations.WrregStoresAnyValueInAnRwRegister
  intro s imm hmem
  obtain ⟨r, hnum, hrw⟩ := Option.map_eq_some_iff.1 (access_of_mem_rwNumbers _ hmem)
  have hstores := exec_wrreg_stores (s := s) hnum (by simp [hrw]) (by simp [hrw])
  rwa [readReg_writeReg_of_rw hrw] at hstores

/-- Settles O5: the legal set of the register decides between the store and the fault. -/
theorem wrregChecksTheLegalSet : Obligations.WrregChecksTheLegalSet := by
  unfold Obligations.WrregChecksTheLegalSet
  intro s imm hmem
  obtain ⟨r, hnum, hrwl⟩ := Option.map_eq_some_iff.1 (access_of_mem_rwlNumbers _ hmem)
  rw [← regNumber_of_regOfNumber hnum, ← legalFor_iff_rwlLegal hrwl, regNumber_of_regOfNumber hnum]
  refine ⟨fun hlegal => ?_, fun hillegal => exec_wrreg_badValue hnum hrwl (by simpa using hillegal)⟩
  have hstores := exec_wrreg_stores hnum (by simp [hrwl]) fun _ => hlegal
  rwa [readReg_writeReg_of_rwl hrwl hlegal] at hstores

/-- Settles O6: both kinds of number fail before the operand is looked at. -/
theorem wrregRefusesReadOnlyAndUnassignedNumbers : Obligations.WrregRefusesReadOnlyAndUnassignedNumbers := by
  unfold Obligations.WrregRefusesReadOnlyAndUnassignedNumbers
  rintro s imm (hmem | hnone)
  · obtain ⟨r, hnum, hro⟩ := Option.map_eq_some_iff.1 (access_of_mem_roNumbers _ hmem)
    exact exec_wrreg_readOnly hnum hro
  · exact exec_wrreg_unassigned (registerValue_eq_none_iff.1 hnone) s

/-- Settles O7: `STATUS` is accepted with any value, and the write clears its bits. -/
theorem wrregStatusClearsTheWrittenOnes : Obligations.WrregStatusClearsTheWrittenOnes := by
  unfold Obligations.WrregStatusClearsTheWrittenOnes
  intro s
  rw [← readReg_writeReg_status]
  exact exec_wrreg_stores (imm := 0x0000#16) (r := .status) rfl (by decide) (fun h => absurd h (by decide))

/-- Settles O1: `NOP` is `retNone`. -/
theorem nopChangesOnlyTheTag : Obligations.NopChangesOnlyTheTag := by
  unfold Obligations.NopChangesOnlyTheTag
  exact ⟨rfl, fun _ => rfl⟩

/-- Settles O2: power-on is what `RESET` leaves of it, so both are one case. -/
theorem powerOnAndResetGiveTheResetState : Obligations.PowerOnAndResetGiveTheResetState := by
  unfold Obligations.PowerOnAndResetGiveTheResetState
  exact ⟨decode_encode (i := .reset) rfl, isResetState_resetState State.reset,
    fun s => ⟨_, rfl, isResetState_resetState s⟩⟩
end

section
/-! SUPPORT. Comparisons chained, and the operations that are exact in [0, 1) (41_oscillator.md R120): taking away
+0 gives the value itself, so the wrap of a phase does. -/

namespace Sys2Proof.Machine

/-! ### Comparisons -/

theorem flt_eq_false_of_fle {x y : F64} (h : fle x y = true) : flt y x = false := by
  obtain ⟨-, -, hle⟩ := (fle_iff x y).1 h
  exact Bool.eq_false_iff.2 fun hlt => ((flt_iff y x).1 hlt).2.2.not_ge hle

theorem fle_eq_false_of_flt {x y : F64} (h : flt x y = true) : fle y x = false :=
  Bool.eq_false_iff.2 fun hle => Bool.eq_false_iff.1 (flt_eq_false_of_fle hle) h

theorem flt_of_flt_of_fle {x y z : F64} (hxy : flt x y = true) (hyz : fle y z = true) : flt x z = true := by
  obtain ⟨hx, -, hlt⟩ := (flt_iff x y).1 hxy
  obtain ⟨-, hz, hle⟩ := (fle_iff y z).1 hyz
  exact (flt_iff x z).2 ⟨hx, hz, hlt.trans_le hle⟩

theorem fle_of_flt {x y : F64} (h : flt x y = true) : fle x y = true := by
  obtain ⟨hx, hy, hlt⟩ := (flt_iff x y).1 h
  exact (fle_iff x y).2 ⟨hx, hy, hlt.le⟩

theorem feq_self {x : F64} (h : isNaN x = false) : feq x x = true := (feq_iff x x).2 ⟨h, h, rfl⟩

theorem inUnit_iff (x : F64) : inUnit x = true ↔ fle fZero x = true ∧ flt x fOne = true := by
  rw [inUnit, Bool.and_eq_true]

/-! ### Exact results -/

theorem isFinite_of_not_isInf {x : F64} (hnan : isNaN x = false) (hinf : isInf x = false) : isFinite x = true := by
  simp only [isFinite, isNaN, isInf, decide_eq_true_eq, decide_eq_false_iff_not] at *
  omega

theorem natAbs_signedUnits (x : F64) : (signedUnits x).natAbs = units x := by
  unfold signedUnits
  split <;> simp

/-- The units of a value round to its own magnitude. -/
theorem roundUnits_units {x : F64} (h : isFinite x = true) : roundUnits (units x) 1 = magBits x :=
  le_antisymm (roundUnits_le_magBits one_pos (Nat.mul_one _).ge)
    (magBits_le_roundUnits ((isFinite_iff x).1 h).le one_pos (Nat.mul_one _).le)

/-- The sign of a finite sum with -0 is the value's own. -/
theorem sign_add_negZero {x : F64} : (if signedUnits x = 0 then signBit x && true
    else decide (signedUnits x < 0)) = signBit x := by
  unfold signedUnits
  cases signBit x
  · simp
  · simpa using Nat.eq_zero_or_pos (units x)

/-- Taking away +0 is adding -0, which no sum shows, not even that of two zeros. -/
theorem fsub_fZero {x : F64} (h : isNaN x = false) : fsub x fZero = x := by
  cases hinf : isInf x with
  | false =>
    have hfin := isFinite_of_not_isInf h hinf
    have hzero : signedUnits (fneg fZero) = 0 := by decide
    rw [fsub, fadd_of_isFinite hfin (by decide), hzero, add_zero, natAbs_signedUnits, roundUnits_units hfin,
      show signBit (fneg fZero) = true by decide, sign_add_negZero, packF_signBit_magBits]
  | true =>
    have hnan : isNaN (fneg fZero) = false ∧ isInf (fneg fZero) = false := by decide
    simp [fsub, fadd, h, hinf, hnan]

/-- A difference of finite values is a number, if perhaps an infinity. -/
theorem isNaN_fsub_of_isFinite {x y : F64} (hx : isFinite x = true) (hy : isFinite y = true) :
    isNaN (fsub x y) = false := by
  rw [fsub, fadd_of_isFinite hx ((isFinite_fneg y).trans hy)]
  exact isNaN_packF_roundUnits _ _ _

/-- A zero is +0 or -0. -/
theorem eq_fZero_of_magBits_eq_zero {x : F64} (h : magBits x = 0) : x = fZero ∨ x = fneg fZero := by
  rw [← packF_signBit_magBits x, h]
  cases signBit x
  · exact .inl (by decide)
  · exact .inr (by decide)

/-! ### The values in [0, 1) -/

theorem magBits_lt_of_inUnit {x : F64} (h : inUnit x = true) : magBits x < magBits fOne := by
  obtain ⟨hzero, hone⟩ := (inUnit_iff x).1 h
  obtain ⟨-, -, hle⟩ := (fle_iff _ _).1 hzero
  obtain ⟨-, -, hlt⟩ := (flt_iff _ _).1 hone
  rw [show orderOf fZero = 0 by decide] at hle
  rw [show orderOf fOne = (magBits fOne : Int) by decide] at hlt
  have hpos : 0 < magBits fOne := by decide
  cases hsign : signBit x <;> simp only [orderOf, hsign, Bool.false_eq_true, if_false, if_true] at hle hlt <;> omega

theorem isFinite_of_inUnit {x : F64} (h : inUnit x = true) : isFinite x = true :=
  (isFinite_iff x).2 ((magBits_lt_of_inUnit h).trans (by decide))

/-- Of the values in [0, 1) only -0 has a minus sign. -/
theorem eq_negZero_of_inUnit {x : F64} (h : inUnit x = true) (hsign : signBit x = true) : x = fneg fZero := by
  obtain ⟨-, -, hle⟩ := (fle_iff _ _).1 ((inUnit_iff x).1 h).1
  rw [show orderOf fZero = 0 by decide, orderOf, if_pos hsign] at hle
  refine (eq_fZero_of_magBits_eq_zero (by omega)).resolve_left ?_
  rintro rfl
  exact absurd hsign (by decide)

theorem units_lt_oneUnits_of_inUnit {x : F64} (h : inUnit x = true) : units x < oneUnits := by
  by_contra! hge
  have hmag := magBits_le_roundUnits (z := fOne) (n := units x) (by decide) one_pos (by rwa [units_fOne, Nat.mul_one])
  rw [roundUnits_units (isFinite_of_inUnit h)] at hmag
  exact hmag.not_gt (magBits_lt_of_inUnit h)

theorem ffloor_of_inUnit {x : F64} (h : inUnit x = true) (hsign : signBit x = false) : ffloor x = fZero := by
  obtain ⟨hnan, hinf⟩ := isNaN_isInf_of_isFinite (isFinite_of_inUnit h)
  unfold ffloor
  simp only [hnan, hinf, hsign, Bool.false_or, Bool.false_eq_true, if_false]
  split_ifs with hzero
  · refine (eq_fZero_of_magBits_eq_zero (of_decide_eq_true hzero)).resolve_right ?_
    rintro rfl
    exact absurd hsign (by decide)
  · rw [Nat.div_eq_of_lt (units_lt_oneUnits_of_inUnit h), Nat.zero_mul]
    decide

/-- A value in [0, 1) is its own wrap (41_oscillator.md R120), but the wrap of -0 is +0. -/
theorem wrap_of_inUnit {x : F64} (h : inUnit x = true) (hsign : signBit x = false) : wrap x = x := by
  have hone := fle_eq_false_of_flt ((inUnit_iff x).1 h).2
  rw [wrap, ffloor_of_inUnit h hsign, fsub_fZero (isNaN_isInf_of_isFinite (isFinite_of_inUnit h)).1]
  exact if_neg (by simp [fge, hone])

theorem wrap_negZero : wrap (fneg fZero) = fZero := by decide +kernel

theorem feq_wrap_of_inUnit {x : F64} (h : inUnit x = true) : feq (wrap x) x = true := by
  cases hsign : signBit x with
  | false =>
    rw [wrap_of_inUnit h hsign]
    exact feq_self (isNaN_isInf_of_isFinite (isFinite_of_inUnit h)).1
  | true =>
    rw [eq_negZero_of_inUnit h hsign, wrap_negZero]
    decide

end Sys2Proof.Machine

open Sys2Proof Sys2Proof.Machine

/-- Settles O19: a finite value less its floor is in [0, 1), and the floor there is a zero. -/
theorem wrapLandsInTheUnitInterval : Obligations.WrapLandsInTheUnitInterval := by
  unfold Obligations.WrapLandsInTheUnitInterval
  exact fun x => ⟨inUnit_wrap, feq_wrap_of_inUnit, isNaN_wrap⟩
end

section
/-! SUPPORT. The shared functions of the oscillator case by case: the gain (41_oscillator.md R123), the residuals
(R125, R126) and the clamp (R127). -/

namespace Sys2Proof.Machine

/-! ### The gain -/

section
variable {d : F64} {fam : Family}

theorem gain_of_fle_lo (h : fle d (gainLo fam) = true) : gain d fam = fOne := by
  rw [gain, if_pos h]

theorem gain_between (hlo : flt (gainLo fam) d = true) (hhi : flt d (gainHi fam) = true) :
    gain d fam = fdiv (fsub (gainHi fam) d) (fsub (gainHi fam) (gainLo fam)) := by
  rw [gain, fle_eq_false_of_flt hlo, if_neg Bool.false_ne_true, if_pos hhi]

theorem gain_of_hi_fle (h : fle (gainHi fam) d = true) : gain d fam = fZero := by
  have hspan : flt (gainLo fam) (gainHi fam) = true := by cases fam <;> decide
  have hlo := fle_eq_false_of_flt (flt_of_flt_of_fle hspan h)
  simp only [gain, hlo, flt_eq_false_of_fle h, Bool.false_eq_true, if_false]

theorem gain_of_isNaN (h : isNaN d = true) : gain d fam = fZero := by
  obtain ⟨hle, -, -⟩ := compare_nan_left h (gainLo fam)
  obtain ⟨-, hlt, -⟩ := compare_nan_left h (gainHi fam)
  simp only [gain, hle, hlt, Bool.false_eq_true, if_false]

/-- The fade starts at exactly 1. -/
theorem fdiv_gain_span_self (fam : Family) :
    fdiv (fsub (gainHi fam) (gainLo fam)) (fsub (gainHi fam) (gainLo fam)) = fOne := by
  cases fam <;> decide +kernel

end

/-! ### The residuals -/

section
variable {tau d : F64}

theorem residuals_after_jump (h : flt tau d = true) :
    polyblep tau d = fsub (fadd (fneg (fmul (fdiv tau d) (fdiv tau d))) (fmul fTwo (fdiv tau d))) fOne ∧
      ∀ x, x = fsub (fdiv tau d) fOne → blamp tau d = fdiv (fneg (fmul (fmul x x) x)) fThree := by
  refine ⟨if_pos h, ?_⟩
  rintro _ rfl
  exact if_pos h

theorem residuals_before_jump (hafter : flt tau d = false) (h : fgt tau (fsub fOne d) = true) :
    (∀ x, x = fdiv (fsub tau fOne) d → polyblep tau d = fadd (fadd (fmul x x) (fmul fTwo x)) fOne) ∧
      ∀ x, x = fadd (fdiv (fsub tau fOne) d) fOne → blamp tau d = fdiv (fmul (fmul x x) x) fThree := by
  constructor
  · rintro _ rfl
    simp only [polyblep, hafter, h, Bool.false_eq_true, if_false, if_true]
  · rintro _ rfl
    simp only [blamp, hafter, h, Bool.false_eq_true, if_false, if_true]

theorem residuals_away_from_jump (hafter : flt tau d = false) (hbefore : fgt tau (fsub fOne d) = false) :
    polyblep tau d = fZero ∧ blamp tau d = fZero := by
  simp only [polyblep, blamp, hafter, hbefore, Bool.false_eq_true, if_false, and_self]

/-- Without an increment there is no phase near the jump (41_oscillator.md R121). -/
theorem residuals_without_increment (h : inUnit tau = true) :
    polyblep tau fZero = fZero ∧ blamp tau fZero = fZero := by
  obtain ⟨hzero, hone⟩ := (inUnit_iff tau).1 h
  refine residuals_away_from_jump (flt_eq_false_of_fle hzero) ?_
  rw [fsub_fZero (by decide)]
  exact flt_eq_false_of_fle (fle_of_flt hone)

/-- +0 over a positive value, an infinity included. -/
theorem fdiv_fZero_left (h : flt fZero d = true) : fdiv fZero d = fZero := by
  obtain ⟨hnan, hsign, hmag⟩ := (flt_fZero_left_iff d).1 h
  have hzero : isZero d = false := decide_eq_false hmag.ne'
  cases hinf : isInf d with
  | true =>
    have hzeroNaN : isNaN fZero = false ∧ isInf fZero = false ∧ signBit fZero = false := by decide
    simp only [fdiv, hzeroNaN, hnan, hsign, hinf, Bool.or_self, Bool.false_eq_true, if_false, if_true]
    decide
  | false =>
    rw [fdiv_of_isFinite (by decide) (isFinite_of_not_isInf hnan hinf) hzero, hsign,
      show units fZero = 0 by decide, Nat.zero_mul]
    have hround : roundUnits 0 (units d) = 0 :=
      Nat.le_zero.1 (roundUnits_le_magBits (z := fZero) (units_pos hzero) (Nat.zero_le _))
    rw [hround]
    decide

theorem residuals_at_jump (h : flt fZero d = true) :
    polyblep fZero d = fMinusOne ∧ blamp fZero d = 0x3FD5555555555555#64 := by
  obtain ⟨hblep, hblamp⟩ := residuals_after_jump h
  rw [hblep, hblamp _ rfl, fdiv_fZero_left h]
  decide +kernel

end

/-! ### The clamp -/

section
variable {x lo hi : F64}

theorem clamp_below (h : flt x lo = true ∨ isNaN x = true) : clamp x lo hi = lo := by
  have hge : fge x lo = false := h.elim fle_eq_false_of_flt fun hnan => (compare_nan_right hnan lo).1
  rw [clamp, hge, if_neg Bool.false_ne_true]

theorem clamp_inside (hlo : fle lo x = true) (hhi : fle x hi = true) : clamp x lo hi = x := by
  rw [clamp, fge, if_pos hlo, if_pos hhi]

theorem clamp_above (hlo : fle lo x = true) (hhi : flt hi x = true) : clamp x lo hi = hi := by
  rw [clamp, fge, if_pos hlo, fle_eq_false_of_flt hhi, if_neg Bool.false_ne_true]

/-- The clamp of any value, a NaN included, lies between the bounds. -/
theorem clamp_mem (h : fle lo hi = true) : fle lo (clamp x lo hi) = true ∧ fle (clamp x lo hi) hi = true := by
  obtain ⟨hlo, hhi, -⟩ := (fle_iff lo hi).1 h
  unfold clamp
  split_ifs with hge hle
  · exact ⟨hge, hle⟩
  · exact ⟨h, (fle_iff hi hi).2 ⟨hhi, hhi, le_rfl⟩⟩
  · exact ⟨(fle_iff lo lo).2 ⟨hlo, hlo, le_rfl⟩, h⟩

end

theorem pulseWidth_bounds : flt pwEps (fsub fOne pwEps) = true := by decide +kernel

end Sys2Proof.Machine

open Sys2Proof Sys2Proof.Machine

/-- Settles O17: each range takes its branch of `gain`. -/
theorem gainFollowsItsThresholds : Obligations.GainFollowsItsThresholds := by
  unfold Obligations.GainFollowsItsThresholds
  refine ⟨fun c => by cases c <;> decide, fun c => by cases c <;> decide, ?_⟩
  intro d fam lo hi hfamily
  obtain ⟨rfl, rfl⟩ : lo = gainLo fam ∧ hi = gainHi fam := by
    rcases hfamily with ⟨rfl, hlo, hhi⟩ | ⟨rfl, hlo, hhi⟩ <;> exact ⟨hlo, hhi⟩
  exact ⟨gain_of_fle_lo, gain_between, gain_of_hi_fle, gain_of_isNaN, fdiv_gain_span_self fam⟩

/-- Settles O16: the branches are disjoint; no phase is in the first two without an increment, and +0 is in the
first one with any. -/
theorem residualsAtTheirLandmarks : Obligations.ResidualsAtTheirLandmarks := by
  unfold Obligations.ResidualsAtTheirLandmarks
  exact ⟨fun _ _ => ⟨residuals_after_jump, residuals_before_jump, residuals_away_from_jump⟩,
    fun _ => residuals_without_increment, fun _ => residuals_at_jump⟩

/-- Settles O20: the pulse width is a clamp between two bounds in order. -/
theorem pulseWidthIsClamped : Obligations.PulseWidthIsClamped := by
  unfold Obligations.PulseWidthIsClamped
  intro pw
  obtain ⟨hlo, hhi⟩ := clamp_mem (x := pw) (fle_of_flt pulseWidth_bounds)
  refine ⟨clamp_below, clamp_inside, fun habove => ?_, hlo, hhi⟩
  exact clamp_above (fle_of_flt (flt_of_flt_of_fle pulseWidth_bounds (fle_of_flt habove))) habove
end

section
/-! SUPPORT. The oscillator commands (41_oscillator.md R129 to R153): each next state written out. -/

namespace Sys2Proof.Machine

@[simp] theorem waveOfCode_waveCode (c : Wave) : waveOfCode (waveCode c) = some c := by cases c <;> rfl

/-- A waveform command renders its waveform (41_oscillator.md R137). -/
theorem exec_waveCommandOf (c : Wave) (s : State) : exec (waveCommandOf c) s = .next (renderOsc c s) := by
  cases c <;> rfl

/-- `RES0` holds the sample of the phase before the advance (41_oscillator.md R129). -/
theorem sameValue_res0_renderOsc (c : Wave) (s : State) :
    SameValue (waveValue (fun k => numSin s.free (.oscSine k)) c s.osc.t s.osc.dt s.osc.a s.osc.pw)
      (renderOsc c s).host.res0 := sameValue_pin _ _ _

theorem exec_oscSetwave {sel : BitVec 4} {c : Wave} (h : sel.toNat = waveCode c) (s : State) :
    exec (.oscSetwave sel) s = .next (retNone { s with osc := recomputeA { s.osc with wave := c } }) := by
  simp only [exec, execOscSetwave, h, waveOfCode_waveCode]

/-- The waveform functions are the closed forms of 41_oscillator.md R140 to R153. -/
theorem waveValue_eq_closedForm (sin : Nat → F64 → F64) (c : Wave) (t dt a pw : F64) :
    waveValue sin c t dt a pw = closedForm sin c (wrap t) (fabs dt) a (pulseWidth pw) := by
  cases c <;> rfl

theorem waveValue_fneg (sin : Nat → F64 → F64) (c : Wave) (t dt a pw : F64) :
    waveValue sin c t (fneg dt) a pw = waveValue sin c t dt a pw := by
  simp only [waveValue, fabs_fneg]

/-! ### The naive ramp -/

/-- The ramp of a phase in [0, 1) is a number: twice the phase is at most 2. -/
theorem isNaN_ramp {t : F64} (h : inUnit t = true) : isNaN (fsub (fmul fTwo t) fOne) = false := by
  refine isNaN_fsub_of_isFinite ((isFinite_iff _).2 ?_) (by decide)
  have hround : roundUnits (units fTwo * units t) oneUnits ≤ magBits fTwo :=
    roundUnits_le_magBits oneUnits_pos (Nat.mul_le_mul_left _ (units_lt_oneUnits_of_inUnit h).le)
  rw [fmul_of_isFinite (by decide) (isFinite_of_inUnit h), magBits_packF _ (roundUnits_lt _ _)]
  exact hround.trans_lt (by decide)

/-- A step term whose residual is 0 adds -0, which changes no number (41_oscillator.md R128). -/
theorem addStep_fMinusTwo_of_residual_zero {d t p v : F64} (h : polyblep (wrap (fsub t p)) d = fZero)
    (hv : isNaN v = false) : addStep d t p fMinusTwo v = v := by
  have hterm : fmul (fmul fMinusTwo fHalf) fZero = fneg fZero := by decide +kernel
  rw [addStep, h, hterm]
  exact fsub_fZero hv

/-- At least an increment away from the jump the sawtooth has no correction (41_oscillator.md R143). -/
theorem waveValue_saw_away_from_jump (sin : Nat → F64 → F64) {t dt : F64} (a pw : F64) (h : inUnit t = true)
    (hsign : signBit t = false) (hafter : fle (fabs dt) t = true) (hbefore : fle t (fsub fOne (fabs dt)) = true) :
    waveValue sin .saw t dt a pw = fmul a (fsub (fmul fTwo t) fOne) := by
  have hphase : wrap (fsub t fZero) = t := by
    rw [fsub_fZero (isNaN_isInf_of_isFinite (isFinite_of_inUnit h)).1, wrap_of_inUnit h hsign]
  obtain ⟨hresidual, -⟩ := residuals_away_from_jump (flt_eq_false_of_fle hafter) (flt_eq_false_of_fle hbefore)
  simp only [waveValue, waveSaw, wrap_of_inUnit h hsign]
  rw [addStep_fMinusTwo_of_residual_zero (by rw [hphase, hresidual]) (isNaN_ramp h)]

end Sys2Proof.Machine

open Sys2Proof Sys2Proof.Machine

/-- Settles O14: both conditions keep the phase out of the residual's branches, and a positive phase is its own
wrap. -/
theorem sawIsTheNaiveRampAwayFromTheJump : Obligations.SawIsTheNaiveRampAwayFromTheJump := by
  unfold Obligations.SawIsTheNaiveRampAwayFromTheJump
  intro s hpos hone hafter hbefore
  have hunit : inUnit s.osc.t = true := (inUnit_iff _).2 ⟨fle_of_flt hpos, hone⟩
  obtain ⟨-, hsign, -⟩ := (flt_fZero_left_iff _).1 hpos
  have hsample := sameValue_res0_renderOsc .saw s
  rw [waveValue_saw_away_from_jump _ _ _ hunit hsign hafter hbefore] at hsample
  exact ⟨_, exec_waveCommandOf .saw s, hsample⟩

/-- Settles O15: the waveforms and the gain read the increment's magnitude. -/
theorem theSignOfTheIncrementDoesNotChangeTheSample : Obligations.TheSignOfTheIncrementDoesNotChangeTheSample := by
  unfold Obligations.TheSignOfTheIncrementDoesNotChangeTheSample
  refine ⟨waveValue_fneg, fun s => ⟨_, _, rfl, rfl, ?_⟩⟩
  simp only [retNone_osc, recomputeA_a, fabs_fneg]

/-- Settles O12: what a command computes is pinned, what it copies is stored as it is. -/
theorem oscSettingCommandsSetTheirRegisters : Obligations.OscSettingCommandsSetTheirRegisters := by
  unfold Obligations.OscSettingCommandsSetTheirRegisters
  refine ⟨rfl, rfl, rfl, rfl, rfl, fun s => ⟨?sync, ?setfreq, rfl, rfl, ?setwave, ?inc⟩⟩
  case sync => exact ⟨_, sameValue_pin _ _ _, rfl⟩
  case setfreq => exact ⟨_, sameValue_pin _ _ _, rfl⟩
  case setwave => exact fun sel c hsel => exec_oscSetwave hsel s
  case inc => exact ⟨_, sameValue_pin _ _ _, rfl⟩

/-- Settles O13: every waveform command, `OSC.RUN` included, is `renderOsc`. -/
theorem oscRenderProducesThenAdvances : Obligations.OscRenderProducesThenAdvances := by
  unfold Obligations.OscRenderProducesThenAdvances
  refine ⟨rfl, waveValue_eq_closedForm, fun q site x => ⟨_, sameValue_pin q site x, rfl⟩, fun s c => ?_⟩
  refine ⟨_, _, sameValue_res0_renderOsc c s, sameValue_pin s.free (.reg 0x10) _, exec_waveCommandOf c s, ?_⟩
  rintro rfl
  rw [exec_waveCommandOf]
  rfl
end

section
/-! SUPPORT. The envelope commands (42_envelope.md R180 to R192): each next state written out, and what every command
does to the segment. A step tests its exit on the integrated value; which NaN that is decides no test. -/

namespace Sys2Proof.Machine

/-! ### The exit test -/

/-- The distance test reads the same of a value and of what is written of it (93_implementation_defined.md U18). -/
theorem fle_fabs_fsub_pin (q : Nat) (site : Site) (v target bound : F64) :
    fle (fabs (fsub (pin q site v) target)) bound = fle (fabs (fsub v target)) bound := by
  by_cases hv : isNaN v = true
  · have hfalse {x : F64} (hx : isNaN x = true) : fle (fabs (fsub x target)) bound = false :=
      (compare_nan_left (by rw [isNaN_fabs]; exact isNaN_fadd_left hx _) bound).1
    rw [hfalse hv, hfalse (by rwa [isNaN_pin])]
  · rw [pin_of_not_nan (by simpa using hv)]

/-- The magnitude test reads the same of a value and of what is written of it (93_implementation_defined.md U18). -/
theorem fle_fabs_pin (q : Nat) (site : Site) (v bound : F64) :
    fle (fabs (pin q site v)) bound = fle (fabs v) bound := by
  by_cases hv : isNaN v = true
  · rw [(compare_nan_left (by simpa using hv) bound).1, (compare_nan_left (by simpa using hv) bound).1]
  · rw [pin_of_not_nan (by simpa using hv)]

/-! ### A step of the envelope, by segment -/

/-- Idle and Sustain hold the envelope (42_envelope.md R190, R192). -/
theorem envStep_of_holding (q : Nat) {e : Env} (h : e.state = .idle ∨ e.state = .sustain) : envStep q e = e := by
  rcases h with h | h <;> simp only [envStep, h]

/-- The integrated `env` as a step writes it: the value itself, or a free NaN (42_envelope.md R187,
93_implementation_defined.md U18). -/
def integrated (q : Nat) (e : Env) (c target : F64) : F64 := pin q (.reg 0x21) (integrate e.env c target)

theorem sameValue_integrated (q : Nat) (e : Env) (c target : F64) :
    SameValue (integrate e.env c target) (integrated q e c target) := sameValue_pin _ _ _

section
variable {q : Nat} {e : Env}

theorem envStep_of_attack (h : e.state = .attack) :
    envStep q e =
      if fle (fabs (fsub (integrated q e e.a e.scale) e.scale)) (fmul e.scale epsA) then
        { e with env := integrated q e e.a e.scale, state := .decay }
      else { e with env := integrated q e e.a e.scale } := by
  rw [integrated, fle_fabs_fsub_pin]
  simp only [envStep, h]
  split_ifs <;> rfl

theorem envStep_of_decay (h : e.state = .decay) :
    envStep q e =
      if fle (fabs (fsub (integrated q e e.d (fmul e.scale e.s)) (fmul e.scale e.s))) (fmul e.scale epsR) then
        { e with env := fmul e.scale e.s, state := .sustain }
      else { e with env := integrated q e e.d (fmul e.scale e.s) } := by
  rw [integrated, fle_fabs_fsub_pin]
  simp only [envStep, h]

theorem envStep_of_release (h : e.state = .release) :
    envStep q e =
      if fle (fabs (integrated q e e.r fZero)) (fmul e.scale epsR) then
        { e with env := fZero, state := .idle }
      else { e with env := integrated q e e.r fZero } := by
  rw [integrated, fle_fabs_pin]
  simp only [envStep, h]

end

/-- A step stays in its segment or takes the one edge out of it (42_envelope.md R188 to R191). -/
theorem envStep_state_cases (q : Nat) (e : Env) :
    (envStep q e).state = e.state ∨
      (e.state = .attack ∧ (envStep q e).state = .decay) ∨ (e.state = .decay ∧ (envStep q e).state = .sustain) ∨
        (e.state = .release ∧ (envStep q e).state = .idle) := by
  cases h : e.state with
  | idle => exact .inl (by rw [envStep_of_holding q (.inl h), h])
  | sustain => exact .inl (by rw [envStep_of_holding q (.inr h), h])
  | attack =>
    rw [envStep_of_attack h]
    split_ifs
    · exact .inr (.inl ⟨rfl, rfl⟩)
    · exact .inl h
  | decay =>
    rw [envStep_of_decay h]
    split_ifs
    · exact .inr (.inr (.inl ⟨rfl, rfl⟩))
    · exact .inl h
  | release =>
    rw [envStep_of_release h]
    split_ifs
    · exact .inr (.inr (.inr ⟨rfl, rfl⟩))
    · exact .inl h

/-- `ENV.STEP` stores the stepped envelope and answers its `env` and its segment's code (42_envelope.md R187). -/
theorem exec_envStep {s : State} {e : Env} {segment : EnvState} (hstep : envStep s.free s.env = e)
    (hsegment : e.state = segment) :
    exec .envStep s = .next { s with
      env := e
      host := { s.host with
        res0 := e.env, res1 := BitVec.ofNat 64 (envStateCode segment), rtag := .value } } := by
  subst hsegment hstep
  rfl

/-! ### The coefficient and the triggers -/

theorem coef_of_not_pos {sr time : F64} (h : fgt time fZero = false) : coef sr time = fOne := by
  simp only [coef, h, Bool.false_eq_true, if_false]

theorem coef_of_pos {sr time : F64} (h : fgt time fZero = true) :
    coef sr time = fdiv fOne (fadd (fmul (fmul fFifth time) sr) fOne) := by
  simp only [coef, h, if_true]

/-- A zero-time attack completes at once (42_envelope.md R185). -/
theorem triggerAttack_of_one_le {e : Env} (h : fge e.a fOne = true) (velocity : F64) :
    triggerAttack velocity e = { e with scale := velocity, env := velocity, state := .decay } := by
  simp only [triggerAttack, h, if_true]

theorem triggerAttack_of_not_one_le {e : Env} (h : fge e.a fOne = false) (velocity : F64) :
    triggerAttack velocity e = { e with scale := velocity, state := .attack } := by
  simp only [triggerAttack, h, Bool.false_eq_true, if_false]

theorem triggerRelease_of_lt_one {e : Env} (h : flt e.r fOne = true) :
    triggerRelease e = { e with state := .release } := by
  simp only [triggerRelease, h, if_true]

/-- A zero-time release resets at once (42_envelope.md R186). -/
theorem triggerRelease_of_not_lt_one {e : Env} (h : flt e.r fOne = false) :
    triggerRelease e = { e with state := .idle, env := fZero } := by
  simp only [triggerRelease, h, Bool.false_eq_true, if_false]

theorem exec_envAttack {s : State} {e : Env} (h : triggerAttack s.host.arg0 s.env = e) :
    exec .envAttack s = .next (retNone { s with env := e }) := by
  subst h
  rfl

theorem exec_envRelease {s : State} {e : Env} (h : triggerRelease s.env = e) :
    exec .envRelease s = .next (retNone { s with env := e }) := by
  subst h
  rfl

/-! ### All commands -/

/-- The commands with a meaning that writes the envelope registers: `RESET`, `WRREG`, those of 42_envelope.md, and
`SYN.TICK`. -/
def writesEnv : Instr → Bool
  | .reset | .wrreg _ | .envSetatk | .envSetdec | .envSetrel | .envSetsus | .envAttack | .envRelease | .envStep
  | .synTick => true
  | _ => false

/-- Every other command keeps the envelope. -/
theorem env_of_not_writesEnv {i : Instr} {s t : State} (hi : writesEnv i = false) (h : exec i s = .next t) :
    t.env = s.env := by
  cases i with
  | reset | wrreg | envSetatk | envSetdec | envSetrel | envSetsus | envAttack | envRelease | envStep | synTick =>
    cases hi
  | rdreg | oscSetwave | eqPop =>
    cases h
    split <;> rfl
  | vtFind =>
    cases h
    split
    · rfl
    · split_ifs
      · rfl
      · split <;> rfl
      · rfl
  | vtRdf | vtWrf =>
    cases h
    split
    · rfl
    · split_ifs <;> rfl
  | vtGet | vtAppend | vtInsert | vtFirst | vtLast =>
    cases h
    split_ifs <;> rfl
  | vtRemove | vtNext =>
    cases h
    dsimp only
    split_ifs <;> rfl
  | _ =>
    cases h
    rfl

/-- A write of another register leaves the segment (40_control.md R103). -/
theorem writeReg_envState_of_ne {r : Reg} (h : r ≠ .envState) (v : Word64) (s : State) :
    (writeReg r v s).env.state = s.env.state := by
  cases r with
  | envState => exact absurd rfl h
  | _ => rfl

/-- Only `WRREG` of number 0x0020 writes the segment (10_state.md R30). -/
theorem envState_of_wrreg_ne {imm : BitVec 16} {s t : State} (himm : imm ≠ 0x0020#16)
    (h : exec (.wrreg imm) s = .next t) : t.env.state = s.env.state := by
  cases h
  split
  · rfl
  · rename_i r hnum
    have hr : r ≠ .envState := by
      rintro rfl
      exact himm (BitVec.eq_of_toNat_eq (regNumber_of_regOfNumber hnum).symm)
    split_ifs
    · rfl
    · rfl
    · exact writeReg_envState_of_ne hr _ s

end Sys2Proof.Machine

open Sys2Proof Sys2Proof.Machine

/-- Settles O23: the value that is written decides the exit, since a NaN meets no threshold. -/
theorem envStepIntegratesThenTestsItsExit : Obligations.EnvStepIntegratesThenTestsItsExit := by
  unfold Obligations.EnvStepIntegratesThenTestsItsExit
  refine ⟨rfl, fun s => ⟨?hold, ?attack, ?decay, ?release⟩⟩
  case hold =>
    intro hhold
    have hstep : envStep s.free s.env = s.env := envStep_of_holding s.free hhold
    rcases hhold with hidle | hsustain
    · rw [if_pos hidle]
      exact exec_envStep hstep hidle
    · rw [if_neg (by simp [hsustain])]
      exact exec_envStep hstep hsustain
  case attack =>
    intro hattack
    have hstep := envStep_of_attack (q := s.free) hattack
    refine ⟨_, sameValue_integrated s.free s.env _ _, fun hexit => ?_, fun hstay => ?_⟩
    · exact exec_envStep (hstep.trans (if_pos hexit)) rfl
    · exact exec_envStep (hstep.trans (if_neg (Bool.eq_false_iff.1 hstay))) hattack
  case decay =>
    intro hdecay
    have hstep := envStep_of_decay (q := s.free) hdecay
    refine ⟨_, sameValue_integrated s.free s.env _ _, fun hexit => ?_, fun hstay => ?_⟩
    · exact exec_envStep (hstep.trans (if_pos hexit)) rfl
    · exact exec_envStep (hstep.trans (if_neg (Bool.eq_false_iff.1 hstay))) hdecay
  case release =>
    intro hrelease
    have hstep := envStep_of_release (q := s.free) hrelease
    refine ⟨_, sameValue_integrated s.free s.env _ _, fun hexit => ?_, fun hstay => ?_⟩
    · exact exec_envStep (hstep.trans (if_pos hexit)) rfl
    · exact exec_envStep (hstep.trans (if_neg (Bool.eq_false_iff.1 hstay))) hrelease

/-- Settles O24: of the commands that write the envelope, the settings write a coefficient and a step takes an edge. -/
theorem onlyTheseCommandsMoveTheSegment : Obligations.OnlyTheseCommandsMoveTheSegment := by
  unfold Obligations.OnlyTheseCommandsMoveTheSegment
  intro i s t hexec hmove
  cases i with
  | envAttack | envRelease | reset | synTick => simp
  | wrreg imm =>
    by_cases himm : imm = 0x0020#16
    · simp [himm]
    · exact absurd (envState_of_wrreg_ne himm hexec) hmove
  | envStep =>
    cases hexec
    exact .inr ⟨rfl, (envStep_state_cases s.free s.env).resolve_left hmove⟩
  | envSetatk | envSetdec | envSetrel | envSetsus =>
    cases hexec
    exact absurd rfl hmove
  | _ => exact absurd (congrArg Env.state (env_of_not_writesEnv rfl hexec)) hmove

/-- Settles O21: what the conversion computes is pinned, the sustain gain is stored as it is. -/
theorem envSettingCommandsSetTheirCoefficients : Obligations.EnvSettingCommandsSetTheirCoefficients := by
  unfold Obligations.EnvSettingCommandsSetTheirCoefficients
  refine ⟨rfl, rfl, rfl, rfl, fun _ _ => ⟨coef_of_not_pos, coef_of_pos⟩, fun s => ⟨?atk, ?dec, ?rel, rfl⟩⟩
  case atk => exact ⟨_, sameValue_pin _ _ _, rfl⟩
  case dec => exact ⟨_, sameValue_pin _ _ _, rfl⟩
  case rel => exact ⟨_, sameValue_pin _ _ _, rfl⟩

/-- Settles O22: each trigger takes the branch of its comparison, whatever the segment. -/
theorem envTriggersEnterTheirSegments : Obligations.EnvTriggersEnterTheirSegments := by
  unfold Obligations.EnvTriggersEnterTheirSegments
  refine ⟨rfl, rfl, fun s => ⟨fun h => ?_, fun h => ?_, fun h => ?_, fun h => ?_⟩⟩
  · exact exec_envAttack (triggerAttack_of_one_le h _)
  · exact exec_envAttack (triggerAttack_of_not_one_le h _)
  · exact exec_envRelease (triggerRelease_of_lt_one h)
  · exact exec_envRelease (triggerRelease_of_not_lt_one h)
end

section
/-! SUPPORT. The noise commands (43_noise.md R200 to R218): the seed's fold and its Lehmer step, the draw of a colour as
one step of the seed, and the range of the white value. -/

namespace Sys2Proof.Machine

/-! ### The seed -/

/-- The fold as an integer (43_noise.md R201): it is below 2^31, so the register holds it whole. -/
theorem toInt_foldSeed (v : Word64) : (foldSeed v).toInt = (v.toInt - 1) % 2147483646 + 1 :=
  BitVec.toInt_ofInt_eq_self (by decide) (by omega) (by omega)

/-- A value of the seed domain is stored unchanged (43_noise.md R201). -/
theorem foldSeed_of_mem_domain {v : Word64} (hlo : 1 ≤ v.toInt) (hhi : v.toInt ≤ 2147483646) : foldSeed v = v := by
  apply BitVec.eq_of_toInt_eq
  rw [toInt_foldSeed, Int.emod_eq_of_lt (by omega) (by omega), Int.sub_add_cancel]

theorem toNat_lcgNext (seed : Word64) : (lcgNext seed).toNat = seed.toNat * 48271 % 2147483647 := by
  have hlt : seed.toNat * 48271 % 2147483647 < 2147483647 := Nat.mod_lt _ (by decide)
  rw [lcgNext, BitVec.toNat_ofNat]
  exact Nat.mod_eq_of_lt (hlt.trans (by decide))

/-- A stepped seed is below 2^31, so reading it as an integer gives the same number. -/
theorem toInt_lcgNext (seed : Word64) : (lcgNext seed).toInt = (seed.toNat * 48271 % 2147483647 : Nat) := by
  have hlt : seed.toNat * 48271 % 2147483647 < 2147483647 := Nat.mod_lt _ (by decide)
  rw [BitVec.toInt_eq_toNat_of_lt (by rw [toNat_lcgNext]; omega), toNat_lcgNext]

/-- A draw takes the white value of the stepped seed (43_noise.md R204). -/
theorem whiteOf_lcgNext (seed : Word64) : whiteOf (lcgNext seed) = whiteAfter seed := by
  rw [whiteOf, toInt_lcgNext]
  rfl

/-! ### The draw of a colour -/

theorem exec_colourCommandOf (c : Colour) (s : State) : exec (colourCommandOf c) s = .next (drawCommand c s) := by
  cases c <;> rfl

/-- No draw writes a setting of the generator (43_noise.md R203). -/
theorem drawColour_settings (c : Colour) (q : Nat) (sr : F64) (n : Noise) :
    (drawColour c q sr n).2.rc = n.rc ∧ (drawColour c q sr n).2.density = n.density := by
  cases c <;> exact ⟨rfl, rfl⟩

/-! ### The range of white -/

/-- A magnitude of at most 1 is in [-1, 1], with either sign. -/
theorem mem_closedInterval_of_magBits_le {x : F64} (h : magBits x ≤ magBits fOne) :
    fle fMinusOne x = true ∧ fle x fOne = true := by
  have hnan : isNaN x = false := (isNaN_eq_false_iff x).2 (h.trans (by decide))
  have hplus : orderOf fOne = magBits fOne := by decide
  have hminus : orderOf fMinusOne = -magBits fOne := by decide
  obtain ⟨hlo, hhi⟩ : -(magBits fOne : Int) ≤ orderOf x ∧ orderOf x ≤ magBits fOne := by
    unfold orderOf
    split <;> omega
  rw [fle_iff, fle_iff, hplus, hminus]
  exact ⟨⟨by decide, hnan, hlo⟩, hnan, by decide, hhi⟩

/-- The divisor of the white mapping is the greatest dividend. -/
theorem units_whiteSpan : units whiteSpan = 2147483645 * oneUnits := by decide +kernel

theorem units_fTwo : units fTwo = 2 * oneUnits := by decide +kernel

/-- The quotient of the white mapping: between 0 and 1, and without a minus sign. -/
theorem white_quotient_le_fOne {k : Nat} (h : k ≤ 2147483645) :
    signBit (fdiv (fofInt k) whiteSpan) = false ∧ magBits (fdiv (fofInt k) whiteSpan) ≤ magBits fOne := by
  have hdividend : fofInt k = packF false (roundUnits (k * oneUnits) 1) := by
    rw [fofInt, Int.natAbs_natCast, decide_eq_false (by omega)]
  have hround : roundUnits (k * oneUnits) 1 ≤ magBits whiteSpan := by
    refine roundUnits_le_magBits one_pos ?_
    rw [units_whiteSpan, Nat.mul_one]
    exact Nat.mul_le_mul_right _ h
  have hmag : magBits (fofInt k) ≤ magBits whiteSpan := by
    rwa [hdividend, magBits_packF _ (roundUnits_lt _ _)]
  have hspan : magBits whiteSpan < infMag := by decide
  have hsign : signBit (fofInt k) = false := by rw [hdividend, signBit_packF _ (roundUnits_lt _ _)]
  rw [fdiv_of_isFinite ((isFinite_iff _).2 (hmag.trans_lt hspan)) (by decide) (by decide),
    signBit_packF _ (roundUnits_lt _ _), magBits_packF _ (roundUnits_lt _ _)]
  refine ⟨by rw [hsign]; decide, roundUnits_le_magBits (units_pos (by decide)) ?_⟩
  rw [units_fOne, Nat.mul_comm]
  exact Nat.mul_le_mul_left _ (units_le_units hspan.le hmag)

/-- Doubling [0, 1] stays in [0, 2]. -/
theorem fmul_fTwo_le_fTwo {x : F64} (hsign : signBit x = false) (hmag : magBits x ≤ magBits fOne) :
    signBit (fmul x fTwo) = false ∧ magBits (fmul x fTwo) ≤ magBits fTwo := by
  have hfin : isFinite x = true := (isFinite_iff x).2 (hmag.trans_lt (by decide))
  have hunits : units x ≤ oneUnits := units_fOne ▸ units_le_units (by decide) hmag
  rw [fmul_of_isFinite hfin (by decide), signBit_packF _ (roundUnits_lt _ _), magBits_packF _ (roundUnits_lt _ _)]
  refine ⟨by rw [hsign]; decide, roundUnits_le_magBits oneUnits_pos ?_⟩
  rw [Nat.mul_comm]
  exact Nat.mul_le_mul_left _ hunits

/-- One less than a value of [0, 2] has a magnitude of at most 1. -/
theorem magBits_fsub_fOne_le {x : F64} (hsign : signBit x = false) (hmag : magBits x ≤ magBits fTwo) :
    magBits (fsub x fOne) ≤ magBits fOne := by
  have hfin : isFinite x = true := (isFinite_iff x).2 (hmag.trans_lt (by decide))
  have hunits : units x ≤ 2 * oneUnits := units_fTwo ▸ units_le_units (by decide) hmag
  have hx : signedUnits x = units x := signedUnits_of_signBit_eq_false hsign
  have hone : signedUnits (fneg fOne) = -oneUnits := by
    rw [signedUnits_of_signBit_eq_true (by decide), units_fneg, units_fOne]
  rw [fsub, fadd_of_isFinite hfin (by decide), magBits_packF _ (roundUnits_lt _ _)]
  refine roundUnits_le_magBits one_pos ?_
  rw [units_fOne, hx, hone]
  omega

theorem whiteOf_mem_closedInterval {seed : Word64} (h : SeedLegal seed) :
    fle fMinusOne (whiteOf seed) = true ∧ fle (whiteOf seed) fOne = true := by
  obtain ⟨hlo, hhi⟩ := h
  have hdividend : seed.toInt - 1 = ((seed.toNat - 1 : Nat) : Int) := by
    rw [BitVec.toInt_eq_toNat_of_lt (by omega)]
    omega
  rw [whiteOf, hdividend]
  obtain ⟨hquotSign, hquot⟩ := white_quotient_le_fOne (show seed.toNat - 1 ≤ 2147483645 by omega)
  obtain ⟨hdoubleSign, hdouble⟩ := fmul_fTwo_le_fTwo hquotSign hquot
  exact mem_closedInterval_of_magBits_le (magBits_fsub_fOne_le hdoubleSign hdouble)

/-! ### The threshold of black -/

/-- No magnitude is below a threshold that is not positive. -/
theorem flt_fabs_eq_false {y : F64} (h : orderOf y ≤ 0) (x : F64) : flt (fabs x) y = false := by
  rw [Bool.eq_false_iff]
  intro hlt
  obtain ⟨-, -, horder⟩ := (flt_iff _ _).1 hlt
  simp only [orderOf, signBit_fabs, Bool.false_eq_true, if_false] at horder h
  omega

/-- A value that is at least 1 has no minus sign and a magnitude that is at least that of 1. -/
theorem magBits_fOne_le_of_fle {d : F64} (h : fle fOne d = true) : signBit d = false ∧ magBits fOne ≤ magBits d := by
  obtain ⟨-, -, horder⟩ := (fle_iff _ _).1 h
  have hone : orderOf fOne = magBits fOne ∧ 0 < magBits fOne := by decide
  rw [hone.1] at horder
  unfold orderOf at horder
  cases hsign : signBit d
  · rw [hsign] at horder
    exact ⟨rfl, Int.ofNat_le.1 horder⟩
  · rw [hsign, if_pos rfl] at horder
    omega

/-- The threshold `1 - density` of an infinite density is an infinity with a minus sign. -/
theorem fsub_fOne_left_of_isInf {d : F64} (hnan : isNaN d = false) (hinf : isInf d = true) :
    fsub fOne d = fneg d := by
  have hone : isNaN fOne = false ∧ isInf fOne = false := by decide
  have hneg : isInf (fneg d) = true := by simpa [isInf] using hinf
  simp [fsub, fadd, hone, hnan, hneg]

/-- The threshold `1 - density` of a density of 1 or more is not positive (43_noise.md R216). -/
theorem orderOf_fsub_fOne_left_nonpos {d : F64} (h : fle fOne d = true) : orderOf (fsub fOne d) ≤ 0 := by
  obtain ⟨-, hnan, -⟩ := (fle_iff _ _).1 h
  obtain ⟨hsign, hmag⟩ := magBits_fOne_le_of_fle h
  cases hinf : isInf d with
  | true => simp [fsub_fOne_left_of_isInf hnan hinf, orderOf, hsign]
  | false =>
    have hfin : isFinite d = true := isFinite_of_not_isInf hnan hinf
    have hunits : units fOne ≤ units d := units_le_units ((isFinite_iff d).1 hfin).le hmag
    have hsum : signedUnits fOne + signedUnits (fneg d) ≤ 0 := by
      rw [signedUnits_of_signBit_eq_false (by decide), signedUnits_of_signBit_eq_true (by simp [hsign]), units_fneg]
      omega
    rw [fsub, fadd_of_isFinite (by decide) ((isFinite_fneg d).trans hfin), orderOf,
      signBit_packF _ (roundUnits_lt _ _), magBits_packF _ (roundUnits_lt _ _)]
    rcases hsum.lt_or_eq with hneg | hzero
    · simp [hneg, hneg.ne]
    · simp [hzero, show roundUnits 0 1 = 0 by decide]

end Sys2Proof.Machine

open Sys2Proof Sys2Proof.Machine

/-- Settles O28: what a command computes is pinned, a white sample is never NaN and is stored as it is. -/
theorem whiteBrownVioletAndBlackSamples : Obligations.WhiteBrownVioletAndBlackSamples := by
  unfold Obligations.WhiteBrownVioletAndBlackSamples
  intro s
  rw [← whiteOf_lcgNext]
  refine ⟨rfl, ?brown, ?violet, rfl⟩
  case brown => exact ⟨_, sameValue_pin _ _ _, rfl⟩
  case violet => exact ⟨_, sameValue_pin _ _ _, rfl⟩

/-- Settles O29: every filter memory and every sample is the pinned value of its formula. -/
theorem pinkBlueAndGreySamples : Obligations.PinkBlueAndGreySamples := by
  unfold Obligations.PinkBlueAndGreySamples
  intro s
  rw [← whiteOf_lcgNext]
  refine ⟨?pink, ?blue, ?grey⟩
  case pink =>
    exact ⟨_, _, _, _, sameValue_pin _ _ _, sameValue_pin _ _ _, sameValue_pin _ _ _, sameValue_pin _ _ _, rfl⟩
  case blue =>
    exact ⟨_, _, _, _, _, sameValue_pin _ _ _, sameValue_pin _ _ _, sameValue_pin _ _ _, sameValue_pin _ _ _,
      sameValue_pin _ _ _, rfl⟩
  case grey =>
    exact ⟨_, _, _, _, _, sameValue_pin _ _ _, sameValue_pin _ _ _, sameValue_pin _ _ _, sameValue_pin _ _ _,
      sameValue_pin _ _ _, rfl⟩

/-- Settles O26: the fold is an integer below 2^31, and the step is a Lehmer step on the domain. -/
theorem theSeedStaysInItsDomain : Obligations.TheSeedStaysInItsDomain := by
  unfold Obligations.TheSeedStaysInItsDomain
  refine ⟨rfl, rfl, fun s => ⟨?init, ?lcg⟩⟩
  case init => exact ⟨_, rfl, rfl, toInt_foldSeed _, seedLegal_foldSeed _, foldSeed_of_mem_domain⟩
  case lcg => exact ⟨_, rfl, rfl, toNat_lcgNext _, seedLegal_lcgNext⟩

/-- Settles O27: every colour command is `drawCommand`. -/
theorem everyColourAdvancesTheSeedByOneStep : Obligations.EveryColourAdvancesTheSeedByOneStep := by
  unfold Obligations.EveryColourAdvancesTheSeedByOneStep
  intro c s
  have hseed : (drawCommand c s).noise.seed = lcgNext s.noise.seed := drawColour_seed c s.free s.sys.sr s.noise
  obtain ⟨hrc, hdensity⟩ := drawColour_settings c s.free s.sys.sr s.noise
  exact ⟨_, exec_colourCommandOf c s, hseed ▸ toNat_lcgNext _, hrc, hdensity, rfl⟩

/-- Settles O30: no operation of the mapping rounds past the bound it is below; the two seeds step to the ends of the
domain. -/
theorem whiteLiesInTheClosedInterval : Obligations.WhiteLiesInTheClosedInterval := by
  unfold Obligations.WhiteLiesInTheClosedInterval
  have hwhite (s : State) : ∃ t, exec .nzWhite s = .next t ∧ t.host.res0 = whiteOf (lcgNext s.noise.seed) :=
    ⟨_, rfl, rfl⟩
  refine ⟨fun s hlegal => ?range, fun s => ⟨fun hlow => ?low, fun hhigh => ?high⟩⟩
  case range =>
    obtain ⟨t, hexec, hres⟩ := hwhite s
    exact ⟨t, hexec, hres ▸ whiteOf_mem_closedInterval (seedLegal_lcgNext hlegal)⟩
  case low =>
    have hend : whiteOf (lcgNext 1899818559#64) = fMinusOne := by decide +kernel
    rw [← hend, ← hlow]
    exact hwhite s
  case high =>
    have hend : whiteOf (lcgNext 247665088#64) = fOne := by decide +kernel
    rw [← hend, ← hhigh]
    exact hwhite s

/-- Settles O31: no magnitude is below a threshold that is NaN or not positive. -/
theorem fullDensityMakesBlackEqualWhite : Obligations.FullDensityMakesBlackEqualWhite := by
  unfold Obligations.FullDensityMakesBlackEqualWhite
  intro s hdensity
  have hpass : flt (fabs (whiteOf (lcgNext s.noise.seed))) (fsub fOne s.noise.density) = false := by
    rcases hdensity with hfull | hnan
    · exact flt_fabs_eq_false (orderOf_fsub_fOne_left_nonpos hfull) _
    · have hthreshold : isNaN (fsub fOne s.noise.density) = true := isNaN_fadd_right (by simpa using hnan) _
      exact (compare_nan_right hthreshold _).2.1
  exact ⟨_, _, rfl, rfl, if_neg (Bool.eq_false_iff.1 hpass)⟩

/-- Settles O32: both settings are copied, and the coefficient takes the branch of its comparison. -/
theorem noiseSettingsAreStoredAsWritten : Obligations.NoiseSettingsAreStoredAsWritten := by
  unfold Obligations.NoiseSettingsAreStoredAsWritten
  refine ⟨rfl, rfl, fun s => ⟨rfl, rfl, fun sr rc => ⟨fun hset => ?set, fun hunset => ?unset⟩⟩⟩
  case set => rw [brownA, if_pos hset]
  case unset =>
    rw [brownA, if_neg (Bool.eq_false_iff.1 hunset)]
    rfl
end

section
/-! SUPPORT. The voice-table commands (44_voice_table.md R230 to R245): what each one answers in every state, and
the scan of `VT.FIND` as a first match. -/

namespace Sys2Proof.Machine

/-! ### Columns and the scan -/

@[simp] theorem columnOfCode_columnCode (c : Column) : columnOfCode (columnCode c) = some c := by cases c <;> rfl

/-- The legal selectors of 30_encoding.md R89 are the codes of the columns. -/
theorem exists_columnCode : ∀ {n : Nat}, n ≤ 2 → ∃ c, n = columnCode c
  | 0, _ => ⟨.note, rfl⟩
  | 1, _ => ⟨.phase, rfl⟩
  | 2, _ => ⟨.dt, rfl⟩

theorem fieldMatches_iff_columnEquals (c : Column) (v : Word64) (r : VoiceRow) :
    fieldMatches c v r = true ↔ ColumnEquals c v r := by
  cases c with
  | note => simp [fieldMatches, ColumnEquals, BitVec.toInt_inj]
  | phase | dt => rfl

theorem fieldMatches_eq_false_iff (c : Column) (v : Word64) (r : VoiceRow) :
    fieldMatches c v r = false ↔ ¬ ColumnEquals c v r := by
  rw [← fieldMatches_iff_columnEquals, Bool.not_eq_true]

section
variable {c : Column} {v : Word64} {start : Nat} {t : Table}

/-- Without a match from the start on, the scan finds nothing. -/
theorem findRow_of_no_match (h : ∀ k, start ≤ k → k < t.count → ¬ ColumnEquals c v (rowAt t k)) :
    findRow c v start t = none := by
  cases hfind : findRow c v start t with
  | none => rfl
  | some k =>
    obtain ⟨hstart, hlive, hmatch⟩ := findRow_some hfind
    exact absurd ((fieldMatches_iff_columnEquals ..).1 hmatch) (h k hstart hlive)

/-- The scan finds the least match from the start on. -/
theorem findRow_of_first_match {j : Nat} (hstart : start ≤ j) (hlive : j < t.count)
    (hmatch : ColumnEquals c v (rowAt t j))
    (hfirst : ∀ k, start ≤ k → k < j → ¬ ColumnEquals c v (rowAt t k)) : findRow c v start t = some j := by
  cases hfind : findRow c v start t with
  | none =>
    have hmiss := scanRows_none hfind j hstart (by omega)
    exact absurd hmatch ((fieldMatches_eq_false_iff ..).1 hmiss)
  | some k =>
    obtain ⟨hk, -, hkmatch, hkfirst⟩ := scanRows_some hfind
    rcases Nat.lt_trichotomy k j with hlt | rfl | hgt
    · exact absurd ((fieldMatches_iff_columnEquals ..).1 hkmatch) (hfirst k hk hlt)
    · rfl
    · exact absurd hmatch ((fieldMatches_eq_false_iff ..).1 (hkfirst j hstart hgt))

end

/-! ### What each command answers -/

/-- A row index that came from an operand goes back to the host unchanged. -/
theorem retRow_toNat (i : Word64) (s : State) : retRow i.toNat s = retValue i s := by
  rw [retRow, BitVec.ofNat_toNat, BitVec.setWidth_eq]

/-- The index after the one in an operand (44_voice_table.md R239). -/
theorem retRow_toNat_add_one (i : Word64) (s : State) : retRow (i.toNat + 1) s = retValue (i + 1#64) s := by
  rw [retRow, BitVec.ofNat_add, BitVec.ofNat_toNat, BitVec.setWidth_eq]

/-- `VT.GET` (44_voice_table.md R233). -/
theorem exec_vtGet (s : State) :
    exec .vtGet s = .next (if NamesRow s.host.arg0 s.table then retValue s.host.arg0 s
      else faulted 3 (encode .vtGet) s) := by
  simp only [exec, execVtGet, isRow_iff, raiseFault_eq_faulted, causeCode]

/-- `VT.APPEND` (44_voice_table.md R234). -/
theorem exec_vtAppend (s : State) :
    exec .vtAppend s = .next (if s.table.count = s.table.capacity then faulted 2 (encode .vtAppend) s
      else retRow s.table.count { s with table := appendRow (freshRow s.free s.table.count) s.table }) := by
  simp only [exec, execVtAppend, raiseFault_eq_faulted, causeCode]

/-- `VT.INSERT` (44_voice_table.md R235): the index test comes first. -/
theorem exec_vtInsert (s : State) :
    exec .vtInsert s = .next (
      if 0 ≤ s.host.arg0.toInt ∧ s.host.arg0.toInt ≤ (s.table.count : Int) then
        if s.table.count = s.table.capacity then faulted 2 (encode .vtInsert) s
        else retValue s.host.arg0 { s with
          table := insertRow s.host.arg0.toNat (freshRow s.free s.host.arg0.toNat) s.table }
      else faulted 3 (encode .vtInsert) s) := by
  simp only [exec, execVtInsert, retRow_toNat, raiseFault_eq_faulted, causeCode]

/-- `VT.REMOVE` (44_voice_table.md R236). -/
theorem exec_vtRemove (s : State) :
    exec .vtRemove s = .next (
      if NamesRow s.host.arg0 s.table then
        if s.host.arg0.toNat < s.table.count - 1 then
          retValue s.host.arg0 { s with table := removeRow s.host.arg0.toNat s.table }
        else retNotFound { s with table := removeRow s.host.arg0.toNat s.table }
      else faulted 3 (encode .vtRemove) s) := by
  simp only [exec, execVtRemove, isRow_iff, removeRow_count, retRow_toNat, raiseFault_eq_faulted, causeCode]

/-- `VT.NEXT` (44_voice_table.md R239). -/
theorem exec_vtNext (s : State) :
    exec .vtNext s = .next (
      if NamesRow s.host.arg0 s.table then
        if s.host.arg0.toNat + 1 < s.table.count then retValue (s.host.arg0 + 1#64) s else retNotFound s
      else faulted 3 (encode .vtNext) s) := by
  simp only [exec, execVtNext, isRow_iff, retRow_toNat_add_one, raiseFault_eq_faulted, causeCode]

section
variable {sel : BitVec 4} {c : Column} (h : sel.toNat = columnCode c)
include h

/-- `VT.FIND` in a column (44_voice_table.md R240). -/
theorem exec_vtFind (s : State) :
    exec (.vtFind sel) s = .next (
      if s.host.arg1.toInt = -1 then retNotFound s
      else if 0 ≤ s.host.arg1.toInt ∧ s.host.arg1.toInt ≤ (s.table.count : Int) then
        (findRow c s.host.arg0 s.host.arg1.toNat s.table).elim (retNotFound s) (retRow · s)
      else faulted 3 (encode (.vtFind sel)) s) := by
  simp only [exec, execVtFind, h, columnOfCode_columnCode, raiseFault_eq_faulted, causeCode]
  cases findRow c s.host.arg0 s.host.arg1.toNat s.table <;> rfl

/-- `VT.RDF` of a column (44_voice_table.md R243). -/
theorem exec_vtRdf (s : State) :
    exec (.vtRdf sel) s = .next (
      if NamesRow s.host.arg0 s.table then retValue (fieldOf c (rowAt s.table s.host.arg0.toNat)) s
      else faulted 3 (encode (.vtRdf sel)) s) := by
  simp only [exec, execVtRdf, h, columnOfCode_columnCode, isRow_iff, raiseFault_eq_faulted, causeCode]

/-- `VT.WRF` of a column (44_voice_table.md R244). -/
theorem exec_vtWrf (s : State) :
    exec (.vtWrf sel) s = .next (
      if NamesRow s.host.arg0 s.table then
        retNone { s with table := { s.table with
          rows := putRow s.host.arg0.toNat (setField c s.host.arg1 (rowAt s.table s.host.arg0.toNat)) s.table.rows } }
      else faulted 3 (encode (.vtWrf sel)) s) := by
  simp only [exec, execVtWrf, h, columnOfCode_columnCode, isRow_iff, raiseFault_eq_faulted, causeCode]

end

/-! ### All commands -/

theorem TableEffect.command {s : State} {i : Instr} {t : Table} (h : TableEffect s i t) :
    i = .vtAppend ∨ i = .vtInsert ∨ i = .vtRemove ∨ i = .vtClear ∨ ∃ sel, i = .vtWrf sel := by
  cases h <;> simp

/-- Besides `RESET` and `SYN.TICK`, only a table effect changes the table. -/
theorem Effect.table_cases {s t : State} {i : Instr} (h : Effect s i t) :
    t.table = s.table ∨ TableEffect s i t.table ∨ i = .synTick ∨ i = .reset := by
  cases h with
  | register imm r hnum hro hlegal => exact .inl (writeReg_table r _ s)
  | table i t h' ht hr => exact .inr (.inl ht)
  | tick => exact .inr (.inr (.inl rfl))
  | reset => exact .inr (.inr (.inr rfl))
  | fault | answer | osc | env | envStep | noise | queue | eventPopped => exact .inl rfl

end Sys2Proof.Machine

open Sys2Proof Sys2Proof.Machine

/-- Settles O8: a reference outside its range takes the last branch of the command. -/
theorem badRowReferencesFaultVtIndex : Obligations.BadRowReferencesFaultVtIndex := by
  unfold Obligations.BadRowReferencesFaultVtIndex
  refine fun s => ⟨fun hrow => ⟨?get, ?remove, ?next, fun sel hsel => ?fields⟩, fun hindex => ?insert,
    fun hstart sel hsel => ?find⟩
  case get => rw [exec_vtGet, if_neg hrow]
  case remove => rw [exec_vtRemove, if_neg hrow]
  case next => rw [exec_vtNext, if_neg hrow]
  case fields =>
    obtain ⟨c, hc⟩ := exists_columnCode hsel
    exact ⟨by rw [exec_vtRdf hc, if_neg hrow], by rw [exec_vtWrf hc, if_neg hrow]⟩
  case insert => rw [exec_vtInsert, if_neg hindex]
  case find =>
    obtain ⟨c, hc⟩ := exists_columnCode hsel
    rw [exec_vtFind hc, if_neg (by omega), if_neg (by omega)]

/-- Settles O9: the capacity test of `VT.APPEND` is its first, that of `VT.INSERT` its second. -/
theorem growingAFullTableFaultsVtFull : Obligations.GrowingAFullTableFaultsVtFull := by
  unfold Obligations.GrowingAFullTableFaultsVtFull
  refine fun s hfull => ⟨?append, fun hlo hhi => ?insert⟩
  case append => rw [exec_vtAppend, if_pos hfull]
  case insert => rw [exec_vtInsert, if_pos ⟨hlo, hhi⟩, if_pos hfull]

/-- Settles O33: each command takes the branch of its test on `VT_COUNT`; a live row's index is not negative. -/
theorem rowReferenceCommandsNameRows : Obligations.RowReferenceCommandsNameRows := by
  unfold Obligations.RowReferenceCommandsNameRows
  refine ⟨rfl, rfl, fun s => ⟨fun hrow => ?get, fun hsome => ?first, fun hnone => ?firstNone, fun hsome => ?last,
    fun hnone => ?lastNone, fun hrow hnext => ?next, fun hrow hnext => ?nextNone⟩⟩
  case get => exact (exec_vtGet s).trans (congrArg _ (if_pos hrow))
  case first => exact congrArg Host.Outcome.next (if_pos hsome)
  case firstNone => exact congrArg Host.Outcome.next (if_neg (by omega))
  case last => exact congrArg Host.Outcome.next (if_pos hsome)
  case lastNone => exact congrArg Host.Outcome.next (if_neg (by omega))
  case next =>
    obtain ⟨hbits, -⟩ := toInt_eq_toNat_of_namesRow hrow
    rw [exec_vtNext, if_pos hrow, if_pos (by omega)]
    rfl
  case nextNone =>
    obtain ⟨hbits, -⟩ := toInt_eq_toNat_of_namesRow hrow
    rw [exec_vtNext, if_pos hrow, if_neg (by omega)]
    rfl

/-- Settles O34: the next state is that of `appendRow`, whose live rows are the old ones and the new one. -/
theorem vtAppendAddsARowAtTheEnd : Obligations.VtAppendAddsARowAtTheEnd := by
  unfold Obligations.VtAppendAddsARowAtTheEnd
  intro s hwf hroom
  obtain ⟨-, -, hstored, -⟩ := hwf
  have hexec := (exec_vtAppend s).trans (congrArg _ (if_neg hroom.ne))
  exact ⟨_, _, hexec, rfl, rfl, liveRows_appendRow _ hstored⟩

/-- Settles O35: the next state is that of `insertRow`, whose live rows are the old ones opened at the index. -/
theorem vtInsertOpensARow : Obligations.VtInsertOpensARow := by
  unfold Obligations.VtInsertOpensARow
  intro s hwf hroom hlo hhi
  obtain ⟨-, -, hstored, -⟩ := hwf
  have hexec := exec_vtInsert s
  rw [if_pos ⟨hlo, hhi⟩, if_neg hroom.ne] at hexec
  exact ⟨_, _, hexec, rfl, rfl, liveRows_insertRow _ hstored (toNat_le_of_toInt_le ⟨hlo, hhi⟩)⟩

/-- Settles O36: the next state is that of `removeRow`; a row followed when the index is below the new count. -/
theorem vtRemoveClosesTheGap : Obligations.VtRemoveClosesTheGap := by
  unfold Obligations.VtRemoveClosesTheGap
  intro s hwf hrow
  obtain ⟨-, -, hstored, -⟩ := hwf
  obtain ⟨hbits, hlive⟩ := toInt_eq_toNat_of_namesRow hrow
  have hexec := exec_vtRemove s
  rw [if_pos hrow] at hexec
  refine ⟨removeRow s.host.arg0.toNat s.table, fun hnext => ?followed, fun hlast => ?wasLast,
    Nat.sub_add_cancel (Nat.one_le_of_lt hlive), rfl, liveRows_removeRow hstored hlive⟩
  case followed =>
    rw [hexec, if_pos (by omega)]
    rfl
  case wasLast =>
    rw [hexec, if_neg (by omega)]
    rfl

/-- Settles O37: the answer is that of the scan from the start, which finds the first match if there is one. -/
theorem vtFindReturnsTheFirstMatch : Obligations.VtFindReturnsTheFirstMatch := by
  unfold Obligations.VtFindReturnsTheFirstMatch
  refine fun s sel c hc => ⟨fun hstart => ?fromNotFound, fun hlo hhi => ?fromIndex⟩
  case fromNotFound => exact (exec_vtFind hc s).trans (congrArg _ (if_pos hstart))
  case fromIndex =>
    have hexec := exec_vtFind hc s
    rw [if_neg (by omega), if_pos ⟨hlo, hhi⟩] at hexec
    refine ⟨fun j hstart hlive hmatch hfirst => ?found, fun hmiss => ?notFound⟩
    case found =>
      rw [hexec, findRow_of_first_match hstart hlive hmatch hfirst]
      rfl
    case notFound =>
      rw [hexec, findRow_of_no_match hmiss]
      rfl

/-- Settles O38: a read takes the field of the row, a write puts the row back with that one field replaced. -/
theorem vtClearReadAndWriteFields : Obligations.VtClearReadAndWriteFields := by
  unfold Obligations.VtClearReadAndWriteFields
  refine fun s sel c hc => ⟨rfl, fun hrow => ⟨?read, fun hwf => ?write⟩⟩
  case read => exact (exec_vtRdf hc s).trans (congrArg _ (if_pos hrow))
  case write =>
    obtain ⟨-, -, hstored, -⟩ := hwf
    obtain ⟨-, hlive⟩ := toInt_eq_toNat_of_namesRow hrow
    have hslot := hlive.trans_le hstored
    refine ⟨_, (exec_vtWrf hc s).trans (congrArg _ (if_pos hrow)), rfl, rfl, ?_, fun c' hne => ?_,
      fun k _ hk => rowAt_putRow_ne _ hslot hk⟩
    · rw [rowAt_putRow_self _ hslot, fieldOf_setField]
    · rw [rowAt_putRow_self _ hslot, fieldOf_setField_ne hne]

/-- Settles O39: of the effects of a command, these are the ones on the table. -/
theorem onlyTableCommandsChangeTheTable : Obligations.OnlyTableCommandsChangeTheTable := by
  unfold Obligations.OnlyTableCommandsChangeTheTable
  intro i s t hexec hchange
  rcases (exec_effect hexec).table_cases with hsame | heffect | rfl | rfl
  · exact absurd hsame hchange
  · have hcommand := heffect.command
    tauto
  · simp
  · simp
end

section
/-! SUPPORT. The event-queue commands (45_event_queue.md R260 to R264): the storage behind a push, the bytes of
an entry as numbers, and what `EQ.POP` answers in each case. -/

namespace Sys2Proof.Machine

/-! ### The storage behind a push -/

section
variable {q : Queue} (e : Event) (hroom : q.tail < q.capacity)
include hroom

/-- With room a push is one write of the storage, at the tail (45_event_queue.md R264). -/
theorem pushEvent_of_room :
    pushEvent e q = { q with ev := q.ev.take q.tail ++ e :: q.ev.drop (q.tail + 1), tail := q.tail + 1 } :=
  if_pos hroom

/-- Of the registers a push with room moves the tail alone (45_event_queue.md R264). -/
theorem pushEvent_registers :
    (pushEvent e q).tail = q.tail + 1 ∧ (pushEvent e q).head = q.head ∧ (pushEvent e q).counter = q.counter ∧
      (pushEvent e q).capacity = q.capacity := by
  rw [pushEvent_of_room e hroom]
  exact ⟨rfl, rfl, rfl, rfl⟩

variable (hstored : q.tail ≤ q.ev.length)
include hstored

/-- The pushed entry reads back. -/
theorem eventAt_pushEvent_tail : eventAt (pushEvent e q) q.tail = e := by
  rw [pushEvent_of_room e hroom]
  simp [eventAt, hstored]

/-- Every other entry reads as before, below and above the tail. -/
theorem eventAt_pushEvent_ne {k : Nat} (hk : k ≠ q.tail) : eventAt (pushEvent e q) k = eventAt q k := by
  rw [pushEvent_of_room e hroom]
  have hlen : (q.ev.take q.tail).length = q.tail := List.length_take_of_le hstored
  simp only [eventAt, List.getD_eq_getElem?_getD]
  rcases Nat.lt_or_gt_of_ne hk with hbelow | habove
  · rw [List.getElem?_append_left (by omega), List.getElem?_take_of_lt hbelow]
  · obtain ⟨d, rfl⟩ := Nat.exists_eq_add_of_lt habove
    rw [List.getElem?_append_right (by omega), hlen, show q.tail + d + 1 - q.tail = d + 1 by omega,
      List.getElem?_cons_succ, List.getElem?_drop, Nat.add_right_comm]

end

/-- A push of a full queue is dropped (45_event_queue.md R264). -/
theorem pushEvent_of_full (e : Event) {q : Queue} (hfull : q.capacity ≤ q.tail) : pushEvent e q = q :=
  if_neg (Nat.not_lt.2 hfull)

/-! ### The bytes of an entry -/

/-- The status keeps the low byte of its operand (45_event_queue.md R264). -/
theorem eventOf_status_toNat (offset status data1 data2 : Word64) :
    (eventOf offset status data1 data2).status.toNat = status.toNat % 256 :=
  BitVec.toNat_setWidth 8 status

/-- The low byte of an operand as a number. -/
theorem toNat_and_lowByte (v : Word64) : (v &&& 0xFF#64).toNat = v.toNat % 256 :=
  (BitVec.toNat_and ..).trans (Nat.and_two_pow_sub_one_eq_mod v.toNat 8)

/-- The masked data bytes do not overlap, so the packed half-word is their sum (45_event_queue.md R260, R264). -/
theorem eventOf_packed_toNat (offset status data1 data2 : Word64) :
    (eventOf offset status data1 data2).packed.toNat = data1.toNat % 256 + 256 * (data2.toNat % 256) := by
  have hlow : data1.toNat % 256 < 2 ^ 8 := Nat.mod_lt _ (by decide)
  have hhigh : (data2.toNat % 256) <<< 8 = 256 * (data2.toNat % 256) := by
    rw [Nat.shiftLeft_eq, Nat.mul_comm]
  have hsum := Nat.shiftLeft_add_eq_or_of_lt hlow (data2.toNat % 256)
  simp only [eventOf, BitVec.truncate_eq_setWidth, BitVec.toNat_setWidth, BitVec.toNat_or, BitVec.toNat_shiftLeft,
    toNat_and_lowByte]
  rw [Nat.mod_eq_of_lt (a := (data2.toNat % 256) <<< 8) (by omega), Nat.or_comm, ← hsum, hhigh]
  omega

/-- `data1` is the low byte of the packed half-word (45_event_queue.md R260). -/
theorem data1Of_toNat (e : Event) : (data1Of e).toNat = e.packed.toNat % 256 :=
  BitVec.extractLsb'_toNat 0 8 e.packed

/-- `data2` is its high byte (45_event_queue.md R260). -/
theorem data2Of_toNat (e : Event) : (data2Of e).toNat = e.packed.toNat / 256 := by
  have hbits : e.packed.toNat < 256 * 256 := e.packed.isLt
  rw [data2Of, BitVec.extractLsb'_toNat, Nat.shiftRight_eq_div_pow]
  exact Nat.mod_eq_of_lt (Nat.div_lt_of_lt_mul hbits)

/-! ### What `EQ.POP` answers -/

/-- Visible: pending and arrived (45_event_queue.md R263). -/
theorem headVisible_iff (q : Queue) :
    headVisible q = true ↔ q.head < q.tail ∧ (eventAt q q.head).offset.toInt ≤ (q.counter : Int) := by
  simp [headVisible]

/-- A visible head entry goes to the result registers (45_event_queue.md R263). -/
theorem exec_eqPop_of_visible {s : State} (h : headVisible s.queue = true) :
    exec .eqPop s = .next { s with
      queue := { s.queue with head := s.queue.head + 1 }
      host := { s.host with
        res0 := (eventAt s.queue s.queue.head).offset
        res1 := (eventAt s.queue s.queue.head).status.zeroExtend 64
        res2 := (data1Of (eventAt s.queue s.queue.head)).zeroExtend 64
        res3 := (data2Of (eventAt s.queue s.queue.head)).zeroExtend 64
        rtag := .value } } := by
  simp only [exec, execEqPop, popEvent, if_pos h]

/-- Without a visible entry the counter advances (45_event_queue.md R263). -/
theorem exec_eqPop_of_not_visible {s : State} (h : headVisible s.queue = false) :
    exec .eqPop s = .next (retNotFound { s with queue := { s.queue with
      counter := if s.queue.counter < counterMax then s.queue.counter + 1 else s.queue.counter } }) := by
  simp only [exec, execEqPop, popEvent, h, Bool.false_eq_true, if_false]

end Sys2Proof.Machine

open Sys2Proof Sys2Proof.Machine

/-- Settles O40: a push with room is `pushEvent`, one write of the storage at the tail. -/
theorem eqRewindAndPush : Obligations.EqRewindAndPush := by
  unfold Obligations.EqRewindAndPush
  refine ⟨rfl, rfl, fun s => ⟨rfl, fun hfull => ?full, fun hwf hroom => ?room⟩⟩
  case full =>
    exact congrArg (fun q => Host.Outcome.next (retNone { s with queue := q })) (pushEvent_of_full _ hfull)
  case room =>
    obtain ⟨-, -, -, hstored, -, -⟩ := hwf
    obtain ⟨htail, hhead, hcounter, hcapacity⟩ := pushEvent_registers _ hroom
    refine ⟨_, rfl, htail, hhead, hcounter, hcapacity, fun k hk => eventAt_pushEvent_ne _ hroom hstored hk, ?_⟩
    rw [eventAt_pushEvent_tail _ hroom hstored]
    exact ⟨rfl, eventOf_status_toNat .., eventOf_packed_toNat ..⟩

/-- Settles O41: the test is `headVisible`, and the bytes of the entry go out as numbers. -/
theorem eqPopIsGatedByTheCounter : Obligations.EqPopIsGatedByTheCounter := by
  unfold Obligations.EqPopIsGatedByTheCounter
  refine ⟨rfl, fun s => ⟨fun hvisible => ?visible, fun hnone => ?notVisible⟩⟩
  case visible =>
    simp only [exec_eqPop_of_visible ((headVisible_iff _).2 hvisible), ← data1Of_toNat, ← data2Of_toNat,
      BitVec.ofNat_toNat, BitVec.truncate_eq_setWidth]
  case notVisible =>
    exact exec_eqPop_of_not_visible (Bool.eq_false_iff.2 (mt (headVisible_iff _).1 hnone))
end

section
/-! SUPPORT. The tick (46_voice_loop.md R280 to R292): its next state written out, the drain as an induction over the
arrived events, the rendering row by row, and what each class of events does. -/

namespace Sys2Proof.Machine

/-! ### The next state of a tick -/

/-- The drain reaches the machine through three parts of the state only (46_voice_loop.md R281 to R287). -/
theorem exists_drain_eq (s : State) : ∃ e t q, drain s = { s with env := e, table := t, queue := q } := by
  obtain ⟨hhost, hsys, hosc, hnoise, hsyn, hinput, hfree, -⟩ := drainLoop_frame (s.queue.tail - s.queue.head + 1) s
  refine ⟨(drain s).env, (drain s).table, (drain s).queue, ?_⟩
  rw [← hhost, ← hsys, ← hosc, ← hnoise, ← hsyn, ← hinput, ← hfree]
  rfl

/-- The sum over the voices and the table that a tick makes of the drained state `d` (46_voice_loop.md R289, R290). -/
def tickVoices (d : State) : F64 × Table :=
  renderVoices d.free d.osc (envStep d.free d.env).env (noiseFactor d).1 (voicesOf d.syn.mode d.table.count) fZero
    d.table

/-- The output that a tick makes of the drained state `d` (46_voice_loop.md R291). -/
def tickOutput (d : State) : F64 := pin d.free (.res 0) (fmul (tickVoices d).1 d.syn.vol)

theorem exec_synTick (s : State) :
    exec .synTick s = .next { s with
      env := envStep s.free (drain s).env
      noise := (noiseFactor s).2
      table := (tickVoices (drain s)).2
      queue := (drain s).queue
      syn := { s.syn with outL := tickOutput (drain s), outR := tickOutput (drain s) }
      host := { s.host with res0 := tickOutput (drain s), rtag := .value } } := by
  obtain ⟨e, t, q, hdrain⟩ := exists_drain_eq s
  change Host.Outcome.next (renderTick (drain s)) = _
  rw [hdrain]
  rfl

/-- Without an arrived event a tick renders the state it finds (46_voice_loop.md R281). -/
theorem exec_synTick_of_not_visible {s : State} (h : headVisible s.queue = false) :
    exec .synTick s = .next { s with
      env := envStep s.free s.env
      noise := (noiseFactor s).2
      table := (tickVoices s).2
      queue := { s.queue with
        counter := if s.queue.counter < counterMax then s.queue.counter + 1 else s.queue.counter }
      syn := { s.syn with outL := tickOutput s, outR := tickOutput s }
      host := { s.host with res0 := tickOutput s, rtag := .value } } := by
  rw [exec_synTick, drain_of_not_visible h]
  rfl

/-! ### The noise factor -/

theorem noiseFactor_of_off {s : State} (h : s.syn.noise = none) : noiseFactor s = (fOne, s.noise) := by
  simp only [noiseFactor, h]

theorem noiseFactor_of_on {s : State} {c : Colour} (h : s.syn.noise = some c) :
    noiseFactor s = drawColour c s.free s.sys.sr s.noise := by
  simp only [noiseFactor, h]

/-- The draw of a tick is one Lehmer step of the seed (43_noise.md R203, 46_voice_loop.md R288). -/
theorem noiseFactor_seed_toNat {s : State} {c : Colour} (h : s.syn.noise = some c) :
    (noiseFactor s).2.seed.toNat = s.noise.seed.toNat * 48271 % 2147483647 := by
  rw [noiseFactor_of_on h, drawColour_seed, toNat_lcgNext]

/-- The factor in the words of the commands: 1.0 when noise is off, else the sample of the colour's command
(46_voice_loop.md R288). -/
theorem noiseFactor_eq_of_commands {s : State} {nf : F64} (hoff : s.syn.noise = none → nf = fOne)
    (hon : ∀ c, s.syn.noise = some c → ∃ v, exec (colourCommandOf c) s = .next v ∧ nf = v.host.res0) :
    (noiseFactor s).1 = nf := by
  cases h : s.syn.noise with
  | none => rw [noiseFactor_of_off h, hoff h]
  | some c =>
    obtain ⟨v, hexec, rfl⟩ := hon c h
    rw [exec_colourCommandOf] at hexec
    cases hexec
    rw [noiseFactor_of_on h]
    rfl

/-! ### The voices -/

/-- The voices of a mode are the ones that 46_voice_loop.md R289 lists; with no live row there is none. -/
theorem selectedVoices_eq_voicesOf (mode : VoiceMode) (count : Nat) :
    selectedVoices mode count = voicesOf mode count := by
  cases count with
  | zero => cases mode <;> rfl
  | succ n =>
    cases mode with
    | poly => rfl
    | monoNewest => simp [selectedVoices, voicesOf, List.range_succ]
    | monoOldest => simp [selectedVoices, voicesOf, List.range_succ_eq_map]

/-- Rendering moves rows only (46_voice_loop.md R290). -/
theorem renderVoices_bounds (q : Nat) (o : Osc) (e nf : F64) (l : List Nat) : ∀ (acc : F64) (t : Table),
    (renderVoices q o e nf l acc t).2.count = t.count ∧
      (renderVoices q o e nf l acc t).2.capacity = t.capacity := by
  induction l with
  | nil => exact fun _ _ => ⟨rfl, rfl⟩
  | cons i rest ih => exact fun _ _ => ih _ _

/-- Rendering advances the rows of its voices and keeps every other one (46_voice_loop.md R290). -/
theorem rowAt_renderVoices (q : Nat) (o : Osc) (e nf : F64) (k : Nat) (l : List Nat) : ∀ (acc : F64) (t : Table),
    TableWf t → l.Nodup → (∀ i ∈ l, i < t.count) →
    rowAt (renderVoices q o e nf l acc t).2 k = if k ∈ l then advanceRow q k (rowAt t k) else rowAt t k := by
  induction l with
  | nil => exact fun _ _ _ _ _ => rfl
  | cons i rest ih =>
    intro acc t hwf hnodup hlive
    obtain ⟨hi, hrest⟩ := List.forall_mem_cons.1 hlive
    obtain ⟨hfresh, hnodup⟩ := List.nodup_cons.1 hnodup
    have hslot : i < t.rows.length := hi.trans_le hwf.2.2.1
    rw [renderVoices, ih _ _ (tableWf_putRow _ hwf hi) hnodup hrest]
    by_cases hk : k = i
    · subst hk
      rw [if_neg hfresh, if_pos List.mem_cons_self, rowAt_putRow_self _ hslot]
    · rw [rowAt_putRow_ne _ hslot hk]
      simp only [List.mem_cons, hk, false_or]

theorem rowAt_tickVoices {s : State} (hwf : TableWf s.table) (k : Nat) :
    rowAt (tickVoices s).2 k =
      if k ∈ voicesOf s.syn.mode s.table.count then advanceRow s.free k (rowAt s.table k) else rowAt s.table k :=
  rowAt_renderVoices _ _ _ _ _ _ _ _ hwf (nodup_voicesOf _ _) fun _ => lt_of_mem_voicesOf

/-- The modes that render a live row (46_voice_loop.md R289). -/
theorem mem_voicesOf_iff {mode : VoiceMode} {count k : Nat} (hk : k < count) :
    k ∈ voicesOf mode count ↔
      mode = .poly ∨ (mode = .monoNewest ∧ k + 1 = count) ∨ (mode = .monoOldest ∧ k = 0) := by
  unfold voicesOf
  rw [if_neg (Nat.ne_zero_of_lt hk)]
  cases mode with
  | poly => simp [hk]
  | monoNewest => simp; omega
  | monoOldest => simp

theorem tickVoices_sum {s : State} (hwf : TableWf s.table) :
    (tickVoices s).1 = (voicesOf s.syn.mode s.table.count).foldl (fun acc i => fadd acc
      (voiceSample s.free s.osc (envStep s.free s.env).env (noiseFactor s).1 i (rowAt s.table i))) fZero :=
  renderVoices_sum _ _ _ _ _ _ _ hwf (nodup_voicesOf _ _) fun _ => lt_of_mem_voicesOf

/-- An empty table gives the empty sum and stays as it is (46_voice_loop.md R280). -/
theorem tickVoices_of_empty {s : State} (h : s.table.count = 0) : tickVoices s = (fZero, s.table) := by
  simp only [tickVoices, voicesOf, if_pos h, renderVoices]

/-- The sample of a voice is NaN where the value of its waveform is (46_voice_loop.md R290). -/
theorem isNaN_voiceSample (q : Nat) (o : Osc) (e nf : F64) (i : Nat) (r : VoiceRow)
    (h : ((isNaN r.phase = true ∧ o.wave ∈ [Wave.tri, .saw, .ramp, .trap, .trappw, .circle]) ∨
      (isNaN r.dt = true ∧ o.wave ∈ [Wave.tri, .trap, .trappw, .tripulse, .hwrsine, .fwrsine]))) :
    isNaN (voiceSample q o e nf i r) = true :=
  isNaN_fmul_left (isNaN_fmul_right (isNaN_waveValue _ _ _ _ _ _ h) _) _

/-! ### The drain -/

/-- The state in which the head event has been popped and handled (46_voice_loop.md R281). -/
def handleHead (s : State) : State :=
  handleEvent s.queue.head (eventAt s.queue s.queue.head)
    { s with queue := { s.queue with head := s.queue.head + 1 } }

theorem handleHead_queue (s : State) : (handleHead s).queue = { s.queue with head := s.queue.head + 1 } := by
  obtain ⟨-, -, -, -, hqueue, -⟩ := handleEvent_frame s.queue.head (eventAt s.queue s.queue.head)
    { s with queue := { s.queue with head := s.queue.head + 1 } }
  exact hqueue

/-- Induction over the arrived events, in the order in which the drain handles them (46_voice_loop.md R281). -/
theorem drain_induction {P : State → Prop} (done : ∀ s, headVisible s.queue = false → P s)
    (pop : ∀ s, headVisible s.queue = true → P (handleHead s) → P s) (s : State) : P s := by
  induction hpending : s.queue.tail - s.queue.head generalizing s with
  | zero => exact done s (by simp [headVisible]; omega)
  | succ n ih =>
    cases hvisible : headVisible s.queue with
    | false => exact done s hvisible
    | true => exact pop s hvisible (ih _ (by rw [handleHead_queue]; dsimp only; omega))

/-- What a drain does to the queue: it takes arrived entries from the head until the head entry has not arrived, and
counts one sample (46_voice_loop.md R281). -/
structure QueueDrained (q q' : Queue) : Prop where
  counter : q'.counter = if q.counter < counterMax then q.counter + 1 else q.counter
  tail : q'.tail = q.tail
  capacity : q'.capacity = q.capacity
  ev : q'.ev = q.ev
  head_le : q.head ≤ q'.head
  head_le_tail : q.head ≤ q.tail → q'.head ≤ q'.tail
  pending : q'.head < q'.tail → (q.counter : Int) < (eventAt q q'.head).offset.toInt
  arrived : ∀ k, q.head ≤ k → k < q'.head → (eventAt q k).offset.toInt ≤ (q.counter : Int)

theorem queueDrained_of_not_visible {q : Queue} (h : headVisible q = false) :
    QueueDrained q { q with counter := if q.counter < counterMax then q.counter + 1 else q.counter } where
  counter := rfl
  tail := rfl
  capacity := rfl
  ev := rfl
  head_le := le_rfl
  head_le_tail := id
  pending hpending := by
    have hnot := mt (headVisible_iff q).2 (Bool.eq_false_iff.1 h)
    exact not_le.1 fun hle => hnot ⟨hpending, hle⟩
  arrived k hlo hhi := absurd hlo (not_le.2 hhi)

theorem queueDrained_of_visible {q q' : Queue} (h : headVisible q = true)
    (hrest : QueueDrained { q with head := q.head + 1 } q') : QueueDrained q q' := by
  obtain ⟨hlt, harrived⟩ := (headVisible_iff q).1 h
  exact {
    counter := hrest.counter
    tail := hrest.tail
    capacity := hrest.capacity
    ev := hrest.ev
    head_le := (Nat.le_succ _).trans hrest.head_le
    head_le_tail := fun _ => hrest.head_le_tail hlt
    pending := hrest.pending
    arrived := fun k hlo hhi => by
      rcases hlo.eq_or_lt with rfl | hlater
      · exact harrived
      · exact hrest.arrived k hlater hhi }

theorem queueDrained_drain (s : State) : QueueDrained s.queue (drain s).queue := by
  induction s using drain_induction with
  | done s hnone =>
    rw [drain_of_not_visible hnone]
    exact queueDrained_of_not_visible hnone
  | pop s hvisible ih =>
    rw [handleHead_queue] at ih
    rw [drain_of_visible hvisible]
    exact queueDrained_of_visible hvisible ih

/-- A tick with an arrived event is the tick after that event (46_voice_loop.md R281). -/
theorem exec_synTick_of_visible {s : State} (h : headVisible s.queue = true) :
    exec .synTick s = exec .synTick (handleHead s) :=
  congrArg (fun d => Host.Outcome.next (renderTick d)) (drain_of_visible h)

/-! ### Events -/

/-- Masking the channel off leaves the high nibble (46_voice_loop.md R282). -/
theorem toNat_and_highNibble (b : BitVec 8) : (b &&& 0xF0#8).toNat = 16 * (b.toNat / 16) := by
  revert b
  decide

theorem and_highNibble_eq_iff (b : BitVec 8) {n : Nat} (hn : n < 16) :
    b &&& 0xF0#8 = BitVec.ofNat 8 (16 * n) ↔ b.toNat / 16 = n := by
  rw [← BitVec.toNat_inj, toNat_and_highNibble, BitVec.toNat_ofNat, Nat.mod_eq_of_lt (by omega)]
  omega

/-- Event decoding in numbers (46_voice_loop.md R282). -/
theorem actionOf_eq (e : Event) :
    actionOf e =
      if e.status.toNat / 16 = 9 ∧ e.packed.toNat / 256 ≠ 0 then .noteOn (data1Of e) (data2Of e)
      else if e.status.toNat / 16 = 8 ∨ (e.status.toNat / 16 = 9 ∧ e.packed.toNat / 256 = 0) then
        .noteOff (data1Of e)
      else if e.status.toNat / 16 = 11 ∧ e.packed.toNat % 256 = 123 then .allNotesOff
      else .ignore := by
  have hnibble {n : Nat} (hn : n < 16) := and_highNibble_eq_iff e.status hn
  have hvelocity : data2Of e = 0#8 ↔ e.packed.toNat / 256 = 0 := by
    rw [← BitVec.toNat_inj, data2Of_toNat]
    rfl
  have hnote : data1Of e = 123#8 ↔ e.packed.toNat % 256 = 123 := by
    rw [← BitVec.toNat_inj, data1Of_toNat]
    rfl
  simp only [actionOf, ne_eq, hvelocity, hnote, ← hnibble (n := 9) (by decide), ← hnibble (n := 8) (by decide),
    ← hnibble (n := 11) (by decide)]

/-- The note number of an event as a row holds it (46_voice_loop.md R282, R283). -/
theorem data1Of_zeroExtend (e : Event) : (data1Of e).zeroExtend 64 = BitVec.ofNat 64 (e.packed.toNat % 256) := by
  rw [← data1Of_toNat, BitVec.ofNat_toNat]

/-- The table in which a note-on has made room: without row 0 when it was full (46_voice_loop.md R283). -/
def makeRoom (t : Table) : Table := if t.count = t.capacity then removeRow 0 t else t

theorem makeRoom_capacity (t : Table) : (makeRoom t).capacity = t.capacity := by
  unfold makeRoom
  split_ifs <;> rfl

section
variable {t : Table} (hwf : TableWf t)
include hwf

/-- A full table has a row 0, since its capacity is at least 1 (10_state.md R37). -/
theorem count_pos_of_full (hfull : t.count = t.capacity) : 0 < t.count := by
  obtain ⟨hcap, -⟩ := hwf
  omega

theorem makeRoom_count_add_one :
    (makeRoom t).count + 1 = if t.count = t.capacity then t.count else t.count + 1 := by
  unfold makeRoom
  split_ifs with hfull
  · exact Nat.sub_add_cancel (count_pos_of_full hwf hfull)
  · rfl

theorem tableWf_makeRoom : TableWf (makeRoom t) := by
  unfold makeRoom
  split_ifs with hfull
  · exact tableWf_removeRow hwf (count_pos_of_full hwf hfull)
  · exact hwf

theorem liveRows_makeRoom :
    liveRows (makeRoom t) = if t.count = t.capacity then (liveRows t).drop 1 else liveRows t := by
  obtain ⟨-, -, hstored, -⟩ := id hwf
  unfold makeRoom
  split_ifs with hfull
  · rw [liveRows_removeRow hstored (count_pos_of_full hwf hfull), List.eraseIdx_zero, List.drop_one]
  · rfl

end

/-- The three fields of the row that a note-on appends (46_voice_loop.md R283, R284). -/
def noteRow (entry : Nat) (n : BitVec 8) (s : State) : VoiceRow :=
  { note := n.zeroExtend 64
    phase := fZero
    dt := pin s.free (.noteDt entry) (noteDt n.toNat s.syn.pitch s.sys.sr) }

theorem noteOn_eq (entry : Nat) (n v : BitVec 8) (s : State) :
    noteOn entry n v s = { s with
      table := appendRow (noteRow entry n s) (makeRoom s.table)
      env := triggerAttack (fdiv (fofInt (v.toNat : Int)) f127) s.env } := rfl

/-- A note that does not sound: its note-off changes nothing (46_voice_loop.md R285). -/
theorem noteOff_of_silent {n : BitVec 8} {s : State}
    (h : ∀ k, k < s.table.count → (rowAt s.table k).note ≠ n.zeroExtend 64) : noteOff n s = s := by
  have hfind : findRow .note (n.zeroExtend 64) 0 s.table = none := findRow_of_no_match fun k _ hk => h k hk
  simp only [noteOff, hfind]

/-- Its first row goes, and the envelope is released with the last row (46_voice_loop.md R285). -/
theorem noteOff_of_first {n : BitVec 8} {s : State} {j : Nat} (hlive : j < s.table.count)
    (hnote : (rowAt s.table j).note = n.zeroExtend 64)
    (hfirst : ∀ k, k < j → (rowAt s.table k).note ≠ n.zeroExtend 64) :
    noteOff n s = { s with
      table := removeRow j s.table
      env := if s.table.count = 1 then triggerRelease s.env else s.env } := by
  have hfind : findRow .note (n.zeroExtend 64) 0 s.table = some j :=
    findRow_of_first_match (Nat.zero_le j) hlive hnote fun k _ hk => hfirst k hk
  have hlast : s.table.count - 1 = 0 ↔ s.table.count = 1 := by omega
  simp only [noteOff, hfind, removeRow_count, hlast]

section
variable {entry : Nat} {e : Event} {s : State}

theorem handleEvent_of_noteOn (hstatus : e.status.toNat / 16 = 9) (hvelocity : 0 < e.packed.toNat / 256) :
    handleEvent entry e s = noteOn entry (data1Of e) (data2Of e) s := by
  simp only [handleEvent, actionOf_eq, if_pos (And.intro hstatus hvelocity.ne')]

theorem handleEvent_of_noteOff
    (h : e.status.toNat / 16 = 8 ∨ (e.status.toNat / 16 = 9 ∧ e.packed.toNat / 256 = 0)) :
    handleEvent entry e s = noteOff (data1Of e) s := by
  have hnot : ¬ (e.status.toNat / 16 = 9 ∧ e.packed.toNat / 256 ≠ 0) := by omega
  simp only [handleEvent, actionOf_eq, if_neg hnot, if_pos h]

theorem handleEvent_of_allNotesOff (hstatus : e.status.toNat / 16 = 11) (hnote : e.packed.toNat % 256 = 123) :
    handleEvent entry e s = allNotesOff s := by
  simp [handleEvent, actionOf_eq, hstatus, hnote]

theorem handleEvent_of_ignored (hon : ¬ (e.status.toNat / 16 = 9 ∧ 0 < e.packed.toNat / 256))
    (hoff : ¬ (e.status.toNat / 16 = 8 ∨ (e.status.toNat / 16 = 9 ∧ e.packed.toNat / 256 = 0)))
    (hallOff : ¬ (e.status.toNat / 16 = 11 ∧ e.packed.toNat % 256 = 123)) : handleEvent entry e s = s := by
  rw [Nat.pos_iff_ne_zero] at hon
  simp only [handleEvent, actionOf_eq, if_neg hon, if_neg hoff, if_neg hallOff]

end

end Sys2Proof.Machine

open Sys2Proof Sys2Proof.Machine

/-- Settles O43: the first clause is one turn of the drain, the second what an induction over its turns says of the
queue. -/
theorem aTickDrainsAndCountsOnce : Obligations.ATickDrainsAndCountsOnce := by
  unfold Obligations.ATickDrainsAndCountsOnce
  refine ⟨fun s hpending harrived => ?turn, fun s => ?queue⟩
  case turn => exact exec_synTick_of_visible ((headVisible_iff _).2 ⟨hpending, harrived⟩)
  case queue =>
    obtain ⟨hcounter, htail, hcapacity, hev, hhead, hbound, hnext, hall⟩ := queueDrained_drain s
    exact ⟨_, exec_synTick s, hcounter, htail, hcapacity, hev, hhead, hbound, hnext, hall⟩

/-- Settles O44: the next state of a tick is the old one with five parts replaced, and rendering keeps the capacity. -/
theorem aTickLeavesTheseRegistersAlone : Obligations.ATickLeavesTheseRegistersAlone := by
  unfold Obligations.ATickLeavesTheseRegistersAlone
  intro s
  obtain ⟨-, -, -, -, -, -, -, hdrain, -⟩ := drainLoop_frame (s.queue.tail - s.queue.head + 1) s
  have hcapacity : (tickVoices (drain s)).2.capacity = s.table.capacity :=
    (renderVoices_bounds ..).2.trans hdrain
  exact ⟨_, exec_synTick s, rfl, rfl, rfl, rfl, rfl, rfl, rfl, rfl, rfl, rfl, rfl, rfl, rfl, hcapacity⟩

/-- Settles O49: the noise registers after a tick are those of `noiseFactor`, which no event reaches. -/
theorem aTickDrawsNoiseOnce : Obligations.ATickDrawsNoiseOnce := by
  unfold Obligations.ATickDrawsNoiseOnce
  refine fun s => ⟨_, exec_synTick s, fun hoff => ?off, fun hon => ?on⟩
  case off => exact congrArg Prod.snd (noiseFactor_of_off hoff)
  case on =>
    obtain ⟨c, hc⟩ := Option.ne_none_iff_exists'.1 hon
    refine ⟨noiseFactor_seed_toNat hc, ?_⟩
    rw [noiseFactor_of_on hc]
    exact drawColour_settings ..

/-- Settles O46: the sum over no voice is 0.0, and the other steps of the tick do not look at the table. -/
theorem anEmptyTickIsSilent : Obligations.AnEmptyTickIsSilent := by
  unfold Obligations.AnEmptyTickIsSilent
  intro s hnone hempty
  have hvoices := tickVoices_of_empty hempty
  have hout : SameValue (fmul fZero s.syn.vol) (tickOutput s) := by
    rw [tickOutput, hvoices]
    exact sameValue_pin _ _ _
  exact ⟨_, exec_synTick_of_not_visible hnone, hout, rfl, rfl, congrArg Prod.snd hvoices, rfl,
    fun c => noiseFactor_seed_toNat⟩

/-- Settles O45: a row is advanced exactly when the mode selects it. -/
theorem onlyTheSelectedVoicesAdvance : Obligations.OnlyTheSelectedVoicesAdvance := by
  unfold Obligations.OnlyTheSelectedVoicesAdvance
  intro s hwf hnone _
  refine ⟨_, exec_synTick_of_not_visible hnone, (renderVoices_bounds ..).1, fun k hk => ?_⟩
  dsimp only
  rw [rowAt_tickVoices hwf]
  by_cases hsel : k ∈ voicesOf s.syn.mode s.table.count
  · rw [if_pos hsel]
    refine ⟨rfl, rfl, fun _ => sameValue_pin _ _ _, fun hsilent => absurd ((mem_voicesOf_iff hk).1 hsel) ?_⟩
    rcases hsilent with ⟨hmode, hnext⟩ | ⟨hmode, hpos⟩ <;> simp [hmode] <;> omega
  · rw [if_neg hsel]
    exact ⟨rfl, rfl, fun hmode => absurd ((mem_voicesOf_iff hk).2 hmode) hsel, fun _ => rfl⟩

/-- Settles O47: the row goes behind the rows that `makeRoom` keeps. -/
theorem aNoteOnAppendsARow : Obligations.ANoteOnAppendsARow := by
  unfold Obligations.ANoteOnAppendsARow
  intro entry e s hwf hstatus hvelocity
  have hevent := (handleEvent_of_noteOn (entry := entry) (s := s) hstatus hvelocity).trans (noteOn_eq ..)
  rw [data2Of_toNat] at hevent
  obtain ⟨-, -, hstored, -⟩ := tableWf_makeRoom hwf
  refine ⟨(noteRow entry (data1Of e) s).dt, _, ?dt, hevent, makeRoom_capacity s.table,
    makeRoom_count_add_one hwf, ?rows⟩
  case dt =>
    rw [noteRow, data1Of_toNat]
    exact sameValue_pin _ _ _
  case rows =>
    rw [liveRows_appendRow _ hstored, liveRows_makeRoom hwf, ← data1Of_zeroExtend]
    rfl

/-- Settles O48: the classes of events exclude each other, and a note-off finds its first row or none. -/
theorem noteOffAllNotesOffAndIgnoredEvents : Obligations.NoteOffAllNotesOffAndIgnoredEvents := by
  unfold Obligations.NoteOffAllNotesOffAndIgnoredEvents
  intro entry e s hwf
  dsimp only
  rw [← data1Of_zeroExtend]
  refine ⟨fun hoff hsilent => ?silent, fun hoff j hlive hnote hfirst => ?first, fun ⟨hstatus, hnote⟩ => ?allOff,
    handleEvent_of_ignored⟩
  case silent => rw [handleEvent_of_noteOff hoff, noteOff_of_silent hsilent]
  case first =>
    obtain ⟨-, -, hstored, -⟩ := hwf
    refine ⟨removeRow j s.table, ?_, Nat.sub_add_cancel (Nat.one_le_of_lt hlive), rfl,
      liveRows_removeRow hstored hlive⟩
    rw [handleEvent_of_noteOff hoff, noteOff_of_first hlive hnote hfirst]
  case allOff => exact handleEvent_of_allNotesOff hstatus hnote

/-- Settles O42: the output of a tick is the pinned product, and without an arrived event its sum is the fold over the
rows that the tick finds. -/
theorem synTickRendersAfterTheDrain : Obligations.SynTickRendersAfterTheDrain := by
  unfold Obligations.SynTickRendersAfterTheDrain
  refine ⟨rfl, fun s u nf hwf hnone hstep hoff hon => ?sum, fun s => ?drained⟩
  case sum =>
    cases hstep
    obtain rfl := noiseFactor_eq_of_commands hoff hon
    dsimp only
    rw [selectedVoices_eq_voicesOf]
    have hout : tickOutput s = pin s.free (.res 0) (fmul (tickVoices s).1 s.syn.vol) := rfl
    rw [tickVoices_sum hwf] at hout
    refine ⟨_, exec_synTick_of_not_visible hnone, ?value, fun i hi hnan => ?nan⟩
    case value =>
      dsimp only
      rw [hout]
      exact sameValue_pin _ _ _
    case nan =>
      dsimp only
      rw [hout, isNaN_pin]
      exact isNaN_fmul_left (isNaN_foldl_fadd hi (isNaN_voiceSample _ _ _ _ _ _ hnan) _) _
  case drained =>
    obtain ⟨e, t, q, hdrain⟩ := exists_drain_eq s
    have hnext := exec_synTick s
    rw [hdrain] at hnext ⊢
    exact ⟨_, sameValue_pin _ _ _, hnext⟩
end

section
/-! SUPPORT. Faults over all commands (60_exceptions.md R300 to R304): every next state is an answer, or what
`faulted` says of a cause that the command can raise. -/

namespace Sys2Proof.Machine

/-! ### Commands that are not well-formed -/

theorem isSome_columnOfCode_iff (n : Nat) : (columnOfCode n).isSome = true ↔ n ≤ 2 :=
  isSome_ofCode_iff (P := (· ≤ 2)) columnCode_of_columnOfCode (fun c => by cases c <;> decide) (by decide) n

theorem columnOfCode_eq_none {n : Nat} (h : ¬ n ≤ 2) : columnOfCode n = none := by
  rwa [← isSome_columnOfCode_iff, Option.not_isSome_iff_eq_none] at h

theorem waveOfCode_eq_none {n : Nat} (h : ¬ n ≤ 13) : waveOfCode n = none := by
  rwa [← isSome_waveOfCode_iff, Option.not_isSome_iff_eq_none] at h

/-- The legal selectors of 30_encoding.md R87 are the codes of the waveforms. -/
theorem exists_waveCode {n : Nat} (h : n ≤ 13) : ∃ c, n = waveCode c := by
  obtain ⟨c, hc⟩ := Option.isSome_iff_exists.1 ((isSome_waveOfCode_iff n).2 h)
  exact ⟨c, (waveCode_of_waveOfCode hc).symm⟩

/-- An illegal selector gets the fault that 30_encoding.md R90 gives its word. -/
theorem exec_of_not_wellFormed {i : Instr} (h : i.WellFormed = false) (s : State) :
    exec i s = .next (faulted 1 (encode i) s) := by
  cases i with
  | oscSetwave sel =>
    simp only [exec, execOscSetwave, waveOfCode_eq_none (of_decide_eq_false h), raiseFault_eq_faulted, causeCode]
  | vtFind sel =>
    simp only [exec, execVtFind, columnOfCode_eq_none (of_decide_eq_false h), raiseFault_eq_faulted, causeCode]
  | vtRdf sel =>
    simp only [exec, execVtRdf, columnOfCode_eq_none (of_decide_eq_false h), raiseFault_eq_faulted, causeCode]
  | vtWrf sel =>
    simp only [exec, execVtWrf, columnOfCode_eq_none (of_decide_eq_false h), raiseFault_eq_faulted, causeCode]
  | _ => cases h

/-! ### The causes of each command -/

/-- The cause codes that a command can raise from a state (60_exceptions.md R300). -/
inductive CanRaise (s : State) (i : Instr) : Nat → Prop
  | illegalCmd (h : i.WellFormed = false) : CanRaise s i 1
  | vtFull (hgrow : i = .vtAppend ∨ i = .vtInsert) (hfull : s.table.count = s.table.capacity) : CanRaise s i 2
  | vtIndex (hrow : i = .vtGet ∨ i = .vtInsert ∨ i = .vtRemove ∨ i = .vtNext ∨
      ∃ sel, i = .vtFind sel ∨ i = .vtRdf sel ∨ i = .vtWrf sel) : CanRaise s i 3
  | regAccess (hreg : ∃ imm, i = .rdreg imm ∨ i = .wrreg imm) : CanRaise s i 4
  | badValue (hwrite : ∃ imm, i = .wrreg imm) : CanRaise s i 5

/-- The next state is tagged FAULT only as a fault of a cause that the command can raise. -/
def FaultsByTable (s : State) (i : Instr) (t : State) : Prop :=
  t.host.rtag = .fault → ∃ code, t = faulted code (encode i) s ∧ CanRaise s i code

section
variable {s t : State} {i : Instr}

theorem FaultsByTable.raised {code : Nat} (h : CanRaise s i code) : FaultsByTable s i (faulted code (encode i) s) :=
  fun _ => ⟨code, rfl, h⟩

theorem FaultsByTable.answered (h : t.host.rtag ≠ .fault) : FaultsByTable s i t := fun hfault => absurd hfault h

end

section
variable {s t : State}

theorem faultsByTable_rdreg (imm : BitVec 16) (h : exec (.rdreg imm) s = .next t) :
    FaultsByTable s (.rdreg imm) t := by
  cases hnum : regOfNumber imm.toNat with
  | none =>
    cases (exec_rdreg_unassigned hnum s).symm.trans h
    exact .raised (.regAccess ⟨imm, .inl rfl⟩)
  | some r =>
    cases (exec_rdreg_assigned hnum s).symm.trans h
    exact .answered nofun

theorem faultsByTable_wrreg (imm : BitVec 16) (h : exec (.wrreg imm) s = .next t) :
    FaultsByTable s (.wrreg imm) t := by
  have haccess : CanRaise s (.wrreg imm) 4 := .regAccess ⟨imm, .inr rfl⟩
  cases hnum : regOfNumber imm.toNat with
  | none =>
    cases (exec_wrreg_unassigned hnum s).symm.trans h
    exact .raised haccess
  | some r =>
    by_cases hro : accessOf r = .ro
    · cases (exec_wrreg_readOnly hnum hro).symm.trans h
      exact .raised haccess
    by_cases hlegal : accessOf r = .rwl → legalFor r s.host.arg0 = true
    · cases (exec_wrreg_accepted hnum hro hlegal).symm.trans h
      exact .answered nofun
    · obtain ⟨hrwl, hillegal⟩ := Classical.not_imp.1 hlegal
      cases (exec_wrreg_badValue hnum hrwl (Bool.eq_false_iff.2 hillegal)).symm.trans h
      exact .raised (.badValue ⟨imm, rfl⟩)

/-- `VT.APPEND` and `VT.INSERT`, the commands that can find the table full. -/
theorem faultsByTable_grow {i : Instr} (hi : i = .vtAppend ∨ i = .vtInsert) (h : exec i s = .next t) :
    FaultsByTable s i t := by
  obtain rfl | rfl := id hi
  · cases (exec_vtAppend s).symm.trans h
    split_ifs with hfull
    · exact .raised (.vtFull hi hfull)
    · exact .answered nofun
  · cases (exec_vtInsert s).symm.trans h
    split_ifs with hindex hfull
    · exact .raised (.vtFull hi hfull)
    · exact .answered nofun
    · exact .raised (.vtIndex (by simp))

theorem faultsByTable_find {sel : BitVec 4} (hsel : sel.toNat ≤ 2) (h : exec (.vtFind sel) s = .next t) :
    FaultsByTable s (.vtFind sel) t := by
  obtain ⟨c, hc⟩ := exists_columnCode hsel
  cases (exec_vtFind hc s).symm.trans h
  split_ifs
  · exact .answered nofun
  · cases findRow c s.host.arg0 s.host.arg1.toNat s.table with
    | none | some j => exact .answered nofun
  · exact .raised (.vtIndex (by simp))

/-- `VT.RDF` and `VT.WRF`, the commands on a field of a row. -/
theorem faultsByTable_field {i : Instr} {sel : BitVec 4} (hi : i = .vtRdf sel ∨ i = .vtWrf sel)
    (hsel : sel.toNat ≤ 2) (h : exec i s = .next t) : FaultsByTable s i t := by
  obtain ⟨c, hc⟩ := exists_columnCode hsel
  obtain rfl | rfl := hi
  · cases (exec_vtRdf hc s).symm.trans h
    split_ifs
    · exact .answered nofun
    · exact .raised (.vtIndex (by simp))
  · cases (exec_vtWrf hc s).symm.trans h
    split_ifs
    · exact .answered nofun
    · exact .raised (.vtIndex (by simp))

/-- No command faults but by the cause table. -/
theorem faultsByTable_exec {i : Instr} (h : exec i s = .next t) : FaultsByTable s i t := by
  by_cases hwf : i.WellFormed = true
  case neg =>
    have hillegal : i.WellFormed = false := Bool.eq_false_iff.2 hwf
    cases (exec_of_not_wellFormed hillegal s).symm.trans h
    exact .raised (.illegalCmd hillegal)
  cases i with
  | rdreg imm => exact faultsByTable_rdreg imm h
  | wrreg imm => exact faultsByTable_wrreg imm h
  | vtAppend => exact faultsByTable_grow (.inl rfl) h
  | vtInsert => exact faultsByTable_grow (.inr rfl) h
  | vtFind sel => exact faultsByTable_find (of_decide_eq_true hwf) h
  | vtRdf sel => exact faultsByTable_field (.inl rfl) (of_decide_eq_true hwf) h
  | vtWrf sel => exact faultsByTable_field (.inr rfl) (of_decide_eq_true hwf) h
  | vtGet =>
    cases (exec_vtGet s).symm.trans h
    split_ifs
    · exact .answered nofun
    · exact .raised (.vtIndex (by simp))
  | vtRemove =>
    cases (exec_vtRemove s).symm.trans h
    split_ifs
    · exact .answered nofun
    · exact .answered nofun
    · exact .raised (.vtIndex (by simp))
  | vtNext =>
    cases (exec_vtNext s).symm.trans h
    split_ifs
    · exact .answered nofun
    · exact .answered nofun
    · exact .raised (.vtIndex (by simp))
  | oscSetwave sel =>
    obtain ⟨c, hc⟩ := exists_waveCode (of_decide_eq_true hwf)
    cases (exec_oscSetwave hc s).symm.trans h
    exact .answered nofun
  | vtFirst | vtLast =>
    cases h
    split_ifs
    · exact .answered nofun
    · exact .answered nofun
  | eqPop =>
    cases hvisible : headVisible s.queue with
    | true =>
      cases (exec_eqPop_of_visible hvisible).symm.trans h
      exact .answered nofun
    | false =>
      cases (exec_eqPop_of_not_visible hvisible).symm.trans h
      exact .answered nofun
  | _ =>
    cases h
    exact .answered nofun

end

end Sys2Proof.Machine

open Sys2Proof Sys2Proof.Machine

/-- Settles O10: a next state tagged FAULT is a fault by the cause table, whose five rows are the clauses. -/
theorem aFaultChangesOnlyItsRecord : Obligations.AFaultChangesOnlyItsRecord := by
  unfold Obligations.AFaultChangesOnlyItsRecord
  intro i s t hexec hfault
  obtain ⟨code, rfl, hcause⟩ := faultsByTable_exec hexec hfault
  refine ⟨code, rfl, ?_⟩
  cases hcause with
  | illegalCmd h => exact .inl ⟨rfl, h⟩
  | vtFull hgrow hfull => exact .inr (.inl ⟨rfl, hgrow, hfull⟩)
  | vtIndex hrow => exact .inr (.inr (.inl ⟨rfl, hrow⟩))
  | regAccess hreg => exact .inr (.inr (.inr (.inl ⟨rfl, hreg⟩)))
  | badValue hwrite => exact .inr (.inr (.inr (.inr ⟨rfl, hwrite⟩)))
end
